-- ==== Sys2Proof/Word.lean ====
section
/-! DEFINITION. The widths of the machine: bytes (bus lanes), 64-bit words and binary64 values (R16, R17). -/

namespace Sys2Proof

/-- One byte lane of the 64-bit bus (R87). -/
abbrev Byte := BitVec 8

/-- A `u64` (R17): a register, an operand, a command word, a table entry. -/
abbrev Word := BitVec 64

/-- An `f64` (R17), identified with its 64-bit pattern: bit 63 sign, bits 62:52 biased exponent, bits 51:0 fraction.
Its operations are those of `Machine/Float.lean`, never the integer ones of `BitVec`. -/
abbrev F64 := BitVec 64

end Sys2Proof
end

