-- ==== Sys2Proof/Config.lean ====
section
/-! DEFINITION. What an implementation fixes: the parameters that are plain data (R10, R11, R12) and the free values
(R13, R14), which have no body, so that no proof can see them. -/

namespace Sys2Proof

/-- The implementation parameters of R10, R11 and R12. A state carries the parameters of its block (CAPS and CALK read
them), and nothing changes them; every meaning takes them from there, so no statement over all states assumes a value. -/
structure Params where
  /-- `LOG2_NMAX` (R10): the largest transform size is `2 ^ log2Nmax`. -/
  log2Nmax : Nat
  /-- `DMEM_WORDS` (R11): the number of 64-bit words of DMEM. -/
  dmemWords : Nat
  /-- `CAL_K` (R12): the calibration constant of the acoustic metric. -/
  calK : F64
  deriving DecidableEq, Repr

/-- `N_MAX = 2 ^ LOG2_NMAX` (R10). -/
def Params.nmax (p : Params) : Nat := 2 ^ p.log2Nmax

/-- The bounds of R10, R11 and R12: `0 ≤ LOG2_NMAX ≤ 17`, `1 ≤ DMEM_WORDS ≤ 2^21`, CAL_K finite and greater than zero
(its sign bit clear, its exponent not all ones, not zero). -/
def Params.wf (p : Params) : Bool :=
  decide (p.log2Nmax ≤ 17) && decide (1 ≤ p.dmemWords) && decide (p.dmemWords ≤ 2 ^ 21) &&
    decide (0 < p.calK.toNat) && decide (p.calK.toNat < 0x7FF0000000000000)

/-- The reference configuration of 00_scope.md section 4. Only `State.reset` and tests use it (log 1). -/
def Params.reference : Params :=
  { log2Nmax := 10, dmemWords := 4096, calK := 0x3FF0000000000000 }

namespace Config

/-- `NAN_RESULT` (R14, R24): the sign (bit 51) and payload (bits 50:0) of the `d`-th quiet NaN that arithmetic delivers.
"A model must treat the sign and payload as a draw": a free value for each draw (log 2). -/
opaque nanResult : Nat → BitVec 52

/-- `LOG10` (R13) at the positive finite values for which the spec states no result (log 3). -/
opaque log10Free : F64 → F64

/-- The sign (bit 52) and fraction (bits 51:0) of the NaN that `LOG10` gives for a NaN or an operand below zero: R13 says
only that it is a NaN (log 3). -/
opaque log10Nan : F64 → BitVec 53

end Config

end Sys2Proof
end

