-- ==== Sys2Proof/Machine/Float.lean ====
section
/-! DEFINITION. Binary64 arithmetic (R17, R19 to R28) on bit patterns: operands become integers, the exact result is
computed, and one rounding, roundTiesToEven, narrows it. A finite value is an integer number of units of `2^-1074`, the
least positive binary64 value. An operation that may deliver a NaN takes the index `d` of the draw it would use (R24). -/

namespace Sys2Proof.F64

/-! ## Fields -/

/-- The sign bit (R17). -/
def sign (x : F64) : Bool := x.msb

/-- The pattern without its sign bit; it orders the magnitudes of all values that are not NaNs. -/
def mag (x : F64) : Nat := x.toNat % 2 ^ 63

/-- The biased exponent, bits 62:52 (R17). -/
def expBits (x : F64) : Nat := mag x / 2 ^ 52

/-- The fraction, bits 51:0 (R17). -/
def fracBits (x : F64) : Nat := mag x % 2 ^ 52

/-- The pattern of an infinity, less its sign. -/
def infMag : Nat := 2047 * 2 ^ 52

/-- A NaN: exponent all ones and a fraction that is not zero. -/
def isNaN (x : F64) : Bool := decide (infMag < mag x)

/-- An infinity. -/
def isInf (x : F64) : Bool := decide (mag x = infMag)

/-- A finite value: a zero, a subnormal or a normal number. -/
def isFinite (x : F64) : Bool := decide (mag x < infMag)

/-- `+0.0` or `-0.0`. -/
def isZero (x : F64) : Bool := decide (mag x = 0)

/-- The magnitude of a finite value in units of `2^-1074`; subnormals included (R22). -/
def units (x : F64) : Nat :=
  if expBits x = 0 then fracBits x else (2 ^ 52 + fracBits x) * 2 ^ (expBits x - 1)

/-- The exact value of a finite number in units of `2^-1074`. -/
def value (x : F64) : Int := if sign x then -(units x : Int) else (units x : Int)

/-! ## Constructing values -/

/-- The pattern with sign `s` and the bits 62:0 of `m`. -/
def pack (s : Bool) (m : Nat) : F64 := BitVec.ofNat 64 ((if s then 2 ^ 63 else 0) + m)

/-- A zero with sign `s`. -/
def zero (s : Bool) : F64 := pack s 0

/-- An infinity with sign `s`. -/
def inf (s : Bool) : F64 := pack s infMag

/-- The quiet NaN of draw `d` (R24): its sign and payload are the free value `Config.nanResult d`. -/
def quietNaN (d : Nat) : F64 :=
  let r := Config.nanResult d
  r.extractLsb' 51 1 ++ (0xFFF : BitVec 12) ++ r.extractLsb' 0 51

/-- How many low bits of `m` a result in units of `2^-(1074+k)` must drop to keep at most 53 significant bits and no bit
below `2^-1074`. -/
def dropBits (m k : Nat) : Nat := max k (m.log2 + 1 - 53)

/-- `m` divided by `2^drop`, rounded to the nearest integer, ties to even (R21). -/
def divPow2Even (m drop : Nat) : Nat :=
  let q := m / 2 ^ drop
  let r := m % 2 ^ drop
  if 2 ^ drop < 2 * r ∨ (2 * r = 2 ^ drop ∧ q % 2 = 1) then q + 1 else q

/-- The binary64 value nearest to `±m * 2^-(1074+k)`, ties to even (R21); subnormals are kept and a result past the largest
finite value is an infinity of its sign (R22). A carry out of the fraction moves into the exponent field. -/
def round (s : Bool) (m k : Nat) : F64 :=
  let drop := dropBits m k
  let bits := (drop - k) * 2 ^ 52 + divPow2Even m drop
  if infMag ≤ bits then inf s else pack s bits

/-! ## Arithmetic (R21, R22, R24) -/

/-- `neg(x)`: the sign bit inverted, nothing else (R23). -/
def neg (x : F64) : F64 := x ^^^ (0x8000000000000000 : BitVec 64)

/-- `abs(x)`: the sign bit cleared, nothing else (R23). -/
def abs (x : F64) : F64 := x &&& (0x7FFFFFFFFFFFFFFF : BitVec 64)

/-- Addition. A zero sum is `-0.0` only when both operands are negative zeros. -/
def add (d : Nat) (a b : F64) : F64 :=
  if isNaN a || isNaN b then quietNaN d
  else if isInf a then (if isInf b && sign a != sign b then quietNaN d else a)
  else if isInf b then b
  else
    let v := value a + value b
    if v = 0 then zero (sign a && sign b) else round (decide (v < 0)) v.natAbs 0

/-- Subtraction: the sum with the second operand's sign inverted. -/
def sub (d : Nat) (a b : F64) : F64 := add d a (neg b)

/-- Multiplication. -/
def mul (d : Nat) (a b : F64) : F64 :=
  let s := sign a != sign b
  if isNaN a || isNaN b then quietNaN d
  else if isInf a || isInf b then (if isZero a || isZero b then quietNaN d else inf s)
  else round s (units a * units b) 1074

/-- Division. The quotient is taken to two bits below the finest unit and a sticky bit records a remainder, which is enough
for one correct rounding. -/
def div (d : Nat) (a b : F64) : F64 :=
  let s := sign a != sign b
  if isNaN a || isNaN b then quietNaN d
  else if isInf a then (if isInf b then quietNaN d else inf s)
  else if isInf b then zero s
  else if isZero b then (if isZero a then quietNaN d else inf s)
  else
    let num := units a * 2 ^ 1076
    round s (2 * (num / units b) + (if num % units b = 0 then 0 else 1)) 3

/-- Newton's iteration for the integer square root, from a guess at or above it, until the guess stops falling. -/
def isqrtFrom : Nat → Nat → Nat → Nat
  | 0, _, g => g
  | fuel + 1, m, g =>
    let g' := (g + m / g) / 2
    if g' < g then isqrtFrom fuel m g' else g

/-- The integer square root: the greatest `r` with `r * r ≤ m`. -/
def isqrt (m : Nat) : Nat := isqrtFrom (m.log2 + 2) m (2 ^ (m.log2 / 2 + 1))

/-- Square root (R26). The root is taken to two bits below the finest unit, with a sticky bit. -/
def sqrt (d : Nat) (x : F64) : F64 :=
  if isNaN x then quietNaN d
  else if isZero x then x
  else if sign x then quietNaN d
  else if isInf x then x
  else
    let m := units x * 2 ^ 1078
    let r := isqrt m
    round false (2 * r + (if r * r = m then 0 else 1)) 3

/-- `to_f64(n)` (R27). -/
def ofNat (n : Nat) : F64 := round false (n * 2 ^ 1074) 0

/-! ## Comparisons (R25): quiet, false when an operand is a NaN -/

/-- A signed integer in the order of the values that are not NaNs; both zeros are 0. -/
def key (x : F64) : Int := if sign x then -(mag x : Int) else (mag x : Int)

/-- `x > y`. -/
def gt (x y : F64) : Bool := !isNaN x && !isNaN y && decide (key y < key x)

/-- `x == y`. -/
def eq (x y : F64) : Bool := !isNaN x && !isNaN y && decide (key x = key y)

/-! ## Literals of the pseudocode (R19) -/

/-- `0.0` -/
def zeroPos : F64 := 0x0000000000000000
/-- `1.0` -/
def one : F64 := 0x3FF0000000000000
/-- `2.0` -/
def two : F64 := 0x4000000000000000
/-- `10.0` -/
def ten : F64 := 0x4024000000000000

/-! ## LOG10 (R13) -/

/-- The `k` in `0..22` with `x = 10^k`: the powers of ten that binary64 represents exactly are these. -/
def powerOfTen (x : F64) : Option Nat := (List.range 23).find? (fun k => x == ofNat (10 ^ k))

/-- A NaN with the sign and fraction of `r`, its fraction made nonzero: every NaN is one of these. -/
def nanOf (r : BitVec 53) : F64 :=
  let frac := r.extractLsb' 0 52
  r.extractLsb' 52 1 ++ (0x7FF : BitVec 11) ++ (if frac = 0 then 0x8000000000000 else frac)

/-- `LOG10` (R13): the results the spec states, and free values everywhere else (log 3). -/
def log10 (x : F64) : F64 :=
  if isZero x then inf true
  else if isNaN x || sign x then nanOf (Config.log10Nan x)
  else if isInf x then x
  else
    match powerOfTen x with
    | some k => ofNat k
    | none => Config.log10Free x

end Sys2Proof.F64
end

