-- ==== Sys2Proof/Syntax.lean ====
section
/-! DEFINITION. The commands (R119): the fourteen opcodes, the twenty legal command words, and the fields of the one
command format (R110). -/

namespace Sys2Proof

/-- The fourteen commands of R119, before their flags. -/
inductive Opcode where
  | nop | cfg | fwd | inv | spec | rstpk | bandf | metric
  | invert | intlv | deintlv | mix | rms | peakdet
  deriving DecidableEq, Repr

/-- The twenty legal commands: one constructor per row of the opcode table (R119). No command word carries an immediate
(R112): every operand is an operand register, so no constructor has an argument. -/
inductive Instr where
  | nop
  | cfg
  | fwd
  | inv
  | invXR
  | invXI
  | invXRXI
  | spec
  | rstpk
  | bandf
  | metric
  | invert
  | intlv
  | deintlvLeft
  | deintlvRight
  | deintlvMix
  | mix
  | mixNeg
  | rms
  | peakdet
  deriving DecidableEq, Repr

/-- The fields of a command word (R110), `CMD[63:0]` taken apart and nothing dropped. -/
structure CmdFields where
  /-- `CMD[7:0]` -/
  opcode : BitVec 8
  /-- `CMD[9:8]`: channel selector, used by DEINTLV. -/
  ch : BitVec 2
  /-- `CMD[10]`: negate the second buffer, used by MIX. -/
  neg : Bool
  /-- `CMD[11]`: the real input is a DMEM buffer, used by INV. -/
  xr : Bool
  /-- `CMD[12]`: the imaginary input is a DMEM buffer, used by INV. -/
  xi : Bool
  /-- `CMD[31:13]`, must be 0. -/
  reservedLow : BitVec 19
  /-- `CMD[63:32]`, must be 0. -/
  reservedHigh : BitVec 32
  deriving DecidableEq, Repr

end Sys2Proof
end

