-- ==== Sys2Proof/WellFormed.lean ====
section
/-! DEFINITION. Which command fields are legal (R110, R118, R120), check by check, and the fields each row of the opcode
table has (R119). -/

namespace Sys2Proof

/-- The opcode map of R119; `none` for the reserved opcodes of R120. -/
def Opcode.ofByte (b : BitVec 8) : Option Opcode :=
  match b.toNat with
  | 0x00 => some .nop
  | 0x01 => some .cfg
  | 0x02 => some .fwd
  | 0x03 => some .inv
  | 0x04 => some .spec
  | 0x05 => some .rstpk
  | 0x06 => some .bandf
  | 0x07 => some .metric
  | 0x10 => some .invert
  | 0x11 => some .intlv
  | 0x12 => some .deintlv
  | 0x13 => some .mix
  | 0x14 => some .rms
  | 0x15 => some .peakdet
  | _ => none

/-- The first check of R118: the opcode is assigned. -/
def CmdFields.opcodeDefined (f : CmdFields) : Bool := (Opcode.ofByte f.opcode).isSome

/-- The second check of R118: no bit outside the opcode and the opcode's allowed flags is set (R119's column). -/
def CmdFields.flagsAllowed (f : CmdFields) : Bool :=
  f.reservedLow == 0 && f.reservedHigh == 0 &&
  (f.ch == 0 || f.opcode == 0x12) &&
  (!f.neg || f.opcode == 0x13) &&
  ((!f.xr && !f.xi) || f.opcode == 0x03)

/-- The third check of R118: DEINTLV's channel is LEFT, RIGHT or MIX. -/
def CmdFields.channelDefined (f : CmdFields) : Bool := !(f.opcode == 0x12 && f.ch == 3)

/-- A legal command word (R118): all three checks pass. -/
def CmdFields.wf (f : CmdFields) : Bool := f.opcodeDefined && f.flagsAllowed && f.channelDefined

/-- The fields with the opcode `b` and no flag. -/
def CmdFields.plain (b : BitVec 8) : CmdFields :=
  { opcode := b, ch := 0, neg := false, xr := false, xi := false, reservedLow := 0, reservedHigh := 0 }

/-- The fields of each row of the opcode table (R119). -/
def Instr.fields : Instr → CmdFields
  | .nop => .plain 0x00
  | .cfg => .plain 0x01
  | .fwd => .plain 0x02
  | .inv => .plain 0x03
  | .invXR => { CmdFields.plain 0x03 with xr := true }
  | .invXI => { CmdFields.plain 0x03 with xi := true }
  | .invXRXI => { CmdFields.plain 0x03 with xr := true, xi := true }
  | .spec => .plain 0x04
  | .rstpk => .plain 0x05
  | .bandf => .plain 0x06
  | .metric => .plain 0x07
  | .invert => .plain 0x10
  | .intlv => .plain 0x11
  | .deintlvLeft => .plain 0x12
  | .deintlvRight => { CmdFields.plain 0x12 with ch := 1 }
  | .deintlvMix => { CmdFields.plain 0x12 with ch := 2 }
  | .mix => .plain 0x13
  | .mixNeg => { CmdFields.plain 0x13 with neg := true }
  | .rms => .plain 0x14
  | .peakdet => .plain 0x15

/-- An instruction is well formed when its fields pass the three checks of R118. -/
def Instr.wf (i : Instr) : Bool := i.fields.wf

end Sys2Proof
end

