-- ==== Sys2Proof/Decode.lean ====
section
/-! DEFINITION. The byte lanes of a word (R87), the decoder of R118, total on every 64-bit value, and the encoder of R119. -/

namespace Sys2Proof

/-! ## Byte lanes -/

/-- Lane `k` of the bus carries bits `[8k+7:8k]` (R87). -/
def laneOf (w : Word) (k : Nat) : Byte := w.extractLsb' (8 * k) 8

/-- The eight lanes of a word, lane 0 first: little-endian (R87). -/
def lanesOf (w : Word) : List Byte := (List.range 8).map (laneOf w)

/-- The word that lanes carry, lane 0 first (R87). -/
def wordOfLanes (bs : List Byte) : Word :=
  bs.foldr (fun b w => (w <<< 8) ||| b.setWidth 64) 0

/-! ## Decoding -/

/-- Why a command word is not legal (R118, R120). -/
inductive DecodeError where
  /-- The opcode is reserved. -/
  | reservedOpcode
  /-- A bit is set outside the opcode and the flags it allows. -/
  | flagNotAllowed
  /-- DEINTLV with CH = 3. -/
  | reservedChannel
  deriving DecidableEq, Repr

/-- The detail number that ILLEGAL_COMMAND reports (R118, R251). -/
def DecodeError.detail : DecodeError → Byte
  | .reservedOpcode => 0
  | .flagNotAllowed => 1
  | .reservedChannel => 2

/-- The `allowed` mask of R118. -/
def allowedFlags : Opcode → Word
  | .deintlv => 0x300
  | .mix => 0x400
  | .inv => 0x1800
  | .nop | .cfg | .fwd | .spec | .rstpk | .bandf | .metric
  | .invert | .intlv | .rms | .peakdet => 0

/-- The opcode byte `CMD[7:0]` (R110). -/
def opcodeByte (w : Word) : Byte := w.extractLsb' 0 8

/-- The last step of R118: the command of an opcode whose flags are allowed, with DEINTLV's channel check. -/
def selectCommand (op : Opcode) (w : Word) : Except DecodeError Instr :=
  match op with
  | .nop => .ok .nop
  | .cfg => .ok .cfg
  | .fwd => .ok .fwd
  | .inv =>
    match w.getLsbD 11, w.getLsbD 12 with
    | false, false => .ok .inv
    | true, false => .ok .invXR
    | false, true => .ok .invXI
    | true, true => .ok .invXRXI
  | .spec => .ok .spec
  | .rstpk => .ok .rstpk
  | .bandf => .ok .bandf
  | .metric => .ok .metric
  | .invert => .ok .invert
  | .intlv => .ok .intlv
  | .deintlv =>
    match (w.extractLsb' 8 2).toNat with
    | 0 => .ok .deintlvLeft
    | 1 => .ok .deintlvRight
    | 2 => .ok .deintlvMix
    | _ => .error .reservedChannel
  | .mix => if w.getLsbD 10 then .ok .mixNeg else .ok .mix
  | .rms => .ok .rms
  | .peakdet => .ok .peakdet

/-- The decoder (R118), its checks in the order of the rule: opcode, flags, channel. -/
def decodeWord (w : Word) : Except DecodeError Instr :=
  match Opcode.ofByte (opcodeByte w) with
  | none => .error .reservedOpcode
  | some op =>
    if w &&& ~~~(0xFF : Word) &&& ~~~(allowedFlags op) ≠ 0 then .error .flagNotAllowed
    else selectCommand op w

/-- Decoding from byte lanes, the first at the lowest address: every command is one 64-bit CMD write (R111), so eight
lanes are read and the rest is returned. `none` when there are fewer than eight: no CMD write is narrower (R83). -/
def decodeBytes (bs : List Byte) : Option (Except DecodeError Instr × List Byte) :=
  if bs.length < 8 then none else some (decodeWord (wordOfLanes (bs.take 8)), bs.drop 8)

/-- The fields of a command word (R110). -/
def fieldsOf (w : Word) : CmdFields :=
  { opcode := opcodeByte w
    ch := w.extractLsb' 8 2
    neg := w.getLsbD 10
    xr := w.getLsbD 11
    xi := w.getLsbD 12
    reservedLow := w.extractLsb' 13 19
    reservedHigh := w.extractLsb' 32 32 }

/-! ## Encoding -/

/-- The fully decoded words of R119. -/
def encode : Instr → Word
  | .nop => 0x00000000
  | .cfg => 0x00000001
  | .fwd => 0x00000002
  | .inv => 0x00000003
  | .invXR => 0x00000803
  | .invXI => 0x00001003
  | .invXRXI => 0x00001803
  | .spec => 0x00000004
  | .rstpk => 0x00000005
  | .bandf => 0x00000006
  | .metric => 0x00000007
  | .invert => 0x00000010
  | .intlv => 0x00000011
  | .deintlvLeft => 0x00000012
  | .deintlvRight => 0x00000112
  | .deintlvMix => 0x00000212
  | .mix => 0x00000013
  | .mixNeg => 0x00000413
  | .rms => 0x00000014
  | .peakdet => 0x00000015

/-! ## The opcode table's words -/

/-- The command word that an opcode-table word of `nbits` bits stands for: bits above `nbits` are zero. -/
def tableWord (nbits w : Nat) : Word := BitVec.ofNat 64 (w % 2 ^ nbits)

/-- The instruction the decoder reads from an opcode-table word laid out in its eight byte lanes. -/
def decodeTableWord (nbits w : Nat) : Option Instr :=
  match decodeBytes (lanesOf (tableWord nbits w)) with
  | some (.ok i, _) => some i
  | _ => none

end Sys2Proof
end

