-- ==== Sys2Proof/Machine/State.lean ====
section
/-! DEFINITION. The state of the block (R40), why a step can stop, and the state after power-on reset (R290). -/

namespace Sys2Proof.Machine

/-- A bank or memory of 64-bit words, keyed by word index: the spec's smallest addressable unit (R83, R88, R89), so no word
is ever half written. Indices rise strictly; an index that is not listed holds no value (R70). -/
abbrev Memory := List (Nat × Word)

/-- The memories that hold words (R61 to R65). -/
inductive Bank where
  | real | imag | spectrum | bitrev | dmem
  deriving DecidableEq, Repr

/-- Why the host port answers with a bus error (R84). -/
inductive BusError where
  /-- The access is not 8 bytes wide (R83). -/
  | width
  /-- The address is not a multiple of 8 (R83). -/
  | alignment
  /-- No register and no entry of a window is at the address (R81, R82). -/
  | unmapped
  /-- A write to a read-only location (R85). -/
  | readOnly
  deriving DecidableEq, Repr

/-- The operand registers A0..A4 and F0 (R41, R42). -/
structure Operands where
  a0 : Word
  a1 : Word
  a2 : Word
  a3 : Word
  a4 : Word
  f0 : F64
  deriving DecidableEq, Repr

/-- What the engine holds between an accepted CMD write and the completion (R66): the command word and a copy of the
operand registers. -/
structure Latch where
  word : Word
  ops : Operands
  deriving DecidableEq, Repr

/-- The stored flags of STATUS (R48): the three flags of R72 and CONFIGURED. BUSY and IRQ are computed from the rest of the
state (`statusWord`). -/
structure Flags where
  done : Bool
  err : Bool
  overrun : Bool
  configured : Bool
  deriving DecidableEq, Repr

/-- One access of the host on its port (R80): a 32-bit byte address, a width in bytes and, for a write, the word on the
eight lanes (R87). -/
inductive HostAccess where
  | read (addr : BitVec 32) (width : Nat)
  | write (addr : BitVec 32) (width : Nat) (data : Word)
  deriving DecidableEq, Repr

/-- What the outside of the block does next (log 4): the host issues an access, the latched command's finite delay ends
(R141, R313), or power-on reset arrives (R290). -/
inductive Input where
  | access (a : HostAccess)
  | engine
  | powerOnReset
  deriving DecidableEq, Repr

/-- Why a step stops. Each is safe: the model stops where the hardware goes on. -/
inductive Fault where
  /-- Raised by the host port: "A model treats a bus error as a fault of the host program" (R84). Safe. -/
  | busError (e : BusError)
  /-- Raised by a command or a host read of a word that nothing has written (R70). Safe. -/
  | unwritten (b : Bank) (i : Nat)
  /-- Raised by FWD and INV when entry `i` of BITREV is not below N, which R68 rules out whenever STATUS.CONFIGURED = 1;
  no run from reset raises it (log 12). Safe. -/
  | badTableIndex (i : Nat)
  deriving DecidableEq, Repr

/-- Why an instruction has no meaning. -/
inductive Refusal where
  /-- Raised by `exec` for an instruction whose meaning is not written. Safe. -/
  | notModelled (mnemonic : String)
  deriving DecidableEq, Repr

/-- The state of the block: R40's table, with the hidden state of R66 and the held access of R86, and three fields of the
model's own at the end. -/
structure State where
  /-- The block's parameters: the constants behind CAPS and CALK and the sizes of the banks (R10 to R12, R45, R56). -/
  params : Params
  /-- A0..A4 and F0 (R41, R42). -/
  ops : Operands
  /-- CTRL.IRQ_EN (R46), the only bit of CTRL that holds a value. -/
  irqEn : Bool
  /-- The stored flags of STATUS (R48). -/
  flags : Flags
  /-- ERROR (R49). -/
  error : Word
  /-- CMD (R60). -/
  cmd : Word
  /-- CMD_COUNT (R47). -/
  cmdCount : Word
  /-- N (R50). -/
  n : Word
  /-- LOG2N (R51). -/
  log2n : Word
  /-- SAMPLE_RATE (R52). -/
  sampleRate : F64
  /-- BANDWIDTH (R53). -/
  bandwidth : F64
  /-- PEAK (R54). -/
  peak : F64
  /-- PEAK_BAND (R55). -/
  peakBand : Word
  /-- RESULT0 (R58). -/
  result0 : F64
  /-- RESULT1 (R59). -/
  result1 : F64
  /-- REAL (R61). -/
  real : Memory
  /-- IMAG (R62). -/
  imag : Memory
  /-- SPECTRUM (R63). -/
  spectrum : Memory
  /-- BITREV (R64), each entry zero-extended to 64 bits. -/
  bitrev : Memory
  /-- DMEM (R65). -/
  dmem : Memory
  /-- The latched command, if one runs (R66); STATUS.BUSY is `running.isSome`. -/
  running : Option Latch
  /-- The window access the port holds until the command completes (R86). -/
  held : Option HostAccess
  /-- The model's own: what the outside does next, in order (log 4). -/
  inputs : List Input
  /-- The model's own: the data of the host's completed reads, newest first (R130, log 6). -/
  reads : List Word
  /-- The model's own: how many NaNs arithmetic has drawn (R24, log 2). -/
  draws : Nat
  deriving DecidableEq, Repr

/-- All operand registers zero (R290). -/
def Operands.zero : Operands := { a0 := 0, a1 := 0, a2 := 0, a3 := 0, a4 := 0, f0 := 0 }

/-- The stored STATUS flags after reset (R48, R290). -/
def Flags.clear : Flags := { done := false, err := false, overrun := false, configured := false }

/-- The state that power-on reset leaves in a block with parameters `p` (R290): every register at the table's value, every
word of REAL, IMAG, SPECTRUM, BITREV and DMEM unwritten, no command latched, no access held. -/
def State.powerOn (p : Params) : State :=
  { params := p
    ops := Operands.zero
    irqEn := false
    flags := Flags.clear
    error := 0
    cmd := 0
    cmdCount := 0
    n := 0
    log2n := 0
    sampleRate := 0
    bandwidth := 0
    peak := 0
    peakBand := 0
    result0 := 0
    result1 := 0
    real := []
    imag := []
    spectrum := []
    bitrev := []
    dmem := []
    running := none
    held := none
    inputs := []
    reads := []
    draws := 0 }

/-- The machine right after power-on reset (R290), for the reference configuration of 00_scope.md section 4 (log 1). -/
def State.reset : State := State.powerOn Params.reference

end Sys2Proof.Machine
end

