-- ==== Sys2Proof/Machine/Ops.lean ====
section
/-! DEFINITION. The shared operations: reading and writing memories (R18, R70), command errors (R251), the two ways a command
completes (R144, R256), and running a command: checks, then effect, then completion (R141, R142). -/

namespace Sys2Proof.Machine

/-! ## Memories -/

/-- The canonical form: indices rise strictly. -/
abbrev Memory.wf (m : Memory) : Prop := m.Pairwise (fun a b => a.1 < b.1)

/-- Every listed index is below `size`. -/
abbrev Memory.within (m : Memory) (size : Nat) : Prop := ∀ c ∈ m, c.1 < size

/-- The word at an index; `none` when nothing has written it (R70). -/
def Memory.read : Memory → Nat → Option Word
  | [], _ => none
  | (a, v) :: m, i => if a = i then some v else Memory.read m i

/-- Consecutive cells from an index. -/
def Memory.cells : Nat → List Word → Memory
  | _, [] => []
  | i, v :: vs => (i, v) :: Memory.cells (i + 1) vs

/-- `MemWrite(base, n, vs)` (R18): the words `vs` at `base`, `base + 1`, ... -/
def Memory.writeRange (m : Memory) (base : Nat) (vs : List Word) : Memory :=
  m.filter (fun c => decide (c.1 < base)) ++ Memory.cells base vs ++
    m.filter (fun c => decide (base + vs.length ≤ c.1))

/-- One word written. -/
def Memory.write (m : Memory) (i : Nat) (v : Word) : Memory := m.writeRange i [v]

/-- The words at `lo ≤ i < hi` become unspecified, as if unwritten (R292). -/
def Memory.forget (m : Memory) (lo hi : Nat) : Memory :=
  m.filter (fun c => decide (c.1 < lo) || decide (hi ≤ c.1))

/-- One word of bank `b`, or the fault of R70. -/
def readWord (b : Bank) (m : Memory) (i : Nat) : Except Fault Word :=
  match m.read i with
  | some v => .ok v
  | none => .error (.unwritten b i)

/-- `MemRead(base, n)` (R18): the `n` words from `base`, or the fault of R70 at the first word that nothing has written. -/
def readRange (b : Bank) (m : Memory) : Nat → Nat → Except Fault (List Word)
  | _, 0 => .ok []
  | base, n + 1 =>
    match readWord b m base with
    | .error f => .error f
    | .ok v =>
      match readRange b m (base + 1) n with
      | .error f => .error f
      | .ok vs => .ok (v :: vs)

/-- `x[t[i]]` for each entry of a table `t` (the gather of R152 and R155). An entry past the end of `x` is the fault of
log 12. -/
def gather (x : List F64) : Nat → List Word → Except Fault (List F64)
  | _, [] => .ok []
  | i, t :: ts =>
    match x[t.toNat]? with
    | none => .error (.badTableIndex i)
    | some v =>
      match gather x (i + 1) ts with
      | .error f => .error f
      | .ok vs => .ok (v :: vs)

/-! ## Command errors (R251) -/

/-- The operand register that holds a buffer's base, as ADDRESS_RANGE reports it (R251). -/
inductive BaseReg where
  | a0 | a2 | a4
  deriving DecidableEq, Repr

/-- The rows of R251 that a command can raise, one constructor each. -/
inductive CmdError where
  /-- INVALID_SIZE 0: A0 is zero or not a power of two. -/
  | sizeNotPowerOfTwo
  /-- INVALID_SIZE 1: A0 is a power of two greater than N_MAX. -/
  | sizeTooLarge
  /-- INVALID_SAMPLE_RATE 0. -/
  | sampleRate
  /-- SIZE_MISMATCH 0: FWD's source length is not N. -/
  | forwardLength
  /-- SIZE_MISMATCH 1: INV's real length is not N. -/
  | inverseRealLength
  /-- SIZE_MISMATCH 2: INV's imaginary length is not N. -/
  | inverseImagLength
  /-- LENGTH_MISMATCH 0: the two input lengths differ. -/
  | pairLengths
  /-- LENGTH_MISMATCH 1: DEINTLV's source length is odd. -/
  | oddLength
  /-- DIVIDE_BY_ZERO 0: MIX's volume correction is zero. -/
  | zeroVolume
  /-- DIVIDE_BY_ZERO 1: RMS of an empty buffer. -/
  | emptyBuffer
  /-- INVALID_OFFSET 0: METRIC's offset is not below N/2. -/
  | metricOffset
  /-- INVALID_OFFSET 1: BANDF's index is not below N/2. -/
  | bandIndex
  /-- ILLEGAL_COMMAND, its detail from decode. -/
  | illegal (e : DecodeError)
  /-- NOT_CONFIGURED 0. -/
  | notConfigured
  /-- ADDRESS_RANGE, its detail the number of the base register. -/
  | addressRange (r : BaseReg)
  deriving DecidableEq, Repr

/-- ERROR[7:0] (R251). -/
def CmdError.code : CmdError → Byte
  | .sizeNotPowerOfTwo | .sizeTooLarge => 1
  | .sampleRate => 2
  | .forwardLength | .inverseRealLength | .inverseImagLength => 3
  | .pairLengths | .oddLength => 4
  | .zeroVolume | .emptyBuffer => 5
  | .metricOffset | .bandIndex => 6
  | .illegal _ => 8
  | .notConfigured => 9
  | .addressRange _ => 10

/-- ERROR[15:8] (R251). -/
def CmdError.detail : CmdError → Byte
  | .sizeNotPowerOfTwo => 0
  | .sizeTooLarge => 1
  | .sampleRate => 0
  | .forwardLength => 0
  | .inverseRealLength => 1
  | .inverseImagLength => 2
  | .pairLengths => 0
  | .oddLength => 1
  | .zeroVolume => 0
  | .emptyBuffer => 1
  | .metricOffset => 0
  | .bandIndex => 1
  | .illegal e => e.detail
  | .notConfigured => 0
  | .addressRange .a0 => 0
  | .addressRange .a2 => 2
  | .addressRange .a4 => 4

/-- The ERROR register's layout (R49): `{40'b0, OPCODE, DETAIL, CODE}`. -/
def errorWord (op detail code : Byte) : Word := (0 : BitVec 40) ++ op ++ detail ++ code

/-! ## Completion -/

/-- Successful completion (R144) of the command with opcode `op`: ERROR gets code and detail 0, DONE is set, CMD_COUNT counts,
BUSY falls. STATUS.ERR is not changed. -/
def State.complete (s : State) (op : Byte) : State :=
  { s with
    error := errorWord op 0 0
    flags := { s.flags with done := true }
    cmdCount := s.cmdCount + 1
    running := none }

/-- Error completion (R256): the only synchronous exception of the hardware (R250). It records ERROR, DONE, ERR and CMD_COUNT
and BUSY falls; "Nothing else changes". There is no handler, no saved context and no return (R268, R269). -/
def State.raise (s : State) (op : Byte) (e : CmdError) : State :=
  { s with
    error := errorWord op e.detail e.code
    flags := { s.flags with done := true, err := true }
    cmdCount := s.cmdCount + 1
    running := none }

/-- The first failing check of a list, in order (R141, R258). Each check is the condition under which it fails and its error. -/
def firstError : List (Bool × CmdError) → Option CmdError
  | [] => none
  | (fails, e) :: cs => if fails then some e else firstError cs

/-- Running a command (R141, R142): at the first failing check the error completion, and nothing else; otherwise its effect
and then the completion. A read of an unwritten word on the way is the fault of R70. -/
def runCommand (op : Byte) (checks : List (Bool × CmdError)) (effect : State → Except Fault State) (s : State) :
    Host.Outcome State Fault Refusal :=
  match firstError checks with
  | some e => .next (s.raise op e)
  | none =>
    match effect s with
    | .ok t => .next (t.complete op)
    | .error f => .fault f

end Sys2Proof.Machine
end

