-- ==== Sys2Proof/Machine/Operands.lean ====
section
/-! DEFINITION. Where a command's operands come from (R66, R112, R141) and the range check of a buffer operand (R88, R142). -/

namespace Sys2Proof.Machine

/-- `A[i]` and `F0` inside a command: the latched values (R66, R141). `step` runs a command only when one is latched; where none
is, these are the values that an issue at this instant would latch (R140, log 10). -/
def State.operands (s : State) : Operands :=
  match s.running with
  | some l => l.ops
  | none => s.ops

/-- `InRange(base, length)` (R88, R142): `base + length ≤ DMEM_WORDS`, in unbounded integers. -/
def inRange (p : Params) (base length : Nat) : Bool := decide (base + length ≤ p.dmemWords)

/-- The check that a buffer lies inside DMEM, with the register that holds its base (R251). -/
def rangeCheck (p : Params) (r : BaseReg) (base : Word) (length : Nat) : Bool × CmdError :=
  (!inRange p base.toNat length, .addressRange r)

/-- The configuration gate (R145). -/
def configuredCheck (s : State) : Bool × CmdError := (!s.flags.configured, .notConfigured)

/-- The number of live spectrum bins, `N/2` by floor division (R29). -/
def State.bins (s : State) : Nat := s.n.toNat / 2

end Sys2Proof.Machine
end

