-- ==== Sys2Proof/Machine/Rom.lean ====
section
/-! DEFINITION. The twiddle ROMs TWCOS and TWSIN (R57): for each index the correctly rounded cosine and sine of the rounded
quotient `-PI64 / k`, computed from the alternating series in fixed point (log 11). -/

namespace Sys2Proof.Rom

/-- `PI64`, the binary64 value nearest to pi (R57). -/
def pi64 : F64 := 0x400921FB54442D18

/-- `ang_k` of R57: the binary64 quotient, rounded once. Never a NaN for `k ≥ 1`, so the draw index is never used. -/
def angle (k : Nat) : F64 := F64.div 0 (F64.neg pi64) (F64.ofNat k)

/-- The alternating sum `t - t' + t'' - ...` of `terms` terms in units of `2^-1074`, where `t` is the term `x^j / j!` and
`x2` is the square of the argument. -/
def altSeries (x2 : Nat) : Nat → Nat → Nat → Int
  | 0, _, _ => 0
  | terms + 1, j, t => t - altSeries x2 terms (j + 2) (t * x2 / 2 ^ 1074 / ((j + 1) * (j + 2)))

/-- How many terms are taken: for an argument of at most pi, the first omitted one is below `2^-500`. -/
def seriesTerms : Nat := 64

/-- The cosine of `x * 2^-1074`, in the same units. -/
def cosUnits (x : Nat) : Int := altSeries (x * x / 2 ^ 1074) seriesTerms 0 (2 ^ 1074)

/-- The sine of `x * 2^-1074`, in the same units. -/
def sinUnits (x : Nat) : Int := altSeries (x * x / 2 ^ 1074) seriesTerms 1 x

/-- The binary64 value nearest to `v * 2^-1074`. -/
def nearest (v : Int) : F64 := F64.round (decide (v < 0)) v.natAbs 0

/-- `TWCOS[k]` (R57): the cosine is even, so the angle's sign does not matter; the sentinel `+0.0` at 0. -/
def twcos (k : Nat) : F64 := if k = 0 then F64.zeroPos else nearest (cosUnits (F64.units (angle k)))

/-- `TWSIN[k]` (R57): the sine is odd and the angle negative; the sentinel `+0.0` at 0. -/
def twsin (k : Nat) : F64 := if k = 0 then F64.zeroPos else nearest (-(sinUnits (F64.units (angle k))))

end Sys2Proof.Rom
end

