-- ==== Sys2Proof/Machine/Fft.lean ====
section
/-! DEFINITION. The units that engine commands share: the bit-reversal permutation unit (R147), the butterfly stages (R150),
the bandwidth (R148) and the magnitude spectrum accumulator (R159). -/

namespace Sys2Proof.Machine

/-! ## Bit reversal (R147) -/

/-- The doubling stages of R147 on the entries `[0, limit)` of the table: while `limit < n`, each entry plus
`(n / 2) >> stage` is appended. -/
def bitrevStages : Nat → Nat → Nat → Nat → List Nat → List Nat
  | 0, _, _, _, table => table
  | fuel + 1, n, limit, stage, table =>
    if limit < n then
      bitrevStages fuel n (2 * limit) (stage + 1) (table ++ table.map (fun t => t + (n / 2) >>> stage))
    else table

/-- The entries `[0, n)` that BuildBitRev(n) writes (R147), from the trivial table `[0]`. -/
def bitrevTable (n : Nat) : List Nat := bitrevStages n n 1 0 [0]

/-- All N_MAX entries that BuildBitRev(n) writes (R147): zeros at `n` and above. -/
def bitrevEntries (n nmax : Nat) : List Word :=
  (bitrevTable n).map (BitVec.ofNat 64) ++ List.replicate (nmax - n) 0

/-! ## Bandwidth (R148) -/

/-- `((2.0 / to_f64(size)) * rate) / 2.0`, three operations in that order (R148). -/
def bandwidthOf (d size : Nat) (rate : F64) : F64 :=
  F64.div (d + 2) (F64.mul (d + 1) (F64.div d F64.two (F64.ofNat size)) rate) F64.two

/-! ## The butterfly stages (R150) -/

/-- The two arrays that STAGES updates in place, and the draw counter. -/
structure Work where
  re : List F64
  im : List F64
  draw : Nat
  deriving DecidableEq, Repr

/-- One butterfly on the indices `i` and `off` with the phase `(cr, ci)` (R150). When N is a power of two both indices are
below N (R151); a pair past the end of the arrays is left alone (log 12). -/
def butterfly (cr ci : F64) (h : Nat) (w : Work) (i : Nat) : Work :=
  let off := i + h
  match w.re[i]?, w.im[i]?, w.re[off]?, w.im[off]? with
  | some ri, some ii, some ro, some io =>
    let d := w.draw
    let tr := F64.sub (d + 2) (F64.mul d cr ro) (F64.mul (d + 1) ci io)
    let ti := F64.add (d + 5) (F64.mul (d + 3) cr io) (F64.mul (d + 4) ci ro)
    { re := (w.re.set off (F64.sub (d + 6) ri tr)).set i (F64.add (d + 8) ri tr)
      im := (w.im.set off (F64.sub (d + 7) ii ti)).set i (F64.add (d + 9) ii ti)
      draw := d + 10 }
  | _, _, _, _ => w

/-- The values of `i` in the inner loop of R150: `j`, `j + 2h`, ... below `n`. -/
def butterflyIndices (n h j : Nat) : List Nat :=
  (List.range ((n - j + 2 * h - 1) / (2 * h))).map (fun m => j + 2 * h * m)

/-- The phase factor of a stage and the arrays. -/
structure Phase where
  cr : F64
  ci : F64
  work : Work
  deriving DecidableEq, Repr

/-- One pass of the loop over `j` (R150): every butterfly with this phase, then the phase advanced by the stage's twiddle
factor `(sr, si)`, once per `j`. -/
def phaseStep (n h : Nat) (sr si : F64) (p : Phase) (j : Nat) : Phase :=
  let w := (butterflyIndices n h j).foldl (butterfly p.cr p.ci h) p.work
  let d := w.draw
  { cr := F64.sub (d + 2) (F64.mul d p.cr sr) (F64.mul (d + 1) p.ci si)
    ci := F64.add (d + 5) (F64.mul (d + 3) p.cr si) (F64.mul (d + 4) p.ci sr)
    work := { w with draw := d + 6 } }

/-- The stage with half-size `h` (R150): the phase starts at `(1.0, 0.0)`. -/
def stage (n h : Nat) (w : Work) : Work :=
  ((List.range h).foldl (phaseStep n h (Rom.twcos h) (Rom.twsin h))
    { cr := F64.one, ci := F64.zeroPos, work := w }).work

/-- The stages from half-size `h` on, while `h < n` (R150). -/
def stagesFrom : Nat → Nat → Nat → Work → Work
  | 0, _, _, w => w
  | fuel + 1, n, h, w => if h < n then stagesFrom fuel n (2 * h) (stage n h w) else w

/-- STAGES (R150). There are fewer stages than `n`. -/
def stages (n : Nat) (w : Work) : Work := stagesFrom n n 1 w

/-! ## The magnitude spectrum accumulator (R159) -/

/-- The running peak, its bin, and the draw counter. -/
structure PeakAcc where
  peak : F64
  band : Word
  draw : Nat
  deriving DecidableEq, Repr

/-- `bsi * sqrt((rv * rv) + (iv * iv))` (R159). -/
def magnitude (d : Nat) (bsi rv iv : F64) : F64 :=
  F64.mul (d + 4) bsi (F64.sqrt (d + 3) (F64.add (d + 2) (F64.mul d rv rv) (F64.mul (d + 1) iv iv)))

/-- The peak is raised only by a strictly greater magnitude (R159). -/
def PeakAcc.raise (p : PeakAcc) (i : Nat) (m : F64) : PeakAcc :=
  { peak := if F64.gt m p.peak then m else p.peak
    band := if F64.gt m p.peak then BitVec.ofNat 64 i else p.band
    draw := p.draw + 5 }

/-- The loop of CalcSpectrum (R159) from bin `i` on: the magnitudes, and the peak after them. -/
def spectrumFrom (bsi : F64) : Nat → List F64 → List F64 → PeakAcc → List F64 × PeakAcc
  | i, rv :: re, iv :: im, p =>
    let m := magnitude p.draw bsi rv iv
    let r := spectrumFrom bsi (i + 1) re im (p.raise i m)
    (m :: r.1, r.2)
  | _, _, _, p => ([], p)

/-- CalcSpectrum() (R159) on the first `N/2` values of the real and imaginary part: writes SPECTRUM[0..N/2), PEAK and
PEAK_BAND. -/
def State.calcSpectrum (s : State) (re im : List F64) : State :=
  let bsi := F64.div s.draws F64.two (F64.ofNat s.n.toNat)
  let r := spectrumFrom bsi 0 (re.take s.bins) (im.take s.bins)
    { peak := s.peak, band := s.peakBand, draw := s.draws + 1 }
  { s with
    spectrum := s.spectrum.writeRange 0 r.1
    peak := r.2.peak
    peakBand := r.2.band
    draws := r.2.draw }

end Sys2Proof.Machine
end

