-- ==== Sys2Proof/Machine/Engine.lean ====
section
/-! DEFINITION. The commands of the transform context and the FFT engine (40_engine.md): NOP, CFG, FWD, INV, SPEC, RSTPK, BANDF
and METRIC. Each has its checks in the order of its rule and an effect; `runCommand` does the rest. -/

namespace Sys2Proof.Machine

/-! ## NOP (R139) -/

/-- NOP (R139): no check beyond decode, no effect but completion. -/
def execNop (s : State) : Host.Outcome State Fault Refusal := runCommand 0x00 [] .ok s

/-! ## CFG (R146) -/

/-- CFG's checks 2, 3 and 4 (R146). -/
def cfgChecks (s : State) : List (Bool × CmdError) :=
  let o := s.operands
  [ (decide (o.a0 = 0 ∨ o.a0 &&& (o.a0 - 1) ≠ 0), .sizeNotPowerOfTwo),
    (decide (s.params.nmax < o.a0.toNat), .sizeTooLarge),
    (!(F64.gt o.f0 F64.zeroPos && !F64.eq o.f0 (F64.inf false)), .sampleRate) ]

/-- CFG's pseudocode (R146). -/
def cfgEffect (s : State) : Except Fault State :=
  let o := s.operands
  let size := o.a0.toNat
  let nmax := s.params.nmax
  .ok { s with
    n := o.a0
    log2n := BitVec.ofNat 64 size.log2
    sampleRate := o.f0
    bandwidth := bandwidthOf s.draws size o.f0
    bitrev := s.bitrev.writeRange 0 (bitrevEntries size nmax)
    real := s.real.writeRange 0 (List.replicate nmax F64.zeroPos)
    imag := s.imag.writeRange 0 (List.replicate nmax F64.zeroPos)
    spectrum := s.spectrum.writeRange 0 (List.replicate (nmax / 2) F64.zeroPos)
    peak := F64.zeroPos
    peakBand := 0
    flags := { s.flags with configured := true }
    draws := s.draws + 3 }

/-- CFG (R146): construct the transform context. -/
def execCfg (s : State) : Host.Outcome State Fault Refusal := runCommand 0x01 (cfgChecks s) cfgEffect s

/-! ## FWD (R152) -/

/-- FWD's checks after decode (R152). -/
def fwdChecks (s : State) : List (Bool × CmdError) :=
  let o := s.operands
  [ configuredCheck s,
    (decide (o.a1 ≠ s.n), .forwardLength),
    rangeCheck s.params .a0 o.a0 o.a1.toNat ]

/-- FWD's pseudocode (R152). -/
def fwdEffect (s : State) : Except Fault State := do
  let n := s.n.toNat
  let x ← readRange .dmem s.dmem s.operands.a0.toNat n
  let table ← readRange .bitrev s.bitrev 0 n
  let re ← gather x 0 table
  let w := stages n { re := re, im := List.replicate n F64.zeroPos, draw := s.draws }
  .ok (State.calcSpectrum
    { s with
      real := s.real.writeRange 0 w.re
      imag := s.imag.writeRange 0 w.im
      draws := w.draw } w.re w.im)

/-- FWD (R152): forward transform of a DMEM buffer. -/
def execFwd (s : State) : Host.Outcome State Fault Refusal := runCommand 0x02 (fwdChecks s) fwdEffect s

/-! ## INV (R155) -/

/-- INV's checks after decode (R155), with the flags XR and XI of the word. -/
def invChecks (xr xi : Bool) (s : State) : List (Bool × CmdError) :=
  let o := s.operands
  let n := s.n.toNat
  [ configuredCheck s,
    (xr && decide (o.a1 ≠ s.n), .inverseRealLength),
    (xi && decide (o.a3 ≠ s.n), .inverseImagLength),
    (xr && !inRange s.params o.a0.toNat n, .addressRange .a0),
    (xi && !inRange s.params o.a2.toNat n, .addressRange .a2),
    rangeCheck s.params .a4 o.a4 n ]

/-- Step 4 of R155: `SCR_RE[i] / to_f64(N)` for each `i`. -/
def scaleFrom (n : Nat) : Nat → List F64 → List F64
  | _, [] => []
  | d, x :: xs => F64.div d x (F64.ofNat n) :: scaleFrom n (d + 1) xs

/-- Step 1 of R155: the imaginary input, in DMEM or in IMAG, replaced by its negation `imv`. -/
def State.writeImagInput (s : State) (xi : Bool) (imv : List F64) : State :=
  if xi then { s with dmem := s.dmem.writeRange s.operands.a2.toNat imv }
  else { s with imag := s.imag.writeRange 0 imv }

/-- INV's pseudocode (R155), with its four steps in order: the real input is read after the negation. -/
def invEffect (xr xi : Bool) (s : State) : Except Fault State := do
  let o := s.operands
  let n := s.n.toNat
  let imIn ← if xi then readRange .dmem s.dmem o.a2.toNat n else readRange .imag s.imag 0 n
  let imv := imIn.map F64.neg
  let s1 := s.writeImagInput xi imv
  let rev ← if xr then readRange .dmem s1.dmem o.a0.toNat n else readRange .real s1.real 0 n
  let table ← readRange .bitrev s1.bitrev 0 n
  let scrRe ← gather rev 0 table
  let scrIm ← gather imv 0 table
  let w := stages n { re := scrRe, im := scrIm, draw := s.draws }
  .ok { s1 with
    dmem := s1.dmem.writeRange o.a4.toNat (scaleFrom n w.draw w.re)
    draws := w.draw + n }

/-- INV with the engine's own real and imaginary parts (R155). -/
def execInv (s : State) : Host.Outcome State Fault Refusal :=
  runCommand 0x03 (invChecks false false s) (invEffect false false) s

/-- INV.XR: the real input from DMEM (R155). -/
def execInvXR (s : State) : Host.Outcome State Fault Refusal :=
  runCommand 0x03 (invChecks true false s) (invEffect true false) s

/-- INV.XI: the imaginary input from DMEM (R155). -/
def execInvXI (s : State) : Host.Outcome State Fault Refusal :=
  runCommand 0x03 (invChecks false true s) (invEffect false true) s

/-- INV.XRXI: both inputs from DMEM (R155). -/
def execInvXRXI (s : State) : Host.Outcome State Fault Refusal :=
  runCommand 0x03 (invChecks true true s) (invEffect true true) s

/-! ## SPEC (R160) and RSTPK (R165) -/

/-- SPEC's pseudocode (R160): CalcSpectrum on the banks as they stand. -/
def specEffect (s : State) : Except Fault State := do
  let re ← readRange .real s.real 0 s.bins
  let im ← readRange .imag s.imag 0 s.bins
  .ok (s.calcSpectrum re im)

/-- SPEC (R160): recompute the spectrum from the banks. -/
def execSpec (s : State) : Host.Outcome State Fault Refusal := runCommand 0x04 [configuredCheck s] specEffect s

/-- RSTPK (R165): reset the running peak and its bin. It needs no configuration. -/
def execRstpk (s : State) : Host.Outcome State Fault Refusal :=
  runCommand 0x05 [] (fun s => .ok { s with peak := F64.zeroPos, peakBand := 0 }) s

/-! ## BANDF (R168) and METRIC (R172) -/

/-- BANDF's checks after decode (R168). -/
def bandfChecks (s : State) : List (Bool × CmdError) :=
  [ configuredCheck s, (decide (s.bins ≤ s.operands.a0.toNat), .bandIndex) ]

/-- `(BANDWIDTH * to_f64(i)) + (BANDWIDTH / 2.0)` (R168). -/
def bandFrequency (d : Nat) (bandwidth : F64) (i : Nat) : F64 :=
  F64.add (d + 2) (F64.mul d bandwidth (F64.ofNat i)) (F64.div (d + 1) bandwidth F64.two)

/-- BANDF (R168): centre frequency of a bin. -/
def execBandf (s : State) : Host.Outcome State Fault Refusal :=
  runCommand 0x06 (bandfChecks s)
    (fun s => .ok { s with
      result0 := bandFrequency s.draws s.bandwidth s.operands.a0.toNat
      draws := s.draws + 3 }) s

/-- METRIC's checks after decode (R172). -/
def metricChecks (s : State) : List (Bool × CmdError) :=
  [ configuredCheck s, (decide (s.bins ≤ s.operands.a0.toNat), .metricOffset) ]

/-- `t + Σ x * x` over a list, in order, one rounding per operation (R172, R220). It takes two draws per element. -/
def sumSquaresFrom : Nat → F64 → List F64 → F64
  | _, t, [] => t
  | d, t, x :: xs => sumSquaresFrom (d + 2) (F64.add (d + 1) t (F64.mul d x x)) xs

/-- METRIC's pseudocode (R172). -/
def metricEffect (s : State) : Except Fault State := do
  let first := s.operands.a0.toNat
  let xs ← readRange .spectrum s.spectrum first (s.bins - first)
  let sum := sumSquaresFrom s.draws F64.zeroPos xs
  let d := s.draws + 2 * xs.length
  .ok { s with
    result1 := sum
    result0 := F64.mul (d + 1) F64.ten (F64.log10 (F64.mul d sum s.params.calK))
    draws := d + 2 }

/-- METRIC (R172): the sum of squares of the spectrum from an offset, and its decibel value. -/
def execMetric (s : State) : Host.Outcome State Fault Refusal := runCommand 0x07 (metricChecks s) metricEffect s

end Sys2Proof.Machine
end

