-- ==== Sys2Proof/Machine/Buffers.lean ====
section
/-! DEFINITION. The audio buffer utilities (41_buffer_utils.md): INVERT, INTLV, DEINTLV, MIX, RMS and PEAKDET. None needs a
configured engine (R145); each reads all its inputs before it writes (R143). -/

namespace Sys2Proof.Machine

/-! ## INVERT (R200) -/

/-- INVERT's check after decode (R200). -/
def invertChecks (s : State) : List (Bool × CmdError) :=
  [ rangeCheck s.params .a0 s.operands.a0 s.operands.a1.toNat ]

/-- INVERT's pseudocode (R200). -/
def invertEffect (s : State) : Except Fault State := do
  let base := s.operands.a0.toNat
  let x ← readRange .dmem s.dmem base s.operands.a1.toNat
  .ok { s with dmem := s.dmem.writeRange base (x.map F64.neg) }

/-- INVERT (R200): negate every element of a buffer in place. -/
def execInvert (s : State) : Host.Outcome State Fault Refusal := runCommand 0x10 (invertChecks s) invertEffect s

/-! ## INTLV (R205) -/

/-- INTLV's checks after decode (R205). -/
def intlvChecks (s : State) : List (Bool × CmdError) :=
  let o := s.operands
  [ (decide (o.a1 ≠ o.a3), .pairLengths),
    rangeCheck s.params .a0 o.a0 o.a1.toNat,
    rangeCheck s.params .a2 o.a2 o.a1.toNat,
    rangeCheck s.params .a4 o.a4 (2 * o.a1.toNat) ]

/-- `[left0, right0, left1, right1, ...]` (R205). -/
def interleave : List F64 → List F64 → List F64
  | l :: ls, r :: rs => l :: r :: interleave ls rs
  | _, _ => []

/-- INTLV's pseudocode (R205). -/
def intlvEffect (s : State) : Except Fault State := do
  let o := s.operands
  let lv ← readRange .dmem s.dmem o.a0.toNat o.a1.toNat
  let rv ← readRange .dmem s.dmem o.a2.toNat o.a1.toNat
  .ok { s with dmem := s.dmem.writeRange o.a4.toNat (interleave lv rv) }

/-- INTLV (R205): interleave two buffers. -/
def execIntlv (s : State) : Host.Outcome State Fault Refusal := runCommand 0x11 (intlvChecks s) intlvEffect s

/-! ## DEINTLV (R210) -/

/-- DEINTLV's checks after decode (R210). -/
def deintlvChecks (s : State) : List (Bool × CmdError) :=
  let o := s.operands
  [ (decide (o.a1.toNat % 2 = 1), .oddLength),
    rangeCheck s.params .a0 o.a0 o.a1.toNat,
    rangeCheck s.params .a4 o.a4 (o.a1.toNat / 2) ]

/-- The even-indexed samples (R210, LEFT). -/
def leftSamples : List F64 → List F64
  | a :: _ :: s => a :: leftSamples s
  | _ => []

/-- The odd-indexed samples (R210, RIGHT). -/
def rightSamples : List F64 → List F64
  | _ :: b :: s => b :: rightSamples s
  | _ => []

/-- `(a + b) / 2.0` of each pair (R210, MIX), two draws per pair. -/
def meanSamples : Nat → List F64 → List F64
  | d, a :: b :: s => F64.div (d + 1) (F64.add d a b) F64.two :: meanSamples (d + 2) s
  | _, _ => []

/-- DEINTLV's pseudocode (R210) for the channel whose samples `pick` takes from the source, given the draw counter; `used` is how
many draws that takes per pair. -/
def deintlvEffect (used : Nat) (pick : Nat → List F64 → List F64) (s : State) : Except Fault State := do
  let o := s.operands
  let x ← readRange .dmem s.dmem o.a0.toNat o.a1.toNat
  .ok { s with
    dmem := s.dmem.writeRange o.a4.toNat (pick s.draws x)
    draws := s.draws + used * (o.a1.toNat / 2) }

/-- DEINTLV.LEFT (R210). -/
def execDeintlvLeft (s : State) : Host.Outcome State Fault Refusal :=
  runCommand 0x12 (deintlvChecks s) (deintlvEffect 0 (fun _ => leftSamples)) s

/-- DEINTLV.RIGHT (R210). -/
def execDeintlvRight (s : State) : Host.Outcome State Fault Refusal :=
  runCommand 0x12 (deintlvChecks s) (deintlvEffect 0 (fun _ => rightSamples)) s

/-- DEINTLV.MIX (R210). -/
def execDeintlvMix (s : State) : Host.Outcome State Fault Refusal :=
  runCommand 0x12 (deintlvChecks s) (deintlvEffect 2 meanSamples) s

/-! ## MIX (R215) -/

/-- MIX's checks after decode (R215). -/
def mixChecks (s : State) : List (Bool × CmdError) :=
  let o := s.operands
  [ (decide (o.a1 ≠ o.a3), .pairLengths),
    (F64.eq o.f0 F64.zeroPos, .zeroVolume),
    rangeCheck s.params .a0 o.a0 o.a1.toNat,
    rangeCheck s.params .a2 o.a2 o.a1.toNat,
    rangeCheck s.params .a4 o.a4 o.a1.toNat ]

/-- `av[k] + (b / vc)` with `b = neg(bv[k])` when `negate` (R215), two draws per element. -/
def mixSamples (negate : Bool) (vc : F64) : Nat → List F64 → List F64 → List F64
  | d, a :: as, b :: bs =>
    F64.add (d + 1) a (F64.div d (if negate then F64.neg b else b) vc) :: mixSamples negate vc (d + 2) as bs
  | _, _, _ => []

/-- MIX's pseudocode (R215), with the flag NEG of the word. -/
def mixEffect (negate : Bool) (s : State) : Except Fault State := do
  let o := s.operands
  let av ← readRange .dmem s.dmem o.a0.toNat o.a1.toNat
  let bv ← readRange .dmem s.dmem o.a2.toNat o.a1.toNat
  .ok { s with
    dmem := s.dmem.writeRange o.a4.toNat (mixSamples negate o.f0 s.draws av bv)
    draws := s.draws + 2 * o.a1.toNat }

/-- MIX (R215). -/
def execMix (s : State) : Host.Outcome State Fault Refusal := runCommand 0x13 (mixChecks s) (mixEffect false) s

/-- MIX.NEG (R215): the second buffer negated. -/
def execMixNeg (s : State) : Host.Outcome State Fault Refusal := runCommand 0x13 (mixChecks s) (mixEffect true) s

/-! ## RMS (R220) and PEAKDET (R225) -/

/-- RMS's checks after decode (R220): the empty buffer first. -/
def rmsChecks (s : State) : List (Bool × CmdError) :=
  [ (decide (s.operands.a1 = 0), .emptyBuffer),
    rangeCheck s.params .a0 s.operands.a0 s.operands.a1.toNat ]

/-- `sqrt(t / to_f64(L))` with `t` the sum of squares (R220). -/
def rootMeanSquare (d : Nat) (xs : List F64) : F64 :=
  let t := sumSquaresFrom d F64.zeroPos xs
  let d' := d + 2 * xs.length
  F64.sqrt (d' + 1) (F64.div d' t (F64.ofNat xs.length))

/-- RMS (R220): root mean square of a buffer. -/
def execRms (s : State) : Host.Outcome State Fault Refusal :=
  runCommand 0x14 (rmsChecks s)
    (fun s => do
      let xs ← readRange .dmem s.dmem s.operands.a0.toNat s.operands.a1.toNat
      .ok { s with
        result0 := rootMeanSquare s.draws xs
        draws := s.draws + 2 * xs.length + 2 }) s

/-- PEAKDET's check after decode (R225). -/
def peakdetChecks (s : State) : List (Bool × CmdError) :=
  [ rangeCheck s.params .a0 s.operands.a0 s.operands.a1.toNat ]

/-- The greatest magnitude of a list, not below `p`: strict, quiet comparisons in order (R225). -/
def peakFrom : F64 → List F64 → F64
  | p, [] => p
  | p, x :: xs => peakFrom (if F64.gt (F64.abs x) p then F64.abs x else p) xs

/-- PEAKDET (R225): peak absolute value of a buffer. -/
def execPeakdet (s : State) : Host.Outcome State Fault Refusal :=
  runCommand 0x15 (peakdetChecks s)
    (fun s => do
      let xs ← readRange .dmem s.dmem s.operands.a0.toNat s.operands.a1.toNat
      .ok { s with result0 := peakFrom F64.zeroPos xs }) s

end Sys2Proof.Machine
end

