-- ==== Sys2Proof/Machine/Dispatch.lean ====
section
/-! DEFINITION. The dispatch of R118's last line: one arm per command of R119. -/

namespace Sys2Proof.Machine

-- The meaning of each command: checks, effect and completion (R141).
def exec (i : Instr) (s : State) : Host.Outcome State Fault Refusal :=
  match i with
  | .nop => Sys2Proof.Machine.execNop s
  | .cfg => Sys2Proof.Machine.execCfg s
  | .fwd => Sys2Proof.Machine.execFwd s
  | .inv => Sys2Proof.Machine.execInv s
  | .invXR => Sys2Proof.Machine.execInvXR s
  | .invXI => Sys2Proof.Machine.execInvXI s
  | .invXRXI => Sys2Proof.Machine.execInvXRXI s
  | .spec => Sys2Proof.Machine.execSpec s
  | .rstpk => Sys2Proof.Machine.execRstpk s
  | .bandf => Sys2Proof.Machine.execBandf s
  | .metric => Sys2Proof.Machine.execMetric s
  | .invert => Sys2Proof.Machine.execInvert s
  | .intlv => Sys2Proof.Machine.execIntlv s
  | .deintlvLeft => Sys2Proof.Machine.execDeintlvLeft s
  | .deintlvRight => Sys2Proof.Machine.execDeintlvRight s
  | .deintlvMix => Sys2Proof.Machine.execDeintlvMix s
  | .mix => Sys2Proof.Machine.execMix s
  | .mixNeg => Sys2Proof.Machine.execMixNeg s
  | .rms => Sys2Proof.Machine.execRms s
  | .peakdet => Sys2Proof.Machine.execPeakdet s

end Sys2Proof.Machine
end

