-- ==== Sys2Proof/Machine/Flags.lean ====
section
/-! DEFINITION. STATUS, CTRL and the interrupt output (R46, R48, R265). -/

namespace Sys2Proof.Machine

/-- STATUS.BUSY (R48, R66): a command is latched. -/
def State.busy (s : State) : Bool := s.running.isSome

/-- The interrupt output, a level (R265): `CTRL.IRQ_EN AND (STATUS.DONE OR STATUS.ERR OR STATUS.OVERRUN)`. -/
def State.irq (s : State) : Bool := s.irqEn && (s.flags.done || s.flags.err || s.flags.overrun)

/-- STATUS as the host reads it (R48): BUSY, DONE, ERR, OVERRUN, CONFIGURED and IRQ in bits 0 to 5; the rest read 0. -/
def State.statusWord (s : State) : Word :=
  (0 : BitVec 58) ++ BitVec.ofBool s.irq ++ BitVec.ofBool s.flags.configured ++ BitVec.ofBool s.flags.overrun ++
    BitVec.ofBool s.flags.err ++ BitVec.ofBool s.flags.done ++ BitVec.ofBool s.busy

/-- CTRL as the host reads it (R46): IRQ_EN in bit 1; SOFT_RESET and the reserved bits read 0. -/
def State.ctrlWord (s : State) : Word := (0 : BitVec 62) ++ BitVec.ofBool s.irqEn ++ (0 : BitVec 1)

/-- A host write to STATUS (R48): each of DONE, ERR and OVERRUN that is written as 1 is cleared, nothing else changes. -/
def Flags.clearWritten (f : Flags) (v : Word) : Flags :=
  { f with
    done := f.done && !v.getLsbD 1
    err := f.err && !v.getLsbD 2
    overrun := f.overrun && !v.getLsbD 3 }

end Sys2Proof.Machine
end

