-- ==== Sys2Proof/Machine/HostPort.lean ====
section
/-! DEFINITION. The host port: the register page and the windows (R81, R82), bus errors (R83 to R85), register writes with side
effects (R46, R48, R60, R90), issue and overrun (R140, R262), soft reset (R292) and power-on reset (R290). -/

namespace Sys2Proof.Machine

/-! ## The register page (R82) -/

/-- The registers of the register page. -/
inductive Reg where
  | id | caps | ctrl | status | error | cmd | cmdCount | n | log2n | sampleRate | bandwidth | peak | peakBand | calk
  | result0 | result1 | a0 | a1 | a2 | a3 | a4 | f0
  deriving DecidableEq, Repr

/-- The registers in the order of their offsets, 8 bytes apart from 0x000 (R82). -/
def Reg.all : List Reg :=
  [.id, .caps, .ctrl, .status, .error, .cmd, .cmdCount, .n, .log2n, .sampleRate, .bandwidth, .peak, .peakBand, .calk,
    .result0, .result1, .a0, .a1, .a2, .a3, .a4, .f0]

/-- The byte offset of a register (R82). -/
def Reg.offset : Reg → Nat
  | .id => 0x000
  | .caps => 0x008
  | .ctrl => 0x010
  | .status => 0x018
  | .error => 0x020
  | .cmd => 0x028
  | .cmdCount => 0x030
  | .n => 0x038
  | .log2n => 0x040
  | .sampleRate => 0x048
  | .bandwidth => 0x050
  | .peak => 0x058
  | .peakBand => 0x060
  | .calk => 0x068
  | .result0 => 0x070
  | .result1 => 0x078
  | .a0 => 0x080
  | .a1 => 0x088
  | .a2 => 0x090
  | .a3 => 0x098
  | .a4 => 0x0A0
  | .f0 => 0x0A8

/-- ID's constant value (R44). -/
def idWord : Word := 0x4646543200010007

/-- CAPS (R45): `{DMEM_WORDS[31:0], 24'b0, LOG2_NMAX[7:0]}`. -/
def capsWord (p : Params) : Word := BitVec.ofNat 32 p.dmemWords ++ (0 : BitVec 24) ++ BitVec.ofNat 8 p.log2Nmax

/-- The value that a host read of a register returns (R41 to R60). No read has a side effect (R90). -/
def State.readReg (s : State) : Reg → Word
  | .id => idWord
  | .caps => capsWord s.params
  | .ctrl => s.ctrlWord
  | .status => s.statusWord
  | .error => s.error
  | .cmd => s.cmd
  | .cmdCount => s.cmdCount
  | .n => s.n
  | .log2n => s.log2n
  | .sampleRate => s.sampleRate
  | .bandwidth => s.bandwidth
  | .peak => s.peak
  | .peakBand => s.peakBand
  | .calk => s.params.calK
  | .result0 => s.result0
  | .result1 => s.result1
  | .a0 => s.ops.a0
  | .a1 => s.ops.a1
  | .a2 => s.ops.a2
  | .a3 => s.ops.a3
  | .a4 => s.ops.a4
  | .f0 => s.ops.f0

/-! ## Issue and overrun -/

/-- Issue (R140): CMD takes the word, the engine latches it with the current operand registers, and BUSY rises. -/
def State.issue (s : State) (w : Word) : State := { s with cmd := w, running := some { word := w, ops := s.ops } }

/-- A host write to CMD (R60): issued while BUSY = 0; dropped while BUSY = 1, which sets OVERRUN and changes nothing else
(R262). -/
def State.writeCmd (s : State) (w : Word) : State :=
  if s.busy then { s with flags := { s.flags with overrun := true } } else s.issue w

/-! ## Reset -/

/-- The locations that the rule of a command could write become unspecified (R292 item 1), given the latched operands and N
(R69). Registers are not among them. The forgotten range does not depend on whether the command's checks would pass
(log 9). -/
def State.forgetOutputs (s : State) (o : Operands) (i : Instr) : State :=
  let n := s.n.toNat
  let dmemOut (base length : Nat) : State := { s with dmem := s.dmem.forget base (base + length) }
  let invOut (xi : Bool) : State :=
    if xi then
      { s with dmem := (s.dmem.forget o.a2.toNat (o.a2.toNat + n)).forget o.a4.toNat (o.a4.toNat + n) }
    else
      { s with imag := s.imag.forget 0 n, dmem := s.dmem.forget o.a4.toNat (o.a4.toNat + n) }
  match i with
  | .nop => s
  | .cfg =>
    let nmax := s.params.nmax
    { s with
      real := s.real.forget 0 nmax
      imag := s.imag.forget 0 nmax
      spectrum := s.spectrum.forget 0 (nmax / 2)
      bitrev := s.bitrev.forget 0 nmax }
  | .fwd => { s with real := s.real.forget 0 n, imag := s.imag.forget 0 n, spectrum := s.spectrum.forget 0 s.bins }
  | .inv => invOut false
  | .invXR => invOut false
  | .invXI => invOut true
  | .invXRXI => invOut true
  | .spec => { s with spectrum := s.spectrum.forget 0 s.bins }
  | .rstpk => s
  | .bandf => s
  | .metric => s
  | .invert => dmemOut o.a0.toNat o.a1.toNat
  | .intlv => dmemOut o.a4.toNat (2 * o.a1.toNat)
  | .deintlvLeft => dmemOut o.a4.toNat (o.a1.toNat / 2)
  | .deintlvRight => dmemOut o.a4.toNat (o.a1.toNat / 2)
  | .deintlvMix => dmemOut o.a4.toNat (o.a1.toNat / 2)
  | .mix => dmemOut o.a4.toNat o.a1.toNat
  | .mixNeg => dmemOut o.a4.toNat o.a1.toNat
  | .rms => s
  | .peakdet => s

/-- A running command is aborted (R292 item 1): it does not complete; an illegal word could write nothing. -/
def State.abort (s : State) : State :=
  match s.running with
  | none => s
  | some l =>
    match decodeWord l.word with
    | .error _ => s
    | .ok i => s.forgetOutputs l.ops i

/-- Soft reset (R292): the running command is aborted, every register takes its power-on value, and the memories keep their
contents but for what the aborted command could write. What is outside the block goes on. -/
def State.softReset (s : State) : State :=
  let a := s.abort
  { State.powerOn s.params with
    real := a.real
    imag := a.imag
    spectrum := a.spectrum
    bitrev := a.bitrev
    dmem := a.dmem
    held := s.held
    inputs := s.inputs
    reads := s.reads
    draws := s.draws }

/-- Power-on reset (R290) of a running block: everything as after `State.powerOn`, a held access ended with no effect (R86).
The block's parameters and what is outside it stay (log 14). -/
def State.powerOnReset (s : State) : State :=
  { State.powerOn s.params with inputs := s.inputs, reads := s.reads, draws := s.draws }

/-! ## Register writes -/

/-- A host write to CTRL (R46): bit 0 performs the soft reset, whatever bit 1 says; otherwise bit 1 is IRQ_EN and the rest is
ignored. -/
def State.writeCtrl (s : State) (v : Word) : State :=
  if v.getLsbD 0 then s.softReset else { s with irqEn := v.getLsbD 1 }

/-- A host write to a register (R82), or the bus error of a read-only one (R85). Operand registers may be written while a command
runs; it keeps its latched copies (R66). -/
def State.writeReg (s : State) (r : Reg) (v : Word) : Except Fault State :=
  match r with
  | .ctrl => .ok (s.writeCtrl v)
  | .status => .ok { s with flags := s.flags.clearWritten v }
  | .cmd => .ok (s.writeCmd v)
  | .a0 => .ok { s with ops := { s.ops with a0 := v } }
  | .a1 => .ok { s with ops := { s.ops with a1 := v } }
  | .a2 => .ok { s with ops := { s.ops with a2 := v } }
  | .a3 => .ok { s with ops := { s.ops with a3 := v } }
  | .a4 => .ok { s with ops := { s.ops with a4 := v } }
  | .f0 => .ok { s with ops := { s.ops with f0 := v } }
  | .id | .caps | .error | .cmdCount | .n | .log2n | .sampleRate | .bandwidth | .peak | .peakBand | .calk | .result0
  | .result1 => .error (.busError .readOnly)

/-! ## The windows (R81) -/

/-- The windows of the host address map. -/
inductive Window where
  | real | imag | spectrum | bitrev | twcos | twsin | dmem
  deriving DecidableEq, Repr

/-- The windows of R81. -/
def Window.all : List Window := [.real, .imag, .spectrum, .bitrev, .twcos, .twsin, .dmem]

/-- The byte address of entry 0 (R81). -/
def Window.base : Window → Nat
  | .real => 0x00100000
  | .imag => 0x00200000
  | .spectrum => 0x00300000
  | .bitrev => 0x00400000
  | .twcos => 0x00500000
  | .twsin => 0x00600000
  | .dmem => 0x01000000

/-- The number of entries (R81). -/
def Window.size (p : Params) : Window → Nat
  | .real | .imag | .bitrev | .twcos | .twsin => p.nmax
  | .spectrum => p.nmax / 2
  | .dmem => p.dmemWords

/-- What is at an address of the host address space (R81). -/
inductive Location where
  | reg (r : Reg)
  | entry (w : Window) (i : Nat)
  deriving DecidableEq, Repr

/-- Whether the byte address `a` lies in a window's entries. -/
def Window.holds (p : Params) (a : Nat) (w : Window) : Bool := decide (w.base ≤ a ∧ a < w.base + 8 * w.size p)

/-- The location at an aligned byte address (R81, R82); `none` when the address is unmapped, reserved, or past a window's
entries. -/
def locate (p : Params) (a : Nat) : Option Location :=
  match Reg.all.find? (fun r => r.offset == a) with
  | some r => some (.reg r)
  | none =>
    match Window.all.find? (Window.holds p a) with
    | some w => some (.entry w ((a - w.base) / 8))
    | none => none

/-- The word of a window's entry (R81): the array's current value (R97), or the fault of R70. -/
def State.readEntry (s : State) (w : Window) (i : Nat) : Except Fault Word :=
  match w with
  | .real => readWord .real s.real i
  | .imag => readWord .imag s.imag i
  | .spectrum => readWord .spectrum s.spectrum i
  | .bitrev => readWord .bitrev s.bitrev i
  | .twcos => .ok (Rom.twcos i)
  | .twsin => .ok (Rom.twsin i)
  | .dmem => readWord .dmem s.dmem i

/-- A host write to a window's entry: REAL, IMAG and DMEM take it, the others are read-only (R81, R85). -/
def State.writeEntry (s : State) (w : Window) (i : Nat) (v : Word) : Except Fault State :=
  match w with
  | .real => .ok { s with real := s.real.write i v }
  | .imag => .ok { s with imag := s.imag.write i v }
  | .dmem => .ok { s with dmem := s.dmem.write i v }
  | .spectrum | .bitrev | .twcos | .twsin => .error (.busError .readOnly)

/-! ## Accesses -/

/-- The address of an access. -/
def HostAccess.addr : HostAccess → BitVec 32
  | .read a _ => a
  | .write a _ _ => a

/-- The width of an access in bytes. -/
def HostAccess.width : HostAccess → Nat
  | .read _ w => w
  | .write _ w _ => w

/-- The location an access names, or its bus error (R83, R84): width, then alignment, then the map. -/
def HostAccess.location (p : Params) (a : HostAccess) : Except BusError Location :=
  if a.width ≠ 8 then .error .width
  else if a.addr.toNat % 8 ≠ 0 then .error .alignment
  else
    match locate p a.addr.toNat with
    | some l => .ok l
    | none => .error .unmapped

/-- Whether an access is to a window, so that it is held while BUSY = 1 (R86, log 8). -/
def HostAccess.toWindow (p : Params) (a : HostAccess) : Bool :=
  match a.location p with
  | .ok (.entry _ _) => true
  | _ => false

/-- A host read of a location: the data, or the fault of R70. -/
def State.readLocation (s : State) : Location → Except Fault Word
  | .reg r => .ok (s.readReg r)
  | .entry w i => s.readEntry w i

/-- A host write of a location. -/
def State.writeLocation (s : State) (l : Location) (v : Word) : Except Fault State :=
  match l with
  | .reg r => s.writeReg r v
  | .entry w i => s.writeEntry w i v

/-- A host access takes effect: a read's data joins the host's observation, a write changes its location; a bus error is a
fault of the host program (R84). -/
def performAccess (a : HostAccess) (s : State) : Host.Outcome State Fault Refusal :=
  match a.location s.params with
  | .error e => .fault (.busError e)
  | .ok l =>
    match a with
    | .read _ _ =>
      match s.readLocation l with
      | .ok v => .next { s with reads := v :: s.reads }
      | .error f => .fault f
    | .write _ _ v =>
      match s.writeLocation l v with
      | .ok t => .next t
      | .error f => .fault f

/-- The port accepts an access: a window access made while BUSY = 1 is held, any other takes effect (R86). -/
def acceptAccess (a : HostAccess) (s : State) : Host.Outcome State Fault Refusal :=
  if s.busy && a.toWindow s.params then .next { s with held := some a } else performAccess a s

/-- The byte that lane `a % 8` carries when the host reads the word at byte address `a` (R87), where that word has a value. -/
def State.byteAt (s : State) (a : Nat) : Option Byte :=
  match locate s.params (a - a % 8) with
  | none => none
  | some l =>
    match s.readLocation l with
    | .ok v => some (laneOf v (a % 8))
    | .error _ => none

end Sys2Proof.Machine
end

