-- ==== Sys2Proof/Machine/Turn.lean ====
section
/-! DEFINITION. The engine's turn (R141): decode, then the command or the error completion of an illegal word; and how a
command word comes to be the next thing a step runs. -/

namespace Sys2Proof.Machine

/-- The engine executes the latched command as one atomic step (R141). Decode precedes every other check (R118, R258); an illegal
word completes with ILLEGAL_COMMAND and no other effect (R120, R256). -/
def engineTurn (l : Latch) (s : State) : Host.Outcome State Fault Refusal :=
  match decodeWord l.word with
  | .ok i => exec i s
  | .error e => .next (s.raise (opcodeByte l.word) (.illegal e))

/-- The inputs left when the engine takes its turn: an engine turn at the front is used up. -/
def afterEngineTurn : List Input → List Input
  | .engine :: rest => rest
  | rest => rest

/-- The word issued (R140), with the engine's turn as the very next event. -/
def State.issueNext (s : State) (w : Word) : State := { s.issue w with inputs := .engine :: s.inputs }

end Sys2Proof.Machine
end

