-- ==== Sys2Proof/Machine/Step.lean ====
section
/-! DEFINITION. One step of the block: a power-on reset, a host access or the engine's turn, as the inputs order them. -/

namespace Sys2Proof.Machine

/-- One step. Power-on reset may fall at any time, also during a hold (R86, R290). A held access takes effect as soon as no
command runs; while it waits the port accepts nothing behind it, so the engine takes its turn (R86). Otherwise the next input
happens; with no input left a running command completes, since its delay is finite (R141, R313), and an idle block keeps its
state (R277). -/
def step (s : State) : Host.Outcome State Fault Refusal :=
  match s.inputs, s.held, s.running with
  | .powerOnReset :: rest, _, _ => .next { s with inputs := rest }.powerOnReset
  | _, some a, none => performAccess a { s with held := none }
  | _, some _, some l => engineTurn l { s with inputs := afterEngineTurn s.inputs }
  | .access a :: rest, none, _ => acceptAccess a { s with inputs := rest }
  | .engine :: rest, none, some l => engineTurn l { s with inputs := rest }
  | .engine :: rest, none, none => .next { s with inputs := rest }
  | [], none, some l => engineTurn l s
  | [], none, none => .next s

/-- The command word `w` issued in `s`, so that the very next step runs it. The block fetches nothing (R43): a program is the
host's sequence of CMD writes, and this stands for one of them and the end of the command's delay (log 13). -/
def State.withFetchWord (s : State) (nbits w : Nat) : State := s.issueNext (tableWord nbits w)

end Sys2Proof.Machine
end

