-- ==== Sys2Proof/Machine/Assembly.lean ====
section
/-! DEFINITION. The host's assembly notation (R130, R131) as lists of inputs: each base statement is one access, each command
pseudo-instruction its expansion. -/

namespace Sys2Proof.Machine.Assembly

/-- A 64-bit access of the host at a byte address. -/
def readAt (a : Nat) : Input := .access (.read (BitVec.ofNat 32 a) 8)

/-- A 64-bit write of the host at a byte address. -/
def writeAt (a : Nat) (v : Word) : Input := .access (.write (BitVec.ofNat 32 a) 8 v)

/-- `write REG, v` (R130). -/
def write (r : Reg) (v : Word) : List Input := [writeAt r.offset v]

/-- `read REG` (R130). -/
def read (r : Reg) : List Input := [readAt r.offset]

/-- `store WIN[i], v` (R130). -/
def store (w : Window) (i : Nat) (v : Word) : List Input := [writeAt (w.base + 8 * i) v]

/-- `load WIN[i]` (R130). -/
def load (w : Window) (i : Nat) : List Input := [readAt (w.base + 8 * i)]

/-- `issue w` (R130). -/
def issue (w : Word) : List Input := write .cmd w

/-- `wait` (R130): STATUS is read until bit 0 is 0. `polls` reads find BUSY = 1 before the command's delay ends (R313, log 15);
one more finds it 0. -/
def wait (polls : Nat) : List Input := List.replicate polls (readAt Reg.status.offset) ++ [.engine] ++ read .status

/-- An operand register and its value, as a pseudo-instruction writes it. -/
def operands (ops : List (Reg × Word)) : List Input := ops.flatMap (fun o => write o.1 o.2)

/-- The operand writes, the issue of the word, and the wait (R131). -/
def command (polls : Nat) (ops : List (Reg × Word)) (i : Instr) : List Input :=
  operands ops ++ issue (encode i) ++ wait polls

/-- `NOP` (R131). -/
def nop (polls : Nat) : List Input := command polls [] .nop

/-- `CFG size, rate` (R131). -/
def cfg (polls : Nat) (size rate : Word) : List Input := command polls [(.a0, size), (.f0, rate)] .cfg

/-- `FWD src, len` (R131). -/
def fwd (polls : Nat) (src len : Word) : List Input := command polls [(.a0, src), (.a1, len)] .fwd

/-- `INV dst` (R131). -/
def inv (polls : Nat) (dst : Word) : List Input := command polls [(.a4, dst)] .inv

/-- `INV.XR rb, rl, dst` (R131). -/
def invXR (polls : Nat) (rb rl dst : Word) : List Input := command polls [(.a0, rb), (.a1, rl), (.a4, dst)] .invXR

/-- `INV.XI ib, il, dst` (R131). -/
def invXI (polls : Nat) (ib il dst : Word) : List Input := command polls [(.a2, ib), (.a3, il), (.a4, dst)] .invXI

/-- `INV.XRXI rb, rl, ib, il, dst` (R131). -/
def invXRXI (polls : Nat) (rb rl ib il dst : Word) : List Input :=
  command polls [(.a0, rb), (.a1, rl), (.a2, ib), (.a3, il), (.a4, dst)] .invXRXI

/-- `SPEC` (R131). -/
def spec (polls : Nat) : List Input := command polls [] .spec

/-- `RSTPK` (R131). -/
def rstpk (polls : Nat) : List Input := command polls [] .rstpk

/-- `BANDF idx` (R131). -/
def bandf (polls : Nat) (idx : Word) : List Input := command polls [(.a0, idx)] .bandf

/-- `METRIC off` (R131). -/
def metric (polls : Nat) (off : Word) : List Input := command polls [(.a0, off)] .metric

/-- `INVERT b, l` (R131). -/
def invert (polls : Nat) (b l : Word) : List Input := command polls [(.a0, b), (.a1, l)] .invert

/-- `INTLV lb, ll, rb, rl, dst` (R131). -/
def intlv (polls : Nat) (lb ll rb rl dst : Word) : List Input :=
  command polls [(.a0, lb), (.a1, ll), (.a2, rb), (.a3, rl), (.a4, dst)] .intlv

/-- `DEINTLV.LEFT sb, sl, dst` (R131). -/
def deintlvLeft (polls : Nat) (sb sl dst : Word) : List Input :=
  command polls [(.a0, sb), (.a1, sl), (.a4, dst)] .deintlvLeft

/-- `DEINTLV.RIGHT sb, sl, dst` (R131). -/
def deintlvRight (polls : Nat) (sb sl dst : Word) : List Input :=
  command polls [(.a0, sb), (.a1, sl), (.a4, dst)] .deintlvRight

/-- `DEINTLV.MIX sb, sl, dst` (R131). -/
def deintlvMix (polls : Nat) (sb sl dst : Word) : List Input :=
  command polls [(.a0, sb), (.a1, sl), (.a4, dst)] .deintlvMix

/-- `MIX ab, al, bb, bl, dst, vc` (R131). -/
def mix (polls : Nat) (ab al bb bl dst vc : Word) : List Input :=
  command polls [(.a0, ab), (.a1, al), (.a2, bb), (.a3, bl), (.a4, dst), (.f0, vc)] .mix

/-- `MIX.NEG ab, al, bb, bl, dst, vc` (R131). -/
def mixNeg (polls : Nat) (ab al bb bl dst vc : Word) : List Input :=
  command polls [(.a0, ab), (.a1, al), (.a2, bb), (.a3, bl), (.a4, dst), (.f0, vc)] .mixNeg

/-- `RMS b, l` (R131). -/
def rms (polls : Nat) (b l : Word) : List Input := command polls [(.a0, b), (.a1, l)] .rms

/-- `PEAKDET b, l` (R131). -/
def peakdet (polls : Nat) (b l : Word) : List Input := command polls [(.a0, b), (.a1, l)] .peakdet

end Sys2Proof.Machine.Assembly
end

