-- ==== Sys2Proof/Safety.lean ====
section
/-! DEFINITION. The terms that claims use: correct rounding of binary64 results, the invariant of the block, and what a safe
step is. -/

namespace Sys2Proof

/-! ## Correct rounding (R21, R22) -/

namespace F64

/-- The magnitude, in units of `2^-1074`, from which roundTiesToEven delivers an infinity: half a unit in the last place past
the largest finite value. -/
def overflowUnits : Nat := (2 ^ 54 - 1) * 2 ^ 2044

/-- `r` is the binary64 value that roundTiesToEven delivers for the exact value `num / den` (in units of `2^-1074`): an infinity
of its sign from the overflow threshold on; below it the finite value nearest to it, and of two equally near the one whose last
significand bit is 0. -/
def IsRounded (num : Int) (den : Nat) (r : F64) : Prop :=
  (overflowUnits * den ≤ num.natAbs ∧ r = inf (decide (num < 0))) ∨
  (num.natAbs < overflowUnits * den ∧ isFinite r = true ∧
    ∀ y : F64, isFinite y = true →
      (value r * den - num).natAbs ≤ (value y * den - num).natAbs ∧
      ((value r * den - num).natAbs = (value y * den - num).natAbs → value y = value r ∨ mag r % 2 = 0))

/-- `t` plus the squares of a list in order, each operation rounded once, whatever NaNs are drawn (R172, R220). -/
def SumOfSquares : F64 → List F64 → F64 → Prop
  | t, [], r => r = t
  | t, x :: xs, r => ∃ d d' : Nat, SumOfSquares (add d' t (mul d x x)) xs r

end F64

namespace Machine

/-! ## The invariant of the block -/

/-- Every memory is in canonical form and within its size (R61 to R65). -/
abbrev State.memoriesWf (s : State) : Prop :=
  (s.real.wf ∧ s.real.within s.params.nmax) ∧ (s.imag.wf ∧ s.imag.within s.params.nmax) ∧
    (s.spectrum.wf ∧ s.spectrum.within (s.params.nmax / 2)) ∧ (s.bitrev.wf ∧ s.bitrev.within s.params.nmax) ∧
    (s.dmem.wf ∧ s.dmem.within s.params.dmemWords)

/-- BITREV's entries are LOG2_NMAX bits wide (R64). -/
abbrev State.tableWf (s : State) : Prop := ∀ c ∈ s.bitrev, c.2.toNat < s.params.nmax

/-- A value that is `+0.0`, positive, `+inf` or a NaN (R161). -/
abbrev nonNegativeOrNaN (x : F64) : Prop := F64.isNaN x = true ∨ F64.sign x = false

/-- No word of SPECTRUM is negative (R161). -/
abbrev State.spectrumWf (s : State) : Prop := ∀ c ∈ s.spectrum, nonNegativeOrNaN c.2

/-- PEAK is not a NaN and not negative, and PEAK_BAND is 0 or a live bin (R54, R55, R159). -/
abbrev State.peakWf (s : State) : Prop :=
  F64.isNaN s.peak = false ∧ F64.sign s.peak = false ∧ (s.peakBand = 0 ∨ s.peakBand.toNat < s.bins)

/-- The pairs of ERROR.CODE and ERROR.DETAIL that R251 lists. -/
def errorPairs : List (Byte × Byte) :=
  [(0, 0), (1, 0), (1, 1), (2, 0), (3, 0), (3, 1), (3, 2), (4, 0), (4, 1), (5, 0), (5, 1), (6, 0), (6, 1), (8, 0), (8, 1),
    (8, 2), (9, 0), (10, 0), (10, 2), (10, 4)]

/-- ERROR's upper bits are 0 and its code and detail are a pair of R251 (R49, R251). -/
abbrev legalError (w : Word) : Prop :=
  w.extractLsb' 24 40 = 0 ∧ (w.extractLsb' 0 8, w.extractLsb' 8 8) ∈ errorPairs

/-- A sample rate that CFG accepts: finite and greater than zero (R52, R146). -/
abbrev validRate (x : F64) : Prop := F64.isFinite x = true ∧ F64.sign x = false ∧ F64.isZero x = false

/-- What R68 says of a configured block, with every word of the four banks written (R70) and BITREV as CFG builds it (R64);
and what reset leaves in the transform registers of one that is not configured (R290). -/
abbrev State.contextWf (s : State) : Prop :=
  if s.flags.configured then
    s.n.toNat = 2 ^ s.log2n.toNat ∧ s.n.toNat ≤ s.params.nmax ∧ validRate s.sampleRate ∧
      s.bandwidth = bandwidthOf 0 s.n.toNat s.sampleRate ∧
      s.bitrev = Memory.cells 0 (bitrevEntries s.n.toNat s.params.nmax) ∧
      (∀ i < s.params.nmax, (s.real.read i).isSome = true ∧ (s.imag.read i).isSome = true) ∧
      (∀ i < s.params.nmax / 2, (s.spectrum.read i).isSome = true)
  else s.n = 0 ∧ s.log2n = 0 ∧ s.sampleRate = 0 ∧ s.bandwidth = 0

/-- Only window accesses are held (R86). -/
abbrev State.heldWf (s : State) : Prop := s.held.all (HostAccess.toWindow s.params) = true

/-- The invariant of the block: its parameters are within their bounds and the rules above hold. -/
abbrev State.Inv (s : State) : Prop :=
  s.params.wf = true ∧ s.memoriesWf ∧ s.tableWf ∧ s.spectrumWf ∧ s.peakWf ∧ legalError s.error ∧ s.contextWf ∧ s.heldWf

/-! ## Safe steps -/

/-- The memory of a bank. -/
def State.bank (s : State) : Bank → Memory
  | .real => s.real
  | .imag => s.imag
  | .spectrum => s.spectrum
  | .bitrev => s.bitrev
  | .dmem => s.dmem

/-- A fault the spec asks for in state `s`: a bus error (R84), or the read of a word that nothing has written (R70). -/
def Fault.fromSpec (s : State) : Fault → Prop
  | .busError _ => True
  | .unwritten b i => (s.bank b).read i = none
  | .badTableIndex _ => False

end Machine

end Sys2Proof
end

