-- ==== Sys2Proof/Certificates/Slice0/Obligations.lean ====
section
/-! DEFINITION. The statements for the provers. Each says which rule of spec/ it states. `exec i s` is the engine running the
command `i`; `State.complete` and `State.raise` are the two completions, whose own effects `EveryCompletionRecords` and
`FailedCommandChangesNothingElse` state. -/

open Sys2Proof Sys2Proof.Machine

namespace Sys2Proof.Claims

/-- Every word of `[base, base + n)` has been written (R70). -/
abbrev Written (m : Memory) (base n : Nat) : Prop := ∀ k < n, (m.read (base + k)).isSome = true

/-- ERROR.CODE of a state (R49). -/
def errorCode (s : State) : Byte := s.error.extractLsb' 0 8

/-- The error completion of R256, field by field. -/
def errorCompletion (op code detail : Byte) (s : State) : State :=
  { s with
    error := (0 : BitVec 40) ++ op ++ detail ++ code
    flags := { s.flags with done := true, err := true }
    cmdCount := s.cmdCount + 1
    running := none }

/-- The commands that need a configured engine (R145). -/
def needsConfiguration : Instr → Bool
  | .fwd | .inv | .invXR | .invXI | .invXRXI | .spec | .bandf | .metric => true
  | .nop | .cfg | .rstpk | .invert | .intlv | .deintlvLeft | .deintlvRight | .deintlvMix | .mix | .mixNeg | .rms
  | .peakdet => false

/-- The flags XR and XI of the four INV words (R119). -/
def invFlags : Instr → Option (Bool × Bool)
  | .inv => some (false, false)
  | .invXR => some (true, false)
  | .invXI => some (false, true)
  | .invXRXI => some (true, true)
  | _ => none

/-- `(2.0 / N) * sqrt((rv * rv) + (iv * iv))`, each operation rounded once, whatever NaNs are drawn (R159). -/
def IsMagnitude (n : Nat) (rv iv m : F64) : Prop :=
  ∃ d1 d2 d3 d4 d5 d6 : Nat,
    m = F64.mul d1 (F64.div d2 F64.two (F64.ofNat n))
      (F64.sqrt d3 (F64.add d4 (F64.mul d5 rv rv) (F64.mul d6 iv iv)))

/-- `r` is roundTiesToEven of a number within `2^-400` of the real number `c`. -/
def RoundsWithin (c : ℝ) (r : F64) : Prop :=
  ∃ v : Int, |(v : ℝ) / 2 ^ 1074 - c| ≤ 1 / 2 ^ 400 ∧ F64.IsRounded v 1 r

/-- `r` is finite and nearer to the real number `c` than every finite value that differs from it. -/
def IsNearest (c : ℝ) (r : F64) : Prop :=
  F64.isFinite r = true ∧ ∀ y : F64, F64.isFinite y = true → F64.value y ≠ F64.value r →
    |(F64.value r : ℝ) / 2 ^ 1074 - c| < |(F64.value y : ℝ) / 2 ^ 1074 - c|

/-- The DMEM words that the rule of a command could write, as R292 lists them. -/
def couldWriteDmem (s : State) (o : Operands) (i : Instr) (a : Nat) : Prop :=
  match i with
  | .inv | .invXR => o.a4.toNat ≤ a ∧ a < o.a4.toNat + s.n.toNat
  | .invXI | .invXRXI =>
    (o.a2.toNat ≤ a ∧ a < o.a2.toNat + s.n.toNat) ∨ (o.a4.toNat ≤ a ∧ a < o.a4.toNat + s.n.toNat)
  | .invert => o.a0.toNat ≤ a ∧ a < o.a0.toNat + o.a1.toNat
  | .intlv => o.a4.toNat ≤ a ∧ a < o.a4.toNat + 2 * o.a1.toNat
  | .deintlvLeft | .deintlvRight | .deintlvMix => o.a4.toNat ≤ a ∧ a < o.a4.toNat + o.a1.toNat / 2
  | .mix | .mixNeg => o.a4.toNat ≤ a ∧ a < o.a4.toNat + o.a1.toNat
  | .nop | .cfg | .fwd | .spec | .rstpk | .bandf | .metric | .rms | .peakdet => False

/-- The words of a bank that the rule of a command could write, as R292 lists them. -/
def couldWrite (s : State) (o : Operands) (i : Instr) (b : Bank) (a : Nat) : Prop :=
  match b with
  | .dmem => couldWriteDmem s o i a
  | .real => (i = .cfg ∧ a < s.params.nmax) ∨ (i = .fwd ∧ a < s.n.toNat)
  | .imag => (i = .cfg ∧ a < s.params.nmax) ∨ ((i = .fwd ∨ i = .inv ∨ i = .invXR) ∧ a < s.n.toNat)
  | .spectrum => (i = .cfg ∧ a < s.params.nmax / 2) ∨ ((i = .fwd ∨ i = .spec) ∧ a < s.n.toNat / 2)
  | .bitrev => i = .cfg ∧ a < s.params.nmax

end Sys2Proof.Claims

open Sys2Proof.Claims

/-! ## Encoding -/

/-- R119, with R118: a word decodes to a command exactly when it is that command's fully decoded word, so decode and encode
agree on all twenty words and no other word is legal. -/
def Obligations.DecodeEncodeAgree : Prop :=
  ∀ (i : Instr) (w : Word), decodeWord w = .ok i ↔ w = encode i

/-- R118: decode is total; the checks are opcode, then flags, then channel, with details 0, 1 and 2, and a word that passes all
three decodes to the command with exactly its fields. -/
def Obligations.DecodeChecksInOrder : Prop :=
  ∀ w : Word,
    ((fieldsOf w).opcodeDefined = false → decodeWord w = .error .reservedOpcode) ∧
    ((fieldsOf w).opcodeDefined = true → (fieldsOf w).flagsAllowed = false → decodeWord w = .error .flagNotAllowed) ∧
    ((fieldsOf w).opcodeDefined = true → (fieldsOf w).flagsAllowed = true → (fieldsOf w).channelDefined = false →
      decodeWord w = .error .reservedChannel) ∧
    ((fieldsOf w).wf = true → ∃ i : Instr, decodeWord w = .ok i ∧ i.fields = fieldsOf w) ∧
    (CmdError.illegal .reservedOpcode).detail = 0 ∧ (CmdError.illegal .flagNotAllowed).detail = 1 ∧
    (CmdError.illegal .reservedChannel).detail = 2 ∧ ∀ e, (CmdError.illegal e).code = 8

/-- R119 and R120: a few of the words, legal and not. -/
def Obligations.SampleWordsDecode : Prop :=
  decodeWord 0x00000001 = .ok .cfg ∧ decodeWord 0x00001803 = .ok .invXRXI ∧ decodeWord 0x00000112 = .ok .deintlvRight ∧
    decodeWord 0x00000413 = .ok .mixNeg ∧ decodeWord 0x00000015 = .ok .peakdet ∧
    decodeWord 0x00000016 = .error .reservedOpcode ∧ decodeWord 0x00002001 = .error .flagNotAllowed ∧
    decodeWord 0x0000000100000000 = .error .flagNotAllowed ∧ decodeWord 0x00000312 = .error .reservedChannel

/-! ## The step -/

/-- R141: when the engine takes its turn with a command word latched that decodes to `i`, the step is `exec i`. When the turn comes is
the model's choice: R141 and R313 leave a command's delay open, and log 4 (DESIGN CHOICE) gives the engine its turn when the inputs say
so, when they are used up, and when a held access waits (R86). That a word issued with `withFetchWord` is what the very next step runs
is the model's too (log 13, DEDUCED): the block fetches nothing (R43). -/
def Obligations.StepRunsLatchedCommand : Prop :=
  (∀ (s : State) (l : Latch) (i : Instr), s.running = some l → decodeWord l.word = .ok i →
    (∀ rest, s.inputs = .engine :: rest → step s = exec i { s with inputs := rest }) ∧
    (s.inputs = [] → step s = exec i s) ∧
    (∀ a b rest, s.held = some a → s.inputs = .access b :: rest → step s = exec i s)) ∧
  (∀ (s : State) (nbits w : Nat) (i : Instr), decodeTableWord nbits w = some i →
    step (s.withFetchWord nbits w) = exec i (s.issue (tableWord nbits w)))

/-- R118 and R120: a latched word that does not decode completes with ILLEGAL_COMMAND, its detail from decode, the word's opcode
byte in ERROR, and nothing else changed, configured or not. -/
def Obligations.IllegalWordCompletesWithError : Prop :=
  ∀ (s : State) (l : Latch) (e : DecodeError) (rest : List Input),
    s.running = some l → decodeWord l.word = .error e → s.inputs = .engine :: rest →
      step s = .next (errorCompletion (l.word.extractLsb' 0 8) 8 e.detail { s with inputs := rest })

/-! ## Completion -/

/-- R144, with R251 and R256: every command that answers a next state has completed. BUSY is 0, DONE is set, CMD_COUNT has
counted, OVERRUN is kept, ERROR holds the opcode and a pair of R251. A success leaves code and detail 0 and keeps ERR; an error
sets ERR. -/
def Obligations.EveryCompletionRecords : Prop :=
  ∀ (i : Instr) (s t : State), exec i s = .next t →
    t.running = none ∧ t.flags.done = true ∧ t.flags.overrun = s.flags.overrun ∧ t.cmdCount = s.cmdCount + 1 ∧
      t.error.extractLsb' 16 8 = opcodeByte (encode i) ∧ legalError t.error ∧
      (errorCode t = 0 → t.error = (0 : BitVec 40) ++ opcodeByte (encode i) ++ (0 : Byte) ++ (0 : Byte) ∧
        t.flags.err = s.flags.err) ∧
      (errorCode t ≠ 0 → t.flags.err = true)

/-- R256: a failed command changes ERROR, DONE, ERR, CMD_COUNT and BUSY, and nothing else; so does an illegal word, whatever its
opcode. The next completion overwrites ERROR, with its own opcode, and clears neither ERR nor DONE. -/
def Obligations.FailedCommandChangesNothingElse : Prop :=
  (∀ (i : Instr) (s t : State), exec i s = .next t → errorCode t ≠ 0 →
    ∃ code detail : Byte, (code, detail) ∈ errorPairs ∧ t = errorCompletion (opcodeByte (encode i)) code detail s) ∧
  (∀ (s : State) (l : Latch) (e : DecodeError), decodeWord l.word = .error e →
    engineTurn l s = .next (errorCompletion (opcodeByte l.word) 8 e.detail s)) ∧
  (∀ (i : Instr) (s t : State), exec i s = .next t →
    (∃ code detail : Byte, t.error = (0 : BitVec 40) ++ opcodeByte (encode i) ++ detail ++ code) ∧
      (s.flags.err = true → t.flags.err = true))

/-- R41, R42, R46, R60 (frame): no command writes an operand register, CTRL or CMD, nor what is outside the engine. -/
def Obligations.CommandsLeaveHostRegisters : Prop :=
  ∀ (i : Instr) (s t : State), exec i s = .next t →
    t.ops = s.ops ∧ t.irqEn = s.irqEn ∧ t.cmd = s.cmd ∧ t.params = s.params ∧ t.held = s.held ∧
      t.inputs = s.inputs ∧ t.reads = s.reads

/-- R69 (frame): which command writes which state. -/
def Obligations.CommandsWriteOnlyTheirState : Prop :=
  ∀ (i : Instr) (s t : State), exec i s = .next t →
    (i ≠ .cfg → t.n = s.n ∧ t.log2n = s.log2n ∧ t.sampleRate = s.sampleRate ∧ t.bandwidth = s.bandwidth ∧
      t.flags.configured = s.flags.configured ∧ t.bitrev = s.bitrev) ∧
    (i ∉ [Instr.cfg, .fwd] → t.real = s.real) ∧
    (i ∉ [Instr.cfg, .fwd, .inv, .invXR] → t.imag = s.imag) ∧
    (i ∉ [Instr.cfg, .fwd, .spec] → t.spectrum = s.spectrum) ∧
    (i ∉ [Instr.cfg, .fwd, .spec, .rstpk] → t.peak = s.peak ∧ t.peakBand = s.peakBand) ∧
    (i ∉ [Instr.inv, .invXR, .invXI, .invXRXI, .invert, .intlv, .deintlvLeft, .deintlvRight, .deintlvMix, .mix, .mixNeg] →
      t.dmem = s.dmem) ∧
    (i ∉ [Instr.bandf, .metric, .rms, .peakdet] → t.result0 = s.result0) ∧
    (i ≠ .metric → t.result1 = s.result1)

/-- R145: the transform commands fail with NOT_CONFIGURED as their first check after decode while STATUS.CONFIGURED = 0; the others
never report it. -/
def Obligations.NotConfiguredGate : Prop :=
  (∀ (i : Instr) (s : State), needsConfiguration i = true → s.flags.configured = false →
    exec i s = .next (errorCompletion (opcodeByte (encode i)) 9 0 s)) ∧
  (∀ (i : Instr) (s t : State), needsConfiguration i = false → exec i s = .next t → errorCode t ≠ 9)

/-! ## The engine's commands -/

/-- R139 and R165: NOP and RSTPK complete in every state, configured or not. NOP writes nothing but the completion; RSTPK sets PEAK to
`+0.0` and PEAK_BAND to 0 and writes nothing else. -/
def Obligations.NopAndRstpkComplete : Prop :=
  ∀ s : State,
    exec .nop s = .next (s.complete 0x00) ∧
    exec .rstpk s = .next (State.complete { s with peak := 0x0000000000000000, peakBand := 0 } 0x05)

/-- R146 and R148: CFG with a power of two not above N_MAX and a finite rate above zero completes; N, LOG2N, SAMPLE_RATE and
BANDWIDTH take their values, the banks are cleared, BITREV is zero from N on, the peak is reset and CONFIGURED is set;
everything else is as before. (BITREV below N: `BitReversalAfterCfg`.) -/
def Obligations.CfgConstructs : Prop :=
  ∀ (s : State) (k : Nat),
    s.operands.a0.toNat = 2 ^ k → 2 ^ k ≤ s.params.nmax → validRate s.operands.f0 →
      ∃ (bw : F64) (bitrev real imag spectrum : Memory) (draws : Nat),
        exec .cfg s = .next (State.complete
          { s with
            n := s.operands.a0
            log2n := BitVec.ofNat 64 k
            sampleRate := s.operands.f0
            bandwidth := bw
            bitrev := bitrev
            real := real
            imag := imag
            spectrum := spectrum
            peak := 0x0000000000000000
            peakBand := 0
            flags := { s.flags with configured := true }
            draws := draws } 0x01) ∧
        (∀ d1 d2 d3 : Nat,
          bw = F64.div d1 (F64.mul d2 (F64.div d3 F64.two (F64.ofNat (2 ^ k))) s.operands.f0) F64.two) ∧
        (∀ i < s.params.nmax, real.read i = some 0 ∧ imag.read i = some 0) ∧
        (∀ i < s.params.nmax / 2, spectrum.read i = some 0) ∧
        (∀ i, 2 ^ k ≤ i → i < s.params.nmax → bitrev.read i = some 0) ∧
        (∀ i, s.params.nmax ≤ i → real.read i = s.real.read i ∧ imag.read i = s.imag.read i ∧
          bitrev.read i = s.bitrev.read i) ∧
        (∀ i, s.params.nmax / 2 ≤ i → spectrum.read i = s.spectrum.read i)

/-- R146's checks, in order: not a power of two; a power of two above N_MAX; a rate that is not finite and above zero. -/
def Obligations.CfgRejectsInOrder : Prop :=
  ∀ s : State,
    ((¬ ∃ k : Nat, s.operands.a0.toNat = 2 ^ k) → exec .cfg s = .next (errorCompletion 0x01 1 0 s)) ∧
    (∀ k : Nat, s.operands.a0.toNat = 2 ^ k → s.params.nmax < 2 ^ k → exec .cfg s = .next (errorCompletion 0x01 1 1 s)) ∧
    (∀ k : Nat, s.operands.a0.toNat = 2 ^ k → 2 ^ k ≤ s.params.nmax →
      (F64.isNaN s.operands.f0 = true ∨ F64.isInf s.operands.f0 = true ∨ F64.isZero s.operands.f0 = true ∨
        F64.sign s.operands.f0 = true) →
      exec .cfg s = .next (errorCompletion 0x01 2 0 s))

/-- R149: after a successful CFG, BITREV[i] is `i` with its LOG2N low bits reversed, for every `i` below N; the table is a bijection
on `[0, N)` and its own inverse. -/
def Obligations.BitReversalAfterCfg : Prop :=
  ∀ s t : State, exec .cfg s = .next t → errorCode t = 0 →
    t.n.toNat = 2 ^ t.log2n.toNat ∧
    (∀ i < t.n.toNat, ∃ v : Word, t.bitrev.read i = some v ∧ v.toNat < t.n.toNat ∧
      (∀ b < t.log2n.toNat, v.toNat.testBit b = i.testBit (t.log2n.toNat - 1 - b)) ∧
      t.bitrev.read v.toNat = some (BitVec.ofNat 64 i)) ∧
    (∀ j < t.n.toNat, ∃ i, i < t.n.toNat ∧ t.bitrev.read i = some (BitVec.ofNat 64 j) ∧
      ∀ i' < t.n.toNat, t.bitrev.read i' = some (BitVec.ofNat 64 j) → i' = i)

/-- R152: FWD of a written source of length N inside DMEM, on a configured engine, completes. REAL is the stage sequence's real
part of the bit-reversed input with a zero imaginary part, IMAG its imaginary part, SPECTRUM the magnitudes of R159; every other
word and register is as before. -/
def Obligations.FwdTransforms : Prop :=
  ∀ s : State, s.Inv → s.flags.configured = true → s.operands.a1 = s.n →
    s.operands.a0.toNat + s.n.toNat ≤ s.params.dmemWords → Written s.dmem s.operands.a0.toNat s.n.toNat →
      ∃ (x : List F64) (real imag spectrum : Memory) (peak : F64) (band : Word) (draws : Nat),
        let n := s.n.toNat
        let w := stages n { re := x, im := List.replicate n 0x0000000000000000, draw := s.draws }
        x.length = n ∧ w.re.length = n ∧ w.im.length = n ∧
        (∀ i < n, ∃ b : Word, s.bitrev.read i = some b ∧ s.dmem.read (s.operands.a0.toNat + b.toNat) = x[i]?) ∧
        exec .fwd s = .next (State.complete
          { s with
            real := real
            imag := imag
            spectrum := spectrum
            peak := peak
            peakBand := band
            draws := draws } 0x02) ∧
        (∀ i < n, real.read i = w.re[i]? ∧ imag.read i = w.im[i]?) ∧
        (∀ i, n ≤ i → real.read i = s.real.read i ∧ imag.read i = s.imag.read i) ∧
        (∀ i < n / 2, ∃ rv iv m : F64, real.read i = some rv ∧ imag.read i = some iv ∧ spectrum.read i = some m ∧
          IsMagnitude n rv iv m) ∧
        (∀ i, n / 2 ≤ i → spectrum.read i = s.spectrum.read i)

/-- R155: each form of INV, on a configured engine with its DMEM inputs written, of length N and inside DMEM, and its output inside
DMEM, completes. The imaginary input is negated in place; the real input is read after that; both are bit-reversed into scratch
arrays, which the stage sequence transforms; the real part, divided by N, is written last, over any input it overlaps. Nothing
else changes. -/
def Obligations.InvTransforms : Prop :=
  ∀ (i : Instr) (xr xi : Bool) (s : State), invFlags i = some (xr, xi) → s.Inv → s.flags.configured = true →
    let o := s.operands
    let n := s.n.toNat
    (xr = true → o.a1 = s.n ∧ o.a0.toNat + n ≤ s.params.dmemWords ∧ Written s.dmem o.a0.toNat n) →
    (xi = true → o.a3 = s.n ∧ o.a2.toNat + n ≤ s.params.dmemWords ∧ Written s.dmem o.a2.toNat n) →
    o.a4.toNat + n ≤ s.params.dmemWords →
      let imIn (k : Nat) : Option Word := if xi then s.dmem.read (o.a2.toNat + k) else s.imag.read k
      let negated (a : Nat) : Option Word :=
        if xi = true ∧ o.a2.toNat ≤ a ∧ a < o.a2.toNat + n then (s.dmem.read a).map F64.neg else s.dmem.read a
      let reIn (k : Nat) : Option Word := if xr then negated (o.a0.toNat + k) else s.real.read k
      ∃ (re im : List F64) (imag dmem : Memory) (draws : Nat),
        let w := stages n { re := re, im := im, draw := s.draws }
        re.length = n ∧ im.length = n ∧ w.re.length = n ∧
        (∀ k < n, ∃ b : Word, s.bitrev.read k = some b ∧ reIn b.toNat = re[k]? ∧
          (imIn b.toNat).map F64.neg = im[k]?) ∧
        exec i s = .next (State.complete { s with imag := imag, dmem := dmem, draws := draws } 0x03) ∧
        (∀ k, imag.read k = if xi = false ∧ k < n then (s.imag.read k).map F64.neg else s.imag.read k) ∧
        (∀ k < n, ∃ (v : F64) (d : Nat), w.re[k]? = some v ∧
          dmem.read (o.a4.toNat + k) = some (F64.div d v (F64.ofNat n))) ∧
        (∀ a, (a < o.a4.toNat ∨ o.a4.toNat + n ≤ a) → dmem.read a = negated a)

/-- R160 and R159: SPEC on a configured engine completes; SPECTRUM takes the magnitudes of the banks as they stand, and only
SPECTRUM below N/2, PEAK and PEAK_BAND are written. -/
def Obligations.SpecRecomputesSpectrum : Prop :=
  ∀ s : State, s.Inv → s.flags.configured = true →
    ∃ (spectrum : Memory) (peak : F64) (band : Word) (draws : Nat),
      exec .spec s = .next (State.complete
        { s with spectrum := spectrum, peak := peak, peakBand := band, draws := draws } 0x04) ∧
      (∀ i < s.n.toNat / 2, ∃ rv iv m : F64, s.real.read i = some rv ∧ s.imag.read i = some iv ∧
        spectrum.read i = some m ∧ IsMagnitude s.n.toNat rv iv m) ∧
      (∀ i, s.n.toNat / 2 ≤ i → spectrum.read i = s.spectrum.read i)

/-- R168: BANDF of a live bin on a configured engine completes with `(BANDWIDTH * i) + (BANDWIDTH / 2.0)` in RESULT0 and nothing
else written. -/
def Obligations.BandfGivesCentreFrequency : Prop :=
  ∀ s : State, s.flags.configured = true → s.operands.a0.toNat < s.n.toNat / 2 →
    ∃ (d1 d2 d3 draws : Nat),
      exec .bandf s = .next (State.complete
        { s with
          result0 := F64.add d1 (F64.mul d2 s.bandwidth (F64.ofNat s.operands.a0.toNat)) (F64.div d3 s.bandwidth F64.two)
          draws := draws } 0x06)

/-- R172: METRIC of a live offset on a configured engine completes with the sum of squares of SPECTRUM from the offset, in ascending
order from `+0.0`, in RESULT1, and `10.0 * LOG10(sum * CAL_K)` in RESULT0, and nothing else written. -/
def Obligations.MetricMeasuresSpectrum : Prop :=
  ∀ s : State, s.flags.configured = true → s.operands.a0.toNat < s.n.toNat / 2 →
    Written s.spectrum s.operands.a0.toNat (s.n.toNat / 2 - s.operands.a0.toNat) →
      ∃ (xs : List F64) (sum : F64) (d1 d2 draws : Nat),
        xs.length = s.n.toNat / 2 - s.operands.a0.toNat ∧
        (∀ k < xs.length, s.spectrum.read (s.operands.a0.toNat + k) = xs[k]?) ∧
        F64.SumOfSquares 0x0000000000000000 xs sum ∧
        exec .metric s = .next (State.complete
          { s with
            result1 := sum
            result0 := F64.mul d1 F64.ten (F64.log10 (F64.mul d2 sum s.params.calK))
            draws := draws } 0x07)

/-- R152, R155, R160, R168, R172: the checks after the configuration gate, in order, with the code and detail each reports. -/
def Obligations.TransformChecksInOrder : Prop :=
  ∀ s : State, s.flags.configured = true →
    let o := s.operands
    let n := s.n.toNat
    let outside (base : Word) : Prop := s.params.dmemWords < base.toNat + n
    (o.a1 ≠ s.n → exec .fwd s = .next (errorCompletion 0x02 3 0 s)) ∧
    (o.a1 = s.n → outside o.a0 → exec .fwd s = .next (errorCompletion 0x02 10 0 s)) ∧
    (∀ (i : Instr) (xr xi : Bool), invFlags i = some (xr, xi) →
      (xr = true → o.a1 ≠ s.n → exec i s = .next (errorCompletion 0x03 3 1 s)) ∧
      ((xr = true → o.a1 = s.n) → xi = true → o.a3 ≠ s.n → exec i s = .next (errorCompletion 0x03 3 2 s)) ∧
      ((xr = true → o.a1 = s.n) → (xi = true → o.a3 = s.n) → xr = true → outside o.a0 →
        exec i s = .next (errorCompletion 0x03 10 0 s)) ∧
      ((xr = true → o.a1 = s.n ∧ ¬ outside o.a0) → (xi = true → o.a3 = s.n) → xi = true → outside o.a2 →
        exec i s = .next (errorCompletion 0x03 10 2 s)) ∧
      ((xr = true → o.a1 = s.n ∧ ¬ outside o.a0) → (xi = true → o.a3 = s.n ∧ ¬ outside o.a2) → outside o.a4 →
        exec i s = .next (errorCompletion 0x03 10 4 s))) ∧
    (n / 2 ≤ o.a0.toNat →
      exec .bandf s = .next (errorCompletion 0x06 6 1 s) ∧ exec .metric s = .next (errorCompletion 0x07 6 0 s))

/-! ## The stages and the spectrum -/

/-- R150 and R151: within the stage of half-size `h`, the phase of each `j` is the recurrence from `(1.0, 0.0)` by the stage's twiddle
factor, and each pair `(j + 2hm, j + 2hm + h)` gets exactly one butterfly with the phase of its `j`, computed from the arrays
before the stage. -/
def Obligations.StageIsOneButterflyPerPair : Prop :=
  ∀ (t k : Nat) (w : Work), t < k → w.re.length = 2 ^ k → w.im.length = 2 ^ k →
    let n := 2 ^ k
    let h := 2 ^ t
    let v := stage n h w
    ∃ cr ci : Nat → F64,
      cr 0 = F64.one ∧ ci 0 = 0x0000000000000000 ∧
      (∀ j < h, ∃ d1 d2 d3 d4 d5 d6 : Nat,
        cr (j + 1) = F64.sub d1 (F64.mul d2 (cr j) (Rom.twcos h)) (F64.mul d3 (ci j) (Rom.twsin h)) ∧
        ci (j + 1) = F64.add d4 (F64.mul d5 (cr j) (Rom.twsin h)) (F64.mul d6 (ci j) (Rom.twcos h))) ∧
      v.re.length = n ∧ v.im.length = n ∧
      (∀ j < h, ∀ m < n / (2 * h), ∀ ri ii ro io : F64,
        w.re[j + 2 * h * m]? = some ri → w.im[j + 2 * h * m]? = some ii →
        w.re[j + 2 * h * m + h]? = some ro → w.im[j + 2 * h * m + h]? = some io →
          ∃ (tr ti : F64) (d1 d2 d3 d4 d5 d6 e1 e2 e3 e4 : Nat),
            tr = F64.sub d1 (F64.mul d2 (cr j) ro) (F64.mul d3 (ci j) io) ∧
            ti = F64.add d4 (F64.mul d5 (cr j) io) (F64.mul d6 (ci j) ro) ∧
            v.re[j + 2 * h * m + h]? = some (F64.sub e1 ri tr) ∧ v.im[j + 2 * h * m + h]? = some (F64.sub e2 ii ti) ∧
            v.re[j + 2 * h * m]? = some (F64.add e3 ri tr) ∧ v.im[j + 2 * h * m]? = some (F64.add e4 ii ti))

/-- R151 (a): for a size `2^k` the stage sequence runs exactly `k` stages, with half-sizes 1, 2, ..., N/2, and none for N = 1. -/
def Obligations.StagesRunLog2N : Prop :=
  ∀ (k : Nat) (w : Work), stages (2 ^ k) w = (List.range k).foldl (fun v t => stage (2 ^ k) (2 ^ t) v) w

/-- R161 (a): every word of SPECTRUM that a successful FWD or SPEC writes is `+0.0`, positive, `+inf` or a NaN. -/
def Obligations.SpectrumNeverNegative : Prop :=
  ∀ (i : Instr) (s t : State), i = .fwd ∨ i = .spec → exec i s = .next t → errorCode t = 0 →
    ∀ k < s.n.toNat / 2, ∃ v : Word, t.spectrum.read k = some v ∧ nonNegativeOrNaN v

/-- R54, R55 and R159: no command but CFG and RSTPK lowers PEAK: it stays with its bin, or a strictly greater magnitude replaces it,
which is a live bin's new SPECTRUM word and strictly greater than that of every lower bin that is not a NaN. After a successful FWD or
SPEC no live bin is greater than PEAK. -/
def Obligations.PeakOnlyRises : Prop :=
  ∀ (i : Instr) (s t : State), i ≠ .cfg → i ≠ .rstpk → exec i s = .next t →
    ((t.peak = s.peak ∧ t.peakBand = s.peakBand) ∨
      (F64.gt t.peak s.peak = true ∧ t.peakBand.toNat < s.n.toNat / 2 ∧
        t.spectrum.read t.peakBand.toNat = some t.peak ∧
        ∀ k < t.peakBand.toNat, ∃ v : Word, t.spectrum.read k = some v ∧ (F64.isNaN v = true ∨ F64.gt t.peak v = true))) ∧
    (i = .fwd ∨ i = .spec → errorCode t = 0 →
      ∀ k < s.n.toNat / 2, ∃ v : Word, t.spectrum.read k = some v ∧ F64.gt v t.peak = false)

/-- R161 (b): when the peak is as RSTPK leaves it, one successful FWD or SPEC with no NaN magnitude and N at least 2 leaves PEAK equal
to SPECTRUM[PEAK_BAND], no live bin greater, and every lower bin strictly less. -/
def Obligations.PeakIsMaximumAfterReset : Prop :=
  ∀ (i : Instr) (s t : State), i = .fwd ∨ i = .spec → s.peak = 0x0000000000000000 → s.peakBand = 0 →
    exec i s = .next t → errorCode t = 0 → 2 ≤ s.n.toNat →
    (∀ k < s.n.toNat / 2, ∀ v : Word, t.spectrum.read k = some v → F64.isNaN v = false) →
      t.spectrum.read t.peakBand.toNat = some t.peak ∧
      (∀ k < s.n.toNat / 2, ∀ v : Word, t.spectrum.read k = some v → F64.gt v t.peak = false) ∧
      (∀ k < t.peakBand.toNat, ∀ v : Word, t.spectrum.read k = some v → F64.gt t.peak v = true)

/-! ## The buffer utilities -/

/-- R200: INVERT of a written buffer inside DMEM completes; exactly the words of the buffer have their sign bit inverted. R230 (c): a
second INVERT of the same buffer completes too and restores every word of DMEM bit for bit. -/
def Obligations.InvertNegatesBuffer : Prop :=
  ∀ s : State, s.operands.a0.toNat + s.operands.a1.toNat ≤ s.params.dmemWords →
    Written s.dmem s.operands.a0.toNat s.operands.a1.toNat →
      ∃ m m' : Memory,
        let t := State.complete { s with dmem := m } 0x10
        exec .invert s = .next t ∧
        (∀ a, m.read a =
          if s.operands.a0.toNat ≤ a ∧ a < s.operands.a0.toNat + s.operands.a1.toNat then
            (s.dmem.read a).map (fun v => v ^^^ 0x8000000000000000)
          else s.dmem.read a) ∧
        exec .invert { t with ops := s.operands } =
          .next (State.complete { t with ops := s.operands, dmem := m' } 0x10) ∧
        (∀ a, m'.read a = s.dmem.read a)

/-- R205: INTLV of two written buffers of one length, all three buffers inside DMEM, completes; the output holds the left and right
samples in turn, read before anything was written, and every other word is as before. -/
def Obligations.IntlvInterleaves : Prop :=
  ∀ s : State,
    let o := s.operands
    let l := o.a1.toNat
    o.a1 = o.a3 → o.a0.toNat + l ≤ s.params.dmemWords → o.a2.toNat + l ≤ s.params.dmemWords →
    o.a4.toNat + 2 * l ≤ s.params.dmemWords → Written s.dmem o.a0.toNat l → Written s.dmem o.a2.toNat l →
      ∃ m : Memory,
        exec .intlv s = .next (State.complete { s with dmem := m } 0x11) ∧
        (∀ k < l, m.read (o.a4.toNat + 2 * k) = s.dmem.read (o.a0.toNat + k) ∧
          m.read (o.a4.toNat + 2 * k + 1) = s.dmem.read (o.a2.toNat + k)) ∧
        (∀ a, (a < o.a4.toNat ∨ o.a4.toNat + 2 * l ≤ a) → m.read a = s.dmem.read a)

/-- R210: DEINTLV.LEFT, .RIGHT and .MIX of a written buffer of even length, both buffers inside DMEM, complete; the output holds the
even-indexed samples, the odd-indexed samples, or `(a + b) / 2.0` of each pair, and every other word is as before. -/
def Obligations.DeintlvExtractsChannel : Prop :=
  ∀ s : State,
    let o := s.operands
    let l := o.a1.toNat
    l % 2 = 0 → o.a0.toNat + l ≤ s.params.dmemWords → o.a4.toNat + l / 2 ≤ s.params.dmemWords →
    Written s.dmem o.a0.toNat l →
      ∃ (left right mid : Memory) (draws : Nat),
        exec .deintlvLeft s = .next (State.complete { s with dmem := left } 0x12) ∧
        exec .deintlvRight s = .next (State.complete { s with dmem := right } 0x12) ∧
        exec .deintlvMix s = .next (State.complete { s with dmem := mid, draws := draws } 0x12) ∧
        (∀ k < l / 2, left.read (o.a4.toNat + k) = s.dmem.read (o.a0.toNat + 2 * k) ∧
          right.read (o.a4.toNat + k) = s.dmem.read (o.a0.toNat + 2 * k + 1) ∧
          ∃ (a b : F64) (d1 d2 : Nat), s.dmem.read (o.a0.toNat + 2 * k) = some a ∧
            s.dmem.read (o.a0.toNat + 2 * k + 1) = some b ∧
            mid.read (o.a4.toNat + k) = some (F64.div d1 (F64.add d2 a b) F64.two)) ∧
        (∀ a, (a < o.a4.toNat ∨ o.a4.toNat + l / 2 ≤ a) →
          left.read a = s.dmem.read a ∧ right.read a = s.dmem.read a ∧ mid.read a = s.dmem.read a)

/-- R215: MIX and MIX.NEG of two written buffers of one length with a volume correction that is not zero, all buffers inside DMEM,
complete; the output holds `a + (b / vc)`, with `b` negated for MIX.NEG, and every other word is as before. -/
def Obligations.MixAddsScaledBuffer : Prop :=
  ∀ (s : State) (negate : Bool),
    let o := s.operands
    let l := o.a1.toNat
    o.a1 = o.a3 → F64.isZero o.f0 = false → o.a0.toNat + l ≤ s.params.dmemWords → o.a2.toNat + l ≤ s.params.dmemWords →
    o.a4.toNat + l ≤ s.params.dmemWords → Written s.dmem o.a0.toNat l → Written s.dmem o.a2.toNat l →
      ∃ (m : Memory) (draws : Nat),
        exec (if negate then .mixNeg else .mix) s =
          .next (State.complete { s with dmem := m, draws := draws } 0x13) ∧
        (∀ k < l, ∃ (a b : F64) (d1 d2 : Nat), s.dmem.read (o.a0.toNat + k) = some a ∧
          s.dmem.read (o.a2.toNat + k) = some b ∧
          m.read (o.a4.toNat + k) = some (F64.add d1 a (F64.div d2 (if negate then F64.neg b else b) o.f0))) ∧
        (∀ a, (a < o.a4.toNat ∨ o.a4.toNat + l ≤ a) → m.read a = s.dmem.read a)

/-- R220: RMS of a written buffer inside DMEM that is not empty completes with `sqrt(t / L)` in RESULT0, `t` the sum of the squares in
ascending order from `+0.0`, and nothing else written. -/
def Obligations.RmsGivesRootMeanSquare : Prop :=
  ∀ s : State, s.operands.a1 ≠ 0 → s.operands.a0.toNat + s.operands.a1.toNat ≤ s.params.dmemWords →
    Written s.dmem s.operands.a0.toNat s.operands.a1.toNat →
      ∃ (xs : List F64) (t : F64) (d1 d2 draws : Nat),
        xs.length = s.operands.a1.toNat ∧ (∀ k < xs.length, s.dmem.read (s.operands.a0.toNat + k) = xs[k]?) ∧
        F64.SumOfSquares 0x0000000000000000 xs t ∧
        exec .rms s = .next (State.complete
          { s with result0 := F64.sqrt d1 (F64.div d2 t (F64.ofNat xs.length)), draws := draws } 0x14)

/-- R225: PEAKDET of a written buffer inside DMEM completes; RESULT0 is `+0.0` or the magnitude of an element that is not a NaN, no
element's magnitude compares greater, and nothing else is written. An empty buffer gives `+0.0`. -/
def Obligations.PeakdetGivesGreatestMagnitude : Prop :=
  ∀ s : State, s.operands.a0.toNat + s.operands.a1.toNat ≤ s.params.dmemWords →
    Written s.dmem s.operands.a0.toNat s.operands.a1.toNat →
      ∃ r : F64,
        exec .peakdet s = .next (State.complete { s with result0 := r } 0x15) ∧
        (r = 0x0000000000000000 ∨ ∃ k < s.operands.a1.toNat, ∃ x : F64,
          s.dmem.read (s.operands.a0.toNat + k) = some x ∧ F64.isNaN x = false ∧ r = F64.abs x) ∧
        (∀ k < s.operands.a1.toNat, ∀ x : F64, s.dmem.read (s.operands.a0.toNat + k) = some x →
          F64.gt (F64.abs x) r = false)

/-- R200, R205, R210, R215, R220, R225 and R88: the utilities' checks, in order, with the code and detail each reports; a sum past
2^64 does not wrap. -/
def Obligations.UtilityChecksInOrder : Prop :=
  ∀ s : State,
    let o := s.operands
    let l := o.a1.toNat
    let outside (base : Word) (length : Nat) : Prop := s.params.dmemWords < base.toNat + length
    (outside o.a0 l → exec .invert s = .next (errorCompletion 0x10 10 0 s) ∧
      exec .peakdet s = .next (errorCompletion 0x15 10 0 s)) ∧
    (o.a1 = 0 → exec .rms s = .next (errorCompletion 0x14 5 1 s)) ∧
    (o.a1 ≠ 0 → outside o.a0 l → exec .rms s = .next (errorCompletion 0x14 10 0 s)) ∧
    (o.a1 ≠ o.a3 → exec .intlv s = .next (errorCompletion 0x11 4 0 s) ∧
      exec .mix s = .next (errorCompletion 0x13 4 0 s) ∧ exec .mixNeg s = .next (errorCompletion 0x13 4 0 s)) ∧
    (o.a1 = o.a3 →
      (outside o.a0 l → exec .intlv s = .next (errorCompletion 0x11 10 0 s)) ∧
      (¬ outside o.a0 l → outside o.a2 l → exec .intlv s = .next (errorCompletion 0x11 10 2 s)) ∧
      (¬ outside o.a0 l → ¬ outside o.a2 l → outside o.a4 (2 * l) →
        exec .intlv s = .next (errorCompletion 0x11 10 4 s))) ∧
    (∀ i : Instr, i = .mix ∨ i = .mixNeg → o.a1 = o.a3 →
      (F64.isZero o.f0 = true → exec i s = .next (errorCompletion 0x13 5 0 s)) ∧
      (F64.isZero o.f0 = false → outside o.a0 l → exec i s = .next (errorCompletion 0x13 10 0 s)) ∧
      (F64.isZero o.f0 = false → ¬ outside o.a0 l → outside o.a2 l → exec i s = .next (errorCompletion 0x13 10 2 s)) ∧
      (F64.isZero o.f0 = false → ¬ outside o.a0 l → ¬ outside o.a2 l → outside o.a4 l →
        exec i s = .next (errorCompletion 0x13 10 4 s))) ∧
    (∀ i : Instr, i = .deintlvLeft ∨ i = .deintlvRight ∨ i = .deintlvMix →
      (l % 2 = 1 → exec i s = .next (errorCompletion 0x12 4 1 s)) ∧
      (l % 2 = 0 → outside o.a0 l → exec i s = .next (errorCompletion 0x12 10 0 s)) ∧
      (l % 2 = 0 → ¬ outside o.a0 l → outside o.a4 (l / 2) → exec i s = .next (errorCompletion 0x12 10 4 s)))

/-- R230 (b): INTLV and then DEINTLV.LEFT of its output gives the left buffer bit for bit, and DEINTLV.RIGHT the right one. `o` are
the operands of the second command: the interleaved buffer as its source. -/
def Obligations.DeintlvUndoesIntlv : Prop :=
  ∀ (s t u v : State) (o : Operands), exec .intlv s = .next t → errorCode t = 0 →
    o.a0 = s.operands.a4 → o.a1.toNat = 2 * s.operands.a1.toNat →
    exec .deintlvLeft { t with ops := o } = .next u → exec .deintlvRight { t with ops := o } = .next v →
    errorCode u = 0 → errorCode v = 0 →
      ∀ k < s.operands.a1.toNat,
        u.dmem.read (o.a4.toNat + k) = s.dmem.read (s.operands.a0.toNat + k) ∧
        v.dmem.read (o.a4.toNat + k) = s.dmem.read (s.operands.a2.toNat + k)

/-- R210 and R230 (a): `(a + a) / 2.0` is `a`, bit for bit, for every `a` that is not a NaN and not a finite value of magnitude 2^1023
or more, so DEINTLV.MIX of a buffer interleaved with itself returns it. -/
def Obligations.MeanOfEqualsIsTheValue : Prop :=
  ∀ (d d' : Nat) (a : F64), F64.isNaN a = false → (F64.isInf a = true ∨ F64.expBits a < 2046) →
    F64.div d' (F64.add d a a) F64.two = a

/-- R230 (d): RMS and PEAKDET of a buffer of zeros of either sign complete with `+0.0` in RESULT0. -/
def Obligations.ZeroBufferMeasuresZero : Prop :=
  ∀ s : State, s.operands.a0.toNat + s.operands.a1.toNat ≤ s.params.dmemWords → s.operands.a1 ≠ 0 →
    (∀ k < s.operands.a1.toNat, ∃ x : F64, s.dmem.read (s.operands.a0.toNat + k) = some x ∧ F64.isZero x = true) →
      ∃ t u : State, exec .rms s = .next t ∧ exec .peakdet s = .next u ∧ errorCode t = 0 ∧ errorCode u = 0 ∧
        t.result0 = 0x0000000000000000 ∧ u.result0 = 0x0000000000000000

/-! ## Arithmetic -/

/-- R21 and R22: addition and subtraction of finite values are the exact sum and difference rounded once, roundTiesToEven; an exact
zero sum or difference is `-0.0` only where both addends are negative zeros. An infinity and a finite value, or two infinities that
agree, give that infinity. -/
def Obligations.AdditionRoundsToNearestEven : Prop :=
  ∀ (d : Nat) (a b : F64),
    (F64.isFinite a = true → F64.isFinite b = true →
      F64.IsRounded (F64.value a + F64.value b) 1 (F64.add d a b) ∧
      F64.IsRounded (F64.value a - F64.value b) 1 (F64.sub d a b) ∧
      (F64.value a + F64.value b = 0 → F64.add d a b = F64.zero (F64.sign a && F64.sign b)) ∧
      (F64.value a = F64.value b → F64.sub d a b = F64.zero (F64.sign a && !F64.sign b))) ∧
    (F64.isInf a = true → F64.isFinite b = true →
      F64.add d a b = F64.inf (F64.sign a) ∧ F64.sub d a b = F64.inf (F64.sign a)) ∧
    (F64.isFinite a = true → F64.isInf b = true →
      F64.add d a b = F64.inf (F64.sign b) ∧ F64.sub d a b = F64.inf (!F64.sign b)) ∧
    (F64.isInf a = true → F64.isInf b = true →
      (F64.sign a = F64.sign b → F64.add d a b = F64.inf (F64.sign a)) ∧
      (F64.sign a ≠ F64.sign b → F64.sub d a b = F64.inf (F64.sign a)))

/-- R21 and R22: multiplication of finite values is the exact product rounded once, roundTiesToEven, with the sign of the operands'
signs also on a zero or infinite result. An infinity times anything that is neither a zero nor a NaN is an infinity of that sign. -/
def Obligations.MultiplicationRoundsToNearestEven : Prop :=
  ∀ (d : Nat) (a b : F64),
    (F64.isFinite a = true → F64.isFinite b = true →
      F64.IsRounded (F64.value a * F64.value b) (2 ^ 1074) (F64.mul d a b) ∧
      F64.sign (F64.mul d a b) = (F64.sign a != F64.sign b)) ∧
    (F64.isInf a = true → F64.isZero b = false → F64.isNaN b = false →
      F64.mul d a b = F64.inf (F64.sign a != F64.sign b)) ∧
    (F64.isZero a = false → F64.isNaN a = false → F64.isInf b = true →
      F64.mul d a b = F64.inf (F64.sign a != F64.sign b))

/-- R21 and R22: division of a finite value by a finite value that is not zero is the exact quotient rounded once, roundTiesToEven,
with the sign of the operands' signs; the quotient in units is `value a * 2^1074 / value b`. An infinity divided by a finite value, and
a value that is neither a zero nor a NaN divided by a zero, are an infinity of that sign; a finite value divided by an infinity is a
zero of that sign. -/
def Obligations.DivisionRoundsToNearestEven : Prop :=
  ∀ (d : Nat) (a b : F64),
    (F64.isFinite a = true → F64.isFinite b = true → F64.isZero b = false →
      F64.IsRounded (F64.value a * 2 ^ 1074 * (F64.value b).sign) (F64.units b) (F64.div d a b) ∧
      F64.sign (F64.div d a b) = (F64.sign a != F64.sign b)) ∧
    (F64.isInf a = true → F64.isFinite b = true → F64.div d a b = F64.inf (F64.sign a != F64.sign b)) ∧
    (F64.isFinite a = true → F64.isInf b = true → F64.div d a b = F64.zero (F64.sign a != F64.sign b)) ∧
    (F64.isZero a = false → F64.isNaN a = false → F64.isZero b = true →
      F64.div d a b = F64.inf (F64.sign a != F64.sign b))

/-- R26 and R21: the square root of a positive finite value is the finite value nearest to the exact root: with `m` the operand in units
times `2^1074`, whose root is the exact root in units, no other value is on the root's side of a midpoint. The root of a zero is that
zero, of `+inf` `+inf`, and of a value below zero a NaN. -/
def Obligations.SquareRootIsNearest : Prop :=
  ∀ (d : Nat) (x : F64),
    (F64.isFinite x = true → F64.isZero x = false → F64.sign x = false →
      let r := F64.sqrt d x
      let m := F64.units x * 2 ^ 1074
      F64.isFinite r = true ∧ F64.sign r = false ∧
        ∀ y : F64, F64.isFinite y = true → F64.sign y = false →
          (F64.units r < F64.units y → 4 * m < (F64.units r + F64.units y) ^ 2) ∧
          (F64.units y < F64.units r → (F64.units r + F64.units y) ^ 2 < 4 * m)) ∧
    (∀ s : Bool, F64.sqrt d (F64.zero s) = F64.zero s) ∧ F64.sqrt d (F64.inf false) = F64.inf false ∧
    (F64.isNaN x = false → F64.isZero x = false → F64.sign x = true → F64.isNaN (F64.sqrt d x) = true)

/-- R24: an operation's result is a NaN exactly for a NaN operand and the invalid operations the rule lists, and it is then the quiet NaN
of the operation's draw (a free value, log 2). A comparison with a result that is a NaN is false, whichever NaN it is. -/
def Obligations.NanResultsExactlyWhenInvalid : Prop :=
  ∀ (d : Nat) (a b : F64),
    (F64.isNaN (F64.add d a b) = true ↔ F64.isNaN a = true ∨ F64.isNaN b = true ∨
      (F64.isInf a = true ∧ F64.isInf b = true ∧ F64.sign a ≠ F64.sign b)) ∧
    (F64.isNaN (F64.sub d a b) = true ↔ F64.isNaN a = true ∨ F64.isNaN b = true ∨
      (F64.isInf a = true ∧ F64.isInf b = true ∧ F64.sign a = F64.sign b)) ∧
    (F64.isNaN (F64.mul d a b) = true ↔ F64.isNaN a = true ∨ F64.isNaN b = true ∨
      (F64.isZero a = true ∧ F64.isInf b = true) ∨ (F64.isInf a = true ∧ F64.isZero b = true)) ∧
    (F64.isNaN (F64.div d a b) = true ↔ F64.isNaN a = true ∨ F64.isNaN b = true ∨
      (F64.isZero a = true ∧ F64.isZero b = true) ∨ (F64.isInf a = true ∧ F64.isInf b = true)) ∧
    (F64.isNaN (F64.sqrt d a) = true ↔ F64.isNaN a = true ∨ (F64.sign a = true ∧ F64.isZero a = false)) ∧
    (∀ r ∈ [F64.add d a b, F64.sub d a b, F64.mul d a b, F64.div d a b, F64.sqrt d a],
      F64.isNaN r = true → r = F64.quietNaN d ∧ r.getLsbD 51 = true ∧ ∀ y : F64, F64.gt r y = false ∧
        F64.gt y r = false ∧ F64.eq r y = false ∧ F64.eq y r = false)

/-- R23: `neg` inverts bit 63 and `abs` clears it, and no other bit changes, whatever the value; both are exact on finite values and
give a NaN only for a NaN. -/
def Obligations.NegAndAbsTouchOnlyTheSign : Prop :=
  ∀ x : F64,
    (∀ b < 64, (F64.neg x).getLsbD b = (if b = 63 then !x.getLsbD b else x.getLsbD b) ∧
      (F64.abs x).getLsbD b = (if b = 63 then false else x.getLsbD b)) ∧
    (F64.isFinite x = true → F64.isFinite (F64.neg x) = true ∧ F64.value (F64.neg x) = -F64.value x ∧
      F64.isFinite (F64.abs x) = true ∧ F64.value (F64.abs x) = |F64.value x|) ∧
    F64.isNaN (F64.neg x) = F64.isNaN x ∧ F64.isNaN (F64.abs x) = F64.isNaN x

/-- R25: comparisons are quiet: false with a NaN; otherwise they compare the values, zeros of either sign equal and the infinities beyond
every finite value. -/
def Obligations.ComparisonsAreQuiet : Prop :=
  ∀ x y : F64,
    (F64.isNaN x = true ∨ F64.isNaN y = true → F64.gt x y = false ∧ F64.eq x y = false) ∧
    (F64.isFinite x = true → F64.isFinite y = true →
      (F64.gt x y = true ↔ F64.value y < F64.value x) ∧ (F64.eq x y = true ↔ F64.value x = F64.value y)) ∧
    (F64.isFinite x = true → F64.gt (F64.inf false) x = true ∧ F64.gt x (F64.inf true) = true ∧
      F64.gt x (F64.inf false) = false ∧ F64.gt (F64.inf true) x = false ∧ F64.eq x (F64.inf false) = false ∧
      F64.eq x (F64.inf true) = false) ∧
    (F64.gt (F64.inf false) (F64.inf true) = true ∧ F64.gt (F64.inf true) (F64.inf false) = false ∧
      F64.eq (F64.inf false) (F64.inf true) = false ∧ ∀ s : Bool, F64.eq (F64.inf s) (F64.inf s) = true ∧
        F64.gt (F64.inf s) (F64.inf s) = false)

/-- R27: the conversion of an integer below 2^53 is exact. -/
def Obligations.IntegerConversionIsExact : Prop :=
  ∀ n : Nat, n < 2 ^ 53 →
    F64.isFinite (F64.ofNat n) = true ∧ F64.sign (F64.ofNat n) = false ∧ F64.value (F64.ofNat n) = (n : Int) * 2 ^ 1074

/-- R13: the results of LOG10 that the spec states. -/
def Obligations.Log10StatedValues : Prop :=
  F64.log10 (F64.zero false) = F64.inf true ∧ F64.log10 (F64.zero true) = F64.inf true ∧
    F64.log10 (F64.inf false) = F64.inf false ∧
    (∀ x : F64, F64.isNaN x = true ∨ (F64.sign x = true ∧ F64.isZero x = false) → F64.isNaN (F64.log10 x) = true) ∧
    (∀ (x : F64) (k : Nat), F64.isFinite x = true → F64.value x = 10 ^ k * 2 ^ 1074 → F64.log10 x = F64.ofNat k)

/-- R57: entries of the twiddle ROMs that the rule tabulates, and the sentinels. -/
def Obligations.TwiddleRomEntries : Prop :=
  Rom.twcos 0 = 0 ∧ Rom.twsin 0 = 0 ∧
    Rom.twcos 1 = 0xBFF0000000000000 ∧ Rom.twsin 1 = 0xBCA1A62633145C07 ∧
    Rom.twcos 2 = 0x3C91A62633145C07 ∧ Rom.twsin 2 = 0xBFF0000000000000 ∧
    Rom.twcos 4 = 0x3FE6A09E667F3BCD ∧ Rom.twsin 4 = 0xBFE6A09E667F3BCC ∧
    Rom.twcos 65536 = 0x3FEFFFFFFF62161A ∧ Rom.twsin 65536 = 0xBF0921FB541AD59E

/-- R57: for every index of the largest ROM the entries are the cosine and sine of the rounded angle, each rounded once,
roundTiesToEven, from a number within `2^-400` of the real one; at the powers of two, the entries that the stages read (R150), they are
the values nearest to the real cosine and sine. (That no other index has a midpoint within `2^-400` either, so that all entries are
the nearest values, was checked outside the package and is not claimed here: log 11.) -/
def Obligations.TwiddleRomRoundsCosineAndSine : Prop :=
  ∀ k : Nat, 1 ≤ k → k < 2 ^ 17 →
    let ang : ℝ := (F64.value (Rom.angle k) : ℝ) / 2 ^ 1074
    RoundsWithin (Real.cos ang) (Rom.twcos k) ∧ RoundsWithin (Real.sin ang) (Rom.twsin k) ∧
      ∀ t : Nat, k = 2 ^ t → IsNearest (Real.cos ang) (Rom.twcos k) ∧ IsNearest (Real.sin ang) (Rom.twsin k)

/-! ## The host port -/

/-- R81, R82, R41 and R90: the address map. Every register is at its offset, every entry of a window at `base + 8 * i`, and no other
aligned address is mapped. A host read there delivers the register, or the entry where it has a value, and changes nothing but the
host's observation; a read of an entry that has none is the fault of R70. Each register and entry is the state's own. -/
def Obligations.AddressMap : Prop :=
  (∀ p : Params, p.wf = true →
    (∀ r : Reg, locate p r.offset = some (.reg r)) ∧
    (∀ (w : Window) (i : Nat), i < w.size p → locate p (w.base + 8 * i) = some (.entry w i)) ∧
    (∀ a : Nat, a % 8 = 0 → (∀ r : Reg, r.offset ≠ a) →
      (∀ (w : Window) (i : Nat), i < w.size p → w.base + 8 * i ≠ a) → locate p a = none)) ∧
  (∀ (s : State) (r : Reg),
    performAccess (.read (BitVec.ofNat 32 r.offset) 8) s = .next { s with reads := s.readReg r :: s.reads }) ∧
  (∀ (s : State) (w : Window) (i : Nat), s.params.wf = true → i < w.size s.params →
    let access := HostAccess.read (BitVec.ofNat 32 (w.base + 8 * i)) 8
    (∀ v : Word, s.readEntry w i = .ok v → performAccess access s = .next { s with reads := v :: s.reads }) ∧
    (∀ f : Fault, s.readEntry w i = .error f → performAccess access s = .fault f ∧ ∃ b, f = .unwritten b i)) ∧
  (∀ s : State,
    (∀ q ∈ [(Reg.id, (0x4646543200010007 : Word)),
        (.caps, BitVec.ofNat 32 s.params.dmemWords ++ (0 : BitVec 24) ++ BitVec.ofNat 8 s.params.log2Nmax),
        (.error, s.error), (.cmd, s.cmd), (.cmdCount, s.cmdCount), (.n, s.n), (.log2n, s.log2n),
        (.sampleRate, s.sampleRate), (.bandwidth, s.bandwidth), (.peak, s.peak), (.peakBand, s.peakBand),
        (.calk, s.params.calK), (.result0, s.result0), (.result1, s.result1), (.a0, s.ops.a0), (.a1, s.ops.a1),
        (.a2, s.ops.a2), (.a3, s.ops.a3), (.a4, s.ops.a4), (.f0, s.ops.f0)], s.readReg q.1 = q.2) ∧
    (∀ q ∈ [(Window.real, s.real), (.imag, s.imag), (.spectrum, s.spectrum), (.bitrev, s.bitrev), (.dmem, s.dmem)],
      ∀ (i : Nat) (v : Word), s.readEntry q.1 i = .ok v ↔ q.2.read i = some v) ∧
    (∀ i, s.readEntry .twcos i = .ok (Rom.twcos i) ∧ s.readEntry .twsin i = .ok (Rom.twsin i)))

/-- R83, R84 and R85: an access of another width or alignment, to an unmapped address, or a write to a read-only location is a bus
error: a fault of the model. A write to any other register, STATUS and CTRL among them, is none, whatever is written. -/
def Obligations.BusErrorsFault : Prop :=
  ∀ (s : State) (addr : BitVec 32) (v : Word),
    (∀ width, width ≠ 8 → performAccess (.read addr width) s = .fault (.busError .width) ∧
      performAccess (.write addr width v) s = .fault (.busError .width)) ∧
    (addr.toNat % 8 ≠ 0 → performAccess (.read addr 8) s = .fault (.busError .alignment) ∧
      performAccess (.write addr 8 v) s = .fault (.busError .alignment)) ∧
    (addr.toNat % 8 = 0 → locate s.params addr.toNat = none →
      performAccess (.read addr 8) s = .fault (.busError .unmapped) ∧
      performAccess (.write addr 8 v) s = .fault (.busError .unmapped)) ∧
    (∀ r ∈ [Reg.id, .caps, .error, .cmdCount, .n, .log2n, .sampleRate, .bandwidth, .peak, .peakBand, .calk, .result0,
        .result1], addr.toNat = r.offset → performAccess (.write addr 8 v) s = .fault (.busError .readOnly)) ∧
    (∀ w ∈ [Window.spectrum, .bitrev, .twcos, .twsin], ∀ i, addr.toNat % 8 = 0 →
      locate s.params addr.toNat = some (.entry w i) → performAccess (.write addr 8 v) s = .fault (.busError .readOnly)) ∧
    (∀ r ∈ [Reg.ctrl, .status, .cmd, .a0, .a1, .a2, .a3, .a4, .f0], addr.toNat = r.offset →
      ∃ t : State, performAccess (.write addr 8 v) s = .next t)

/-- R87: lane `k` of the bus carries bits `8k` to `8k+7` of the word, so the sign of an f64 is in lane 7, and the eight lanes give the word
back. -/
def Obligations.ByteLanesAreLittleEndian : Prop :=
  ∀ w : Word, wordOfLanes (lanesOf w) = w ∧ (lanesOf w).length = 8 ∧
    ∀ k < 8, ∀ b < 8, ((lanesOf w)[k]?.getD 0).getLsbD b = w.getLsbD (8 * k + b)

/-- R41, R42 and R66: a host write to an operand register stores all 64 bits, a read returns them, and a running command keeps its latched
copies. -/
def Obligations.OperandRegistersReadBack : Prop :=
  ∀ (s : State) (r : Reg) (v : Word), r ∈ [Reg.a0, .a1, .a2, .a3, .a4, .f0] →
    ∃ t : State, performAccess (.write (BitVec.ofNat 32 r.offset) 8 v) s = .next t ∧ t.readReg r = v ∧
      (∀ q : Reg, q ≠ r → t.readReg q = s.readReg q) ∧ t.running = s.running ∧ (∀ b, t.bank b = s.bank b) ∧
      (s.running.isSome = true → t.operands = s.operands)

/-- R81, R61, R62 and R65: a host write to an entry of REAL, IMAG or DMEM is what a read of it then returns; every other entry of every bank
and every register is as before. -/
def Obligations.WindowWritesReadBack : Prop :=
  ∀ (s : State) (w : Window) (i : Nat) (v : Word), s.params.wf = true → w ∈ [Window.real, .imag, .dmem] →
    i < w.size s.params →
      ∃ t : State, performAccess (.write (BitVec.ofNat 32 (w.base + 8 * i)) 8 v) s = .next t ∧
        performAccess (.read (BitVec.ofNat 32 (w.base + 8 * i)) 8) t = .next { t with reads := v :: t.reads } ∧
        (∀ (w' : Window) (j : Nat), (w', j) ≠ (w, i) → t.readEntry w' j = s.readEntry w' j) ∧
        (∀ r : Reg, t.readReg r = s.readReg r) ∧ t.running = s.running

/-- R48 and R265: STATUS reads BUSY, DONE, ERR, OVERRUN, CONFIGURED and IRQ in bits 0 to 5 and zero above; IRQ is the level
`IRQ_EN and (DONE or ERR or OVERRUN)`, also that of the interrupt output. A host write to STATUS clears each of DONE, ERR and OVERRUN
that is written as 1 and changes nothing else. -/
def Obligations.StatusReadsAndClears : Prop :=
  ∀ (s : State) (v : Word),
    let w := s.readReg .status
    w.getLsbD 0 = s.running.isSome ∧ w.getLsbD 1 = s.flags.done ∧ w.getLsbD 2 = s.flags.err ∧
      w.getLsbD 3 = s.flags.overrun ∧ w.getLsbD 4 = s.flags.configured ∧ w.getLsbD 5 = s.irq ∧
      s.irq = (s.irqEn && (s.flags.done || s.flags.err || s.flags.overrun)) ∧ (∀ b, 6 ≤ b → w.getLsbD b = false) ∧
    performAccess (.write 0x018 8 v) s = .next
      { s with
        flags :=
          { done := s.flags.done && !v.getLsbD 1
            err := s.flags.err && !v.getLsbD 2
            overrun := s.flags.overrun && !v.getLsbD 3
            configured := s.flags.configured } }

/-- R60, R140 and R262: a CMD write while BUSY = 0 is issued: CMD takes the word, the word and the operand registers are latched, BUSY
rises, nothing else changes; while BUSY = 1 it is dropped: OVERRUN is set and nothing else changes. -/
def Obligations.CmdWriteIssuesOrOverruns : Prop :=
  ∀ (s : State) (w : Word),
    (s.running = none → performAccess (.write 0x028 8 w) s = .next
      { s with cmd := w, running := some { word := w, ops := s.ops } }) ∧
    (s.running.isSome = true → performAccess (.write 0x028 8 w) s = .next
      { s with flags := { s.flags with overrun := true } })

/-- R46: a CTRL write with bit 0 clear sets IRQ_EN to bit 1 and changes nothing else; CTRL reads IRQ_EN in bit 1 and zeros. -/
def Obligations.CtrlWriteSetsIrqEnable : Prop :=
  ∀ (s : State) (v : Word), v.getLsbD 0 = false →
    performAccess (.write 0x010 8 v) s = .next { s with irqEn := v.getLsbD 1 } ∧
    ∀ b, (s.readReg .ctrl).getLsbD b = (decide (b = 1) && s.irqEn)

/-- R292: a CTRL write with bit 0 set, running or not, leaves every register at its power-on value, IRQ_EN = 0 whatever bit 1 says, and no
command latched; each memory keeps its words but for those that the aborted command's rule could write, which become unwritten.
(That the checks of the aborted command do not matter is the model's choice, log 9.) -/
def Obligations.SoftResetAborts : Prop :=
  ∀ (s : State) (v : Word), v.getLsbD 0 = true →
    ∃ t : State, performAccess (.write 0x010 8 v) s = .next t ∧
      (∀ r : Reg, t.readReg r = (State.powerOn s.params).readReg r) ∧ t.running = none ∧
      (∀ l i, s.running = some l → decodeWord l.word = .ok i → ∀ b a,
        (couldWrite s l.ops i b a → (t.bank b).read a = none) ∧
        (¬ couldWrite s l.ops i b a → (t.bank b).read a = (s.bank b).read a)) ∧
      (s.running = none → ∀ b, t.bank b = s.bank b) ∧
      (∀ l e, s.running = some l → decodeWord l.word = .error e → ∀ b, t.bank b = s.bank b)

/-- R86: a window access made while BUSY = 1 is held and changes nothing else; while it waits, the port accepts nothing behind it and only
the engine goes on; it takes effect against the state after the command, in the step after the completion; a power-on reset ends it with
no effect. An access to the register page is never held unless it queues behind a held access. -/
def Obligations.WindowAccessIsHeld : Prop :=
  (∀ (s : State) (a : HostAccess) (rest : List Input), s.running.isSome = true → a.toWindow s.params = true →
    s.held = none → s.inputs = .access a :: rest → step s = .next { s with inputs := rest, held := some a }) ∧
  (∀ (s : State) (a b : HostAccess) (l : Latch) (rest : List Input), s.held = some a → s.running = some l →
    s.inputs = .access b :: rest → step s = engineTurn l s) ∧
  (∀ (s : State) (a b : HostAccess) (rest : List Input), s.held = some a → s.running = none →
    s.inputs = [] ∨ s.inputs = .engine :: rest ∨ s.inputs = .access b :: rest →
      step s = performAccess a { s with held := none }) ∧
  (∀ (s : State) (rest : List Input), s.inputs = .powerOnReset :: rest →
    ∃ t : State, step s = .next t ∧ t.held = none ∧ t.running = none ∧ t.inputs = rest ∧ t.reads = s.reads) ∧
  (∀ (s : State) (a : HostAccess) (r : Reg) (rest : List Input), s.held = none → s.inputs = .access a :: rest →
    a.location s.params = .ok (.reg r) → step s = performAccess a { s with inputs := rest })

/-- R290: what power-on reset leaves, from any state: every register at the value of the rule's table, every word of the five memories
unwritten, the ROMs' contents, no command latched, no access in progress, the IRQ output 0; a block with nothing to do then keeps that
state. -/
def Obligations.PowerOnResetValues : Prop :=
  ∀ (s : State) (rest : List Input), s.inputs = .powerOnReset :: rest →
    ∃ t : State, step s = .next t ∧
      t.readReg .id = 0x4646543200010007 ∧
      t.readReg .caps = BitVec.ofNat 32 s.params.dmemWords ++ (0 : BitVec 24) ++ BitVec.ofNat 8 s.params.log2Nmax ∧
      t.readReg .calk = s.params.calK ∧
      (∀ r : Reg, r ∉ [Reg.id, .caps, .calk] → t.readReg r = 0) ∧
      (∀ b a, (t.bank b).read a = none) ∧ t.running = none ∧ t.held = none ∧ t.irq = false ∧
      (∀ k, t.readEntry .twcos k = .ok (Rom.twcos k) ∧ t.readEntry .twsin k = .ok (Rom.twsin k)) ∧
      (rest = [] → step t = .next t)

/-! ## Whole-machine rules -/

/-- The invariant of the block holds after power-on reset, whatever parameters within their bounds it has (R68, R290). -/
def Obligations.InvariantHoldsAtPowerOn : Prop :=
  (∀ p : Params, p.wf = true → (State.powerOn p).Inv) ∧ State.reset.Inv

/-- The invariant of the block (R54, R55, R61 to R65, R68, R70, R161, R251) is kept by every step, of the engine, the host or a reset. -/
def Obligations.StepKeepsInvariant : Prop :=
  ∀ s t : State, s.Inv → step s = .next t → t.Inv ∧ t.params = s.params

/-- R70 and R84: where the invariant holds, a step is never refused, and it faults only on a bus error or the read of a word that nothing has
written; on a configured engine a command faults only on DMEM. -/
def Obligations.FaultsOnlyWhereTheSpecSays : Prop :=
  ∀ s : State, s.Inv →
    (∀ r, step s ≠ .refused r) ∧ (∀ f, step s = .fault f → f.fromSpec s) ∧
    (∀ i f, s.flags.configured = true → exec i s = .fault f →
      ∃ a, f = .unwritten .dmem a ∧ s.dmem.read a = none)
end

