-- ==== Sys2Proof/Laws/Memory.lean ====
section
/-! SUPPORT. What the memory operations do: read after write, read after forget, and that each keeps the canonical form. -/

namespace Sys2Proof.Machine

/-! ## Reading -/

@[simp] theorem read_nil (i : Nat) : Memory.read [] i = none := rfl

theorem read_cons (a : Nat) (v : Word) (m : Memory) (i : Nat) :
    Memory.read ((a, v) :: m) i = if a = i then some v else Memory.read m i := rfl

theorem read_append (m m' : Memory) (i : Nat) :
    Memory.read (m ++ m') i = (Memory.read m i).or (Memory.read m' i) := by
  induction m with
  | nil => simp
  | cons c m ih =>
    obtain ⟨a, v⟩ := c
    simp only [List.cons_append, read_cons, ih]
    split <;> simp

/-- Filtering by index keeps exactly the words at the indices kept. -/
theorem read_filter (m : Memory) (p : Nat → Bool) (i : Nat) :
    Memory.read (m.filter (fun c => p c.1)) i = if p i then Memory.read m i else none := by
  induction m with
  | nil => simp
  | cons c m ih =>
    obtain ⟨a, v⟩ := c
    by_cases hp : p a
    · simp only [List.filter_cons, hp, if_true, read_cons, ih]
      by_cases ha : a = i
      · subst ha; simp [hp]
      · simp [ha]
    · simp only [List.filter_cons, hp, read_cons]
      by_cases ha : a = i
      · subst ha; simpa [hp] using ih
      · simpa [ha] using ih

theorem read_cells (base : Nat) (vs : List Word) (i : Nat) :
    Memory.read (Memory.cells base vs) i = if base ≤ i then vs[i - base]? else none := by
  induction vs generalizing base with
  | nil => simp [Memory.cells]
  | cons v vs ih =>
    simp only [Memory.cells, read_cons, ih]
    by_cases h : base = i
    · subst h; simp
    · by_cases h' : base ≤ i
      · have h1 : base + 1 ≤ i := by omega
        have h2 : i - base = (i - (base + 1)) + 1 := by omega
        simp [h, h', h1, h2]
      · have h1 : ¬ base + 1 ≤ i := by omega
        simp [h, h', h1]

/-- Read after write (R18): inside the range the word written, outside it the word before. -/
theorem read_writeRange (m : Memory) (base : Nat) (vs : List Word) (i : Nat) :
    (m.writeRange base vs).read i =
      if base ≤ i ∧ i < base + vs.length then vs[i - base]? else m.read i := by
  unfold Memory.writeRange
  rw [read_append, read_append, read_cells]
  rw [read_filter m (fun a => decide (a < base)), read_filter m (fun a => decide (base + vs.length ≤ a))]
  by_cases h1 : i < base
  · have h2 : ¬ base ≤ i := by omega
    have h3 : ¬ base + vs.length ≤ i := by omega
    simp [h1, h2, h3]
  · by_cases h2 : i < base + vs.length
    · have h3 : base ≤ i := by omega
      have h4 : i - base < vs.length := by omega
      simp [h1, h2, h3, h4]
    · have h3 : base ≤ i := by omega
      have h4 : base + vs.length ≤ i := by omega
      have h5 : vs.length ≤ i - base := by omega
      simp [h1, h2, h3, h4, List.getElem?_eq_none h5]

theorem read_writeRange_inside {m : Memory} {base : Nat} {vs : List Word} {k : Nat} (h : k < vs.length) :
    (m.writeRange base vs).read (base + k) = vs[k]? := by
  rw [read_writeRange, if_pos ⟨by omega, by omega⟩, Nat.add_sub_cancel_left]

theorem read_writeRange_outside {m : Memory} {base : Nat} {vs : List Word} {i : Nat}
    (h : i < base ∨ base + vs.length ≤ i) : (m.writeRange base vs).read i = m.read i := by
  rw [read_writeRange, if_neg (by omega)]

/-- Read after a single write. -/
theorem read_write (m : Memory) (a : Nat) (v : Word) (i : Nat) :
    (m.write a v).read i = if i = a then some v else m.read i := by
  unfold Memory.write
  rw [read_writeRange]
  by_cases h : i = a
  · subst h; simp
  · rw [if_neg (by simp; omega), if_neg h]

/-- Read after forget (R292): inside the range nothing, outside it the word before. -/
theorem read_forget (m : Memory) (lo hi i : Nat) :
    (m.forget lo hi).read i = if lo ≤ i ∧ i < hi then none else m.read i := by
  unfold Memory.forget
  rw [read_filter m (fun a => decide (a < lo) || decide (hi ≤ a))]
  by_cases h1 : i < lo
  · simp [h1, show ¬ lo ≤ i by omega]
  · by_cases h2 : hi ≤ i
    · simp [h2, show ¬ i < hi by omega]
    · simp [h1, h2, show lo ≤ i by omega, show i < hi by omega]

/-! ## The canonical form -/

theorem mem_cells {base : Nat} {vs : List Word} {c : Nat × Word} (h : c ∈ Memory.cells base vs) :
    base ≤ c.1 ∧ c.1 < base + vs.length ∧ c.2 ∈ vs := by
  induction vs generalizing base with
  | nil => simp [Memory.cells] at h
  | cons v vs ih =>
    rcases List.mem_cons.mp h with h | h
    · subst h; simp
    · have := ih h
      refine ⟨by omega, ?_, List.mem_cons_of_mem _ this.2.2⟩
      simp only [List.length_cons]; omega

theorem cells_wf (base : Nat) (vs : List Word) : (Memory.cells base vs).wf := by
  induction vs generalizing base with
  | nil => exact List.Pairwise.nil
  | cons v vs ih =>
    refine List.Pairwise.cons (fun c hc => ?_) (ih _)
    have := (mem_cells hc).1
    show base < c.1
    omega

/-- A write keeps the canonical form. -/
theorem writeRange_wf {m : Memory} (h : m.wf) (base : Nat) (vs : List Word) : (m.writeRange base vs).wf := by
  unfold Memory.writeRange
  refine List.pairwise_append.mpr ⟨List.pairwise_append.mpr ⟨h.filter _, cells_wf _ _, ?_⟩, h.filter _, ?_⟩
  · intro a ha b hb
    have h1 : a.1 < base := by simpa using (List.mem_filter.mp ha).2
    have h2 := (mem_cells hb).1
    omega
  · intro a ha b hb
    have h2 : base + vs.length ≤ b.1 := by simpa using (List.mem_filter.mp hb).2
    rcases List.mem_append.mp ha with ha | ha
    · have h1 : a.1 < base := by simpa using (List.mem_filter.mp ha).2
      omega
    · have h1 := (mem_cells ha).2.1
      omega

theorem write_wf {m : Memory} (h : m.wf) (a : Nat) (v : Word) : (m.write a v).wf := writeRange_wf h a [v]

theorem forget_wf {m : Memory} (h : m.wf) (lo hi : Nat) : (m.forget lo hi).wf := h.filter _

theorem mem_writeRange {m : Memory} {base : Nat} {vs : List Word} {c : Nat × Word} (h : c ∈ m.writeRange base vs) :
    c ∈ m ∨ (base ≤ c.1 ∧ c.1 < base + vs.length ∧ c.2 ∈ vs) := by
  unfold Memory.writeRange at h
  rcases List.mem_append.mp h with h | h
  · rcases List.mem_append.mp h with h | h
    · exact Or.inl (List.mem_filter.mp h).1
    · exact Or.inr (mem_cells h)
  · exact Or.inl (List.mem_filter.mp h).1

theorem mem_of_mem_forget {m : Memory} {lo hi : Nat} {c : Nat × Word} (h : c ∈ m.forget lo hi) : c ∈ m :=
  (List.mem_filter.mp h).1

/-- A write inside a bank keeps its indices inside. -/
theorem writeRange_within {m : Memory} {size base : Nat} {vs : List Word} (h : m.within size)
    (hb : base + vs.length ≤ size) : (m.writeRange base vs).within size := by
  intro c hc
  rcases mem_writeRange hc with hc | hc
  · exact h c hc
  · omega

theorem forget_within {m : Memory} {size lo hi : Nat} (h : m.within size) : (m.forget lo hi).within size :=
  fun c hc => h c (mem_of_mem_forget hc)

/-- A word that is read is listed. -/
theorem mem_of_read {m : Memory} {i : Nat} {v : Word} (h : m.read i = some v) : (i, v) ∈ m := by
  induction m with
  | nil => simp at h
  | cons c m ih =>
    obtain ⟨a, w⟩ := c
    rw [read_cons] at h
    split at h
    · next ha => subst ha; simp_all
    · exact List.mem_cons_of_mem _ (ih h)

/-- In the canonical form a listed word is the one read. -/
theorem read_of_mem {m : Memory} (hm : m.wf) {i : Nat} {v : Word} (h : (i, v) ∈ m) : m.read i = some v := by
  induction m with
  | nil => simp at h
  | cons c m ih =>
    obtain ⟨a, w⟩ := c
    rw [read_cons]
    rcases List.mem_cons.mp h with h | h
    · cases h; simp
    · have hlt : a < i := (List.pairwise_cons.mp hm).1 _ h
      rw [if_neg (by omega)]
      exact ih (List.pairwise_cons.mp hm).2 h

/-- Two memories in canonical form that read alike are equal data. -/
theorem memory_ext {m m' : Memory} (h : m.wf) (h' : m'.wf) (he : ∀ i, m.read i = m'.read i) : m = m' := by
  have hmem : ∀ c, c ∈ m ↔ c ∈ m' := fun c =>
    ⟨fun hc => mem_of_read ((he c.1) ▸ read_of_mem h hc), fun hc => mem_of_read ((he c.1).symm ▸ read_of_mem h' hc)⟩
  have hanti : ∀ a b : Nat × Word, a.1 < b.1 → b.1 < a.1 → a = b := fun a b h1 h2 => absurd h1 (by omega)
  have hnd : ∀ {l : Memory}, l.wf → l.Nodup := fun hl => hl.imp (fun hab hE => by subst hE; omega)
  exact List.Perm.eq_of_pairwise (fun a b _ _ h1 h2 => hanti a b h1 h2) h h'
    ((List.perm_ext_iff_of_nodup (hnd h) (hnd h')).mpr hmem)

end Sys2Proof.Machine
end

