-- ==== Sys2Proof/Laws/Run.lean ====
section
/-! SUPPORT. What the shared operations can do: checks, running a command, reading ranges, the gather. -/

namespace Sys2Proof.Machine

/-! ## Checks -/

@[simp] theorem firstError_nil : firstError [] = none := rfl

theorem firstError_cons (b : Bool) (e : CmdError) (cs : List (Bool × CmdError)) :
    firstError ((b, e) :: cs) = if b then some e else firstError cs := rfl

@[simp] theorem firstError_cons_true (e : CmdError) (cs : List (Bool × CmdError)) :
    firstError ((true, e) :: cs) = some e := rfl

@[simp] theorem firstError_cons_false (e : CmdError) (cs : List (Bool × CmdError)) :
    firstError ((false, e) :: cs) = firstError cs := rfl

/-- All checks pass exactly when none of them fails. -/
theorem firstError_eq_none {cs : List (Bool × CmdError)} : firstError cs = none ↔ ∀ c ∈ cs, c.1 = false := by
  induction cs with
  | nil => simp
  | cons c cs ih =>
    obtain ⟨b, e⟩ := c
    cases b <;> simp [ih]

/-- The error reported is that of a failing check. -/
theorem mem_of_firstError {cs : List (Bool × CmdError)} {e : CmdError} (h : firstError cs = some e) : (true, e) ∈ cs := by
  induction cs with
  | nil => simp at h
  | cons c cs ih =>
    obtain ⟨b, e'⟩ := c
    cases b
    · exact List.mem_cons_of_mem _ (ih h)
    · simp at h; simp [h]

/-! ## Running a command -/

theorem runCommand_error {op : Byte} {cs : List (Bool × CmdError)} {eff : State → Except Fault State} {s : State}
    {e : CmdError} (h : firstError cs = some e) : runCommand op cs eff s = .next (s.raise op e) := by
  simp [runCommand, h]

theorem runCommand_ok {op : Byte} {cs : List (Bool × CmdError)} {eff : State → Except Fault State} {s t : State}
    (h : firstError cs = none) (ht : eff s = .ok t) : runCommand op cs eff s = .next (t.complete op) := by
  simp [runCommand, h, ht]

/-- A command that answers a next state failed its first failing check, or ran its effect and completed. -/
theorem runCommand_next {op : Byte} {cs : List (Bool × CmdError)} {eff : State → Except Fault State} {s t : State}
    (h : runCommand op cs eff s = .next t) :
    (∃ e, firstError cs = some e ∧ t = s.raise op e) ∨
      (∃ u, firstError cs = none ∧ eff s = .ok u ∧ t = u.complete op) := by
  unfold runCommand at h
  split at h
  · next e he => left; exact ⟨e, he, by injection h with h; exact h.symm⟩
  · next he =>
    right
    split at h
    · next u hu => exact ⟨u, he, hu, by injection h with h; exact h.symm⟩
    · exact absurd h (by simp)

/-- A command that faults passed its checks and its effect faulted. -/
theorem runCommand_fault {op : Byte} {cs : List (Bool × CmdError)} {eff : State → Except Fault State} {s : State}
    {f : Fault} (h : runCommand op cs eff s = .fault f) : firstError cs = none ∧ eff s = .error f := by
  unfold runCommand at h
  split at h
  · exact absurd h (by simp)
  · next he =>
    split at h
    · exact absurd h (by simp)
    · next g hg => injection h with h; exact ⟨he, h ▸ hg⟩

/-- No command is refused. -/
theorem runCommand_not_refused {op : Byte} {cs : List (Bool × CmdError)} {eff : State → Except Fault State} {s : State}
    {r : Refusal} : runCommand op cs eff s ≠ .refused r := by
  unfold runCommand
  split
  · simp
  · split <;> simp

/-! ## Reading (R18, R70) -/

theorem readWord_ok {b : Bank} {m : Memory} {i : Nat} {v : Word} : readWord b m i = .ok v ↔ m.read i = some v := by
  unfold readWord
  split <;> simp_all

theorem readWord_error {b : Bank} {m : Memory} {i : Nat} {f : Fault} :
    readWord b m i = .error f ↔ m.read i = none ∧ f = .unwritten b i := by
  unfold readWord
  cases m.read i <;> simp [eq_comm]

theorem readRange_zero (b : Bank) (m : Memory) (base : Nat) : readRange b m base 0 = .ok [] := rfl

theorem readRange_succ (b : Bank) (m : Memory) (base n : Nat) :
    readRange b m base (n + 1) =
      match readWord b m base with
      | .error f => .error f
      | .ok v =>
        match readRange b m (base + 1) n with
        | .error f => .error f
        | .ok vs => .ok (v :: vs) := rfl

/-- A range is read exactly when the list holds its words in order. -/
theorem readRange_ok {b : Bank} {m : Memory} {base n : Nat} {vs : List Word} :
    readRange b m base n = .ok vs ↔ vs.length = n ∧ ∀ k, k < n → m.read (base + k) = vs[k]? := by
  induction n generalizing base vs with
  | zero =>
    rw [readRange_zero]
    constructor
    · intro h; injection h with h; subst h; simp
    · intro h; rw [List.length_eq_zero_iff.mp h.1]
  | succ n ih =>
    rw [readRange_succ]
    constructor
    · intro h
      split at h
      · exact absurd h (by simp)
      · next v hv =>
        split at h
        · exact absurd h (by simp)
        · next ws hws =>
          injection h with h; subst h
          obtain ⟨hl, hr⟩ := ih.mp hws
          refine ⟨by simp [hl], fun k hk => ?_⟩
          cases k with
          | zero => simpa using readWord_ok.mp hv
          | succ k => simpa [Nat.add_assoc, Nat.add_comm 1] using hr k (by omega)
    · rintro ⟨hl, hr⟩
      cases vs with
      | nil => simp at hl
      | cons v vs =>
        have h0 : m.read base = some v := by simpa using hr 0 (by omega)
        have h1 : readRange b m (base + 1) n = .ok vs := by
          refine ih.mpr ⟨by simpa using hl, fun k hk => ?_⟩
          simpa [Nat.add_assoc, Nat.add_comm 1] using hr (k + 1) (by omega)
        rw [readWord_ok.mpr h0, h1]

/-- A range whose words are all written is read. -/
theorem readRange_of_written {b : Bank} {m : Memory} {base n : Nat}
    (h : ∀ k, k < n → (m.read (base + k)).isSome = true) : ∃ vs, readRange b m base n = .ok vs := by
  induction n generalizing base with
  | zero => exact ⟨[], rfl⟩
  | succ n ih =>
    obtain ⟨v, hv⟩ := Option.isSome_iff_exists.mp (by simpa using h 0 (by omega))
    obtain ⟨vs, hvs⟩ := ih (base := base + 1) (fun k hk => by
      simpa [Nat.add_assoc, Nat.add_comm 1] using h (k + 1) (by omega))
    exact ⟨v :: vs, by rw [readRange_succ, readWord_ok.mpr hv, hvs]⟩

/-- Reading a range faults only on a word of it that nothing has written. -/
theorem readRange_error {b : Bank} {m : Memory} {base n : Nat} {f : Fault} (h : readRange b m base n = .error f) :
    ∃ k, k < n ∧ m.read (base + k) = none ∧ f = .unwritten b (base + k) := by
  induction n generalizing base with
  | zero => simp [readRange_zero] at h
  | succ n ih =>
    rw [readRange_succ] at h
    split at h
    · next g hg =>
      injection h with h; subst h
      exact ⟨0, by omega, by simpa using readWord_error.mp hg⟩
    · split at h
      · next g hg =>
        injection h with h; subst h
        obtain ⟨k, hk, hr⟩ := ih hg
        exact ⟨k + 1, by omega, by simpa [Nat.add_assoc, Nat.add_comm 1] using hr⟩
      · exact absurd h (by simp)

theorem readRange_length {b : Bank} {m : Memory} {base n : Nat} {vs : List Word} (h : readRange b m base n = .ok vs) :
    vs.length = n := (readRange_ok.mp h).1

/-! ## The gather (R152, R155) -/

/-- The gather answers the list whose `k`-th value is `x[t[k]]`. -/
theorem gather_ok {x : List F64} {i : Nat} {ts : List Word} {ys : List F64} :
    gather x i ts = .ok ys ↔ ys.length = ts.length ∧ ∀ (k : Nat) (t : Word), ts[k]? = some t → x[t.toNat]? = ys[k]? ∧ t.toNat < x.length := by
  induction ts generalizing i ys with
  | nil =>
    constructor
    · intro h; injection h with h; subst h; simp
    · rintro ⟨h, -⟩; rw [List.length_eq_zero_iff.mp h]; rfl
  | cons t ts ih =>
    unfold gather
    constructor
    · intro h
      split at h
      · exact absurd h (by simp)
      · next v hv =>
        split at h
        · exact absurd h (by simp)
        · next vs hvs =>
          injection h with h; subst h
          obtain ⟨hl, hr⟩ := ih.mp hvs
          refine ⟨by simp [hl], fun k u hu => ?_⟩
          cases k with
          | zero =>
            simp only [List.getElem?_cons_zero, Option.some.injEq] at hu
            subst hu
            exact ⟨by simpa using hv, (List.getElem?_eq_some_iff.mp hv).1⟩
          | succ k => simpa using hr k u (by simpa using hu)
    · rintro ⟨hl, hr⟩
      cases ys with
      | nil => simp at hl
      | cons y ys =>
        have h0 : x[t.toNat]? = some y := by simpa using (hr 0 t (by simp)).1
        have h1 : gather x (i + 1) ts = .ok ys := by
          refine ih.mpr ⟨by simpa using hl, fun k u hu => ?_⟩
          simpa using hr (k + 1) u (by simpa using hu)
        rw [h0, h1]

theorem gather_length {x : List F64} {i : Nat} {ts : List Word} {ys : List F64} (h : gather x i ts = .ok ys) :
    ys.length = ts.length := (gather_ok.mp h).1

/-- The gather answers when every entry of the table is an index of the list. -/
theorem gather_of_bounded {x : List F64} {i : Nat} {ts : List Word} (h : ∀ t ∈ ts, t.toNat < x.length) :
    ∃ ys, gather x i ts = .ok ys := by
  induction ts generalizing i with
  | nil => exact ⟨[], rfl⟩
  | cons t ts ih =>
    obtain ⟨ys, hys⟩ := ih (i := i + 1) (fun u hu => h u (List.mem_cons_of_mem _ hu))
    have h0 := h t (by simp)
    exact ⟨x[t.toNat] :: ys, by unfold gather; rw [List.getElem?_eq_getElem h0, hys]⟩

/-- The gather faults only on a table entry past the end of the list. -/
theorem gather_error {x : List F64} {i : Nat} {ts : List Word} {f : Fault} (h : gather x i ts = .error f) :
    ∃ t ∈ ts, x.length ≤ t.toNat := by
  by_contra hc
  obtain ⟨ys, hys⟩ := gather_of_bounded (x := x) (i := i) (ts := ts) (fun t ht => by
    by_contra hlt; exact hc ⟨t, ht, by omega⟩)
  rw [hys] at h
  exact absurd h (by simp)

end Sys2Proof.Machine
end

