-- ==== Sys2Proof/Laws/Fft.lean ====
section
/-! SUPPORT. Lengths and shapes of what the engine's units and the buffer utilities compute. -/

namespace Sys2Proof.Machine

/-! ## The butterfly stages -/

/-- Both arrays have `n` entries. -/
def Work.sized (n : Nat) (w : Work) : Prop := w.re.length = n ∧ w.im.length = n

/-- Any property of the arrays that each butterfly keeps is kept by a fold of butterflies. -/
theorem foldl_keeps {α β : Type} {P : α → Prop} {f : α → β → α} (hf : ∀ a b, P a → P (f a b)) (bs : List β) {a : α}
    (h : P a) : P (bs.foldl f a) := by
  induction bs generalizing a with
  | nil => exact h
  | cons b bs ih => exact ih (hf a b h)

theorem butterfly_sized {n h i : Nat} {cr ci : F64} {w : Work} (hw : w.sized n) : (butterfly cr ci h w i).sized n := by
  unfold butterfly
  simp only
  split
  · exact ⟨by simpa using hw.1, by simpa using hw.2⟩
  · exact hw

theorem phaseStep_sized {n n' h j : Nat} {sr si : F64} {p : Phase} (hp : p.work.sized n') :
    (phaseStep n h sr si p j).work.sized n' := by
  have := foldl_keeps (P := Work.sized n') (f := butterfly p.cr p.ci h) (fun _ _ => butterfly_sized)
    (butterflyIndices n h j) hp
  exact this

theorem stage_sized {n n' h : Nat} {w : Work} (hw : w.sized n') : (stage n h w).sized n' := by
  unfold stage
  exact foldl_keeps (P := fun p : Phase => p.work.sized n') (fun _ _ => phaseStep_sized) _ hw

theorem stagesFrom_sized {n' : Nat} (fuel n h : Nat) {w : Work} (hw : w.sized n') : (stagesFrom fuel n h w).sized n' := by
  induction fuel generalizing h w with
  | zero => exact hw
  | succ fuel ih =>
    unfold stagesFrom
    split
    · exact ih _ (stage_sized hw)
    · exact hw

/-- STAGES keeps the lengths of its arrays. -/
theorem stages_sized {n n' : Nat} {w : Work} (hw : w.sized n') : (stages n w).sized n' := stagesFrom_sized n n 1 hw

/-! ## The spectrum accumulator -/

theorem spectrumFrom_cons (bsi : F64) (i : Nat) (rv iv : F64) (re im : List F64) (p : PeakAcc) :
    spectrumFrom bsi i (rv :: re) (iv :: im) p =
      (magnitude p.draw bsi rv iv ::
          (spectrumFrom bsi (i + 1) re im (p.raise i (magnitude p.draw bsi rv iv))).1,
        (spectrumFrom bsi (i + 1) re im (p.raise i (magnitude p.draw bsi rv iv))).2) := rfl

@[simp] theorem spectrumFrom_nil_left (bsi : F64) (i : Nat) (im : List F64) (p : PeakAcc) :
    spectrumFrom bsi i [] im p = ([], p) := by
  unfold spectrumFrom; rfl

@[simp] theorem spectrumFrom_nil_right (bsi : F64) (i : Nat) (re : List F64) (p : PeakAcc) :
    spectrumFrom bsi i re [] p = ([], p) := by
  cases re <;> (unfold spectrumFrom; rfl)

theorem spectrumFrom_length (bsi : F64) (i : Nat) (re im : List F64) (p : PeakAcc) :
    (spectrumFrom bsi i re im p).1.length = min re.length im.length := by
  induction re generalizing i im p with
  | nil => simp
  | cons rv re ih =>
    cases im with
    | nil => simp
    | cons iv im => rw [spectrumFrom_cons]; simp [ih]

/-- Each magnitude that CalcSpectrum writes is R159's formula, with the draws of its bin. -/
theorem spectrumFrom_getElem (bsi : F64) (i : Nat) (re im : List F64) (p : PeakAcc) (k : Nat) {rv iv : F64}
    (hr : re[k]? = some rv) (hi : im[k]? = some iv) :
    (spectrumFrom bsi i re im p).1[k]? = some (magnitude (p.draw + 5 * k) bsi rv iv) := by
  induction re generalizing i im p k with
  | nil => simp at hr
  | cons r re ih =>
    cases im with
    | nil => simp at hi
    | cons q im =>
      rw [spectrumFrom_cons]
      cases k with
      | zero => simp at hr hi; simp [hr, hi]
      | succ k =>
        simp at hr hi
        have h := ih (i + 1) im (p.raise i (magnitude p.draw bsi r q)) k hr hi
        have hd : (p.raise i (magnitude p.draw bsi r q)).draw + 5 * k = p.draw + 5 * (k + 1) := by
          show p.draw + 5 + 5 * k = _
          omega
        rw [hd] at h
        rw [List.getElem?_cons_succ]
        exact h

/-! ## Bit reversal -/

/-- The doubling stages on a table of `2^t` entries below `2^k`, each a multiple of `2^(k-t)`, give `2^k` entries below
`2^k`. -/
theorem bitrevStages_shape (k fuel t : Nat) (ht : t ≤ k) (hf : k ≤ fuel + t) (table : List Nat)
    (hl : table.length = 2 ^ t) (hb : ∀ x ∈ table, x + 2 ^ (k - t) ≤ 2 ^ k) :
    (bitrevStages fuel (2 ^ k) (2 ^ t) t table).length = 2 ^ k ∧
      ∀ x ∈ bitrevStages fuel (2 ^ k) (2 ^ t) t table, x < 2 ^ k := by
  induction fuel generalizing t table with
  | zero =>
    have : t = k := by omega
    subst this
    refine ⟨hl, fun x hx => ?_⟩
    have := hb x hx
    simp at this
    show x < _
    omega
  | succ fuel ih =>
    unfold bitrevStages
    split
    · next hlt =>
      have htk : t < k := (Nat.pow_lt_pow_iff_right (by omega)).mp hlt
      have hhalf : 2 ^ k / 2 = 2 ^ (k - 1) := by
        obtain ⟨j, rfl⟩ : ∃ j, k = j + 1 := ⟨k - 1, by omega⟩
        simp [Nat.pow_succ]
      have hshift : (2 ^ k / 2) >>> t = 2 ^ (k - (t + 1)) := by
        rw [hhalf, Nat.shiftRight_eq_div_pow, Nat.pow_div (by omega) (by omega)]
        congr 1
        omega
      have hdouble : 2 ^ (k - t) = 2 ^ (k - (t + 1)) + 2 ^ (k - (t + 1)) := by
        rw [show k - t = k - (t + 1) + 1 by omega, Nat.pow_succ]; omega
      rw [show 2 * 2 ^ t = 2 ^ (t + 1) by rw [Nat.pow_succ]; omega]
      refine ih (t + 1) (by omega) (by omega) _ (by simp [hl, Nat.pow_succ]; omega) (fun x hx => ?_)
      have hpos := Nat.two_pow_pos (k - (t + 1))
      rcases List.mem_append.mp hx with hx | hx
      · have := hb x hx; omega
      · obtain ⟨y, hy, rfl⟩ := List.mem_map.mp hx
        have := hb y hy
        rw [hshift]; omega
    · next hge =>
      have : t = k := by
        have : k ≤ t := by
          by_contra hc
          exact hge ((Nat.pow_lt_pow_iff_right (by omega)).mpr (by omega))
        omega
      subst this
      refine ⟨hl, fun x hx => ?_⟩
      have := hb x hx
      simp at this
      omega

/-- BuildBitRev of `2^k` writes `2^k` live entries, each an index below `2^k` (R147). -/
theorem bitrevTable_shape (k : Nat) :
    (bitrevTable (2 ^ k)).length = 2 ^ k ∧ ∀ x ∈ bitrevTable (2 ^ k), x < 2 ^ k := by
  have hk : k ≤ 2 ^ k + 0 := by have := Nat.lt_two_pow_self (n := k); omega
  have := bitrevStages_shape k (2 ^ k) 0 (by omega) hk [0] (by simp) (by simp)
  simpa [bitrevTable] using this

theorem bitrevEntries_length {k nmax : Nat} (h : 2 ^ k ≤ nmax) : (bitrevEntries (2 ^ k) nmax).length = nmax := by
  simp [bitrevEntries, (bitrevTable_shape k).1]; omega

/-! ## The buffer utilities -/

theorem interleave_length (ls rs : List F64) : (interleave ls rs).length = 2 * min ls.length rs.length := by
  induction ls generalizing rs with
  | nil => simp [interleave]
  | cons l ls ih =>
    cases rs with
    | nil => simp [interleave]
    | cons r rs => simp [interleave, ih]; omega

/-- Elements `2k` and `2k+1` of the interleaved buffer are the `k`-th left and right samples (R205). -/
theorem interleave_getElem (ls rs : List F64) (k : Nat) {l r : F64} (hl : ls[k]? = some l) (hr : rs[k]? = some r) :
    (interleave ls rs)[2 * k]? = some l ∧ (interleave ls rs)[2 * k + 1]? = some r := by
  induction ls generalizing rs k with
  | nil => simp at hl
  | cons l' ls ih =>
    cases rs with
    | nil => simp at hr
    | cons r' rs =>
      cases k with
      | zero => simp at hl hr; simp [interleave, hl, hr]
      | succ k =>
        simp at hl hr
        have := ih rs k hl hr
        rw [show 2 * (k + 1) = 2 * k + 1 + 1 by omega]
        simpa [interleave] using this

/-- The even-indexed samples (R210). -/
theorem leftSamples_getElem : ∀ (s : List F64) (k : Nat), 2 * k + 1 < s.length → (leftSamples s)[k]? = s[2 * k]?
  | [], _, h => by simp at h
  | [_], _, h => by simp at h
  | a :: b :: s, 0, _ => by simp [leftSamples]
  | a :: b :: s, k + 1, h => by
    have := leftSamples_getElem s k (by simp at h; omega)
    rw [show 2 * (k + 1) = 2 * k + 1 + 1 by omega]
    simpa [leftSamples] using this

/-- The odd-indexed samples (R210). -/
theorem rightSamples_getElem : ∀ (s : List F64) (k : Nat), 2 * k + 1 < s.length → (rightSamples s)[k]? = s[2 * k + 1]?
  | [], _, h => by simp at h
  | [_], _, h => by simp at h
  | a :: b :: s, 0, _ => by simp [rightSamples]
  | a :: b :: s, k + 1, h => by
    have := rightSamples_getElem s k (by simp at h; omega)
    rw [show 2 * (k + 1) + 1 = 2 * k + 1 + 1 + 1 by omega]
    simpa [rightSamples] using this

theorem leftSamples_length : ∀ s : List F64, (leftSamples s).length = s.length / 2
  | [] => rfl
  | [_] => by simp [leftSamples]
  | a :: b :: s => by simp [leftSamples, leftSamples_length s]; omega

theorem rightSamples_length : ∀ s : List F64, (rightSamples s).length = s.length / 2
  | [] => rfl
  | [_] => by simp [rightSamples]
  | a :: b :: s => by simp [rightSamples, rightSamples_length s]; omega

theorem meanSamples_length : ∀ (d : Nat) (s : List F64), (meanSamples d s).length = s.length / 2
  | _, [] => rfl
  | _, [_] => by simp [meanSamples]
  | d, a :: b :: s => by simp [meanSamples, meanSamples_length (d + 2) s]; omega

theorem meanSamples_getElem : ∀ (s : List F64) (d k : Nat) {a b : F64}, s[2 * k]? = some a → s[2 * k + 1]? = some b →
    (meanSamples d s)[k]? = some (F64.div (d + 2 * k + 1) (F64.add (d + 2 * k) a b) F64.two)
  | [], _, _, _, _, h, _ => by simp at h
  | [_], d, 0, _, _, _, h => by simp at h
  | [_], d, k + 1, _, _, h, _ => by simp at h
  | x :: y :: s, d, 0, a, b, ha, hb => by simp at ha hb; simp [meanSamples, ha, hb]
  | x :: y :: s, d, k + 1, a, b, ha, hb => by
    rw [show 2 * (k + 1) + 1 = 2 * k + 1 + 1 + 1 by omega] at hb
    rw [show 2 * (k + 1) = 2 * k + 1 + 1 by omega] at ha
    simp at ha hb
    have := meanSamples_getElem s (d + 2) k ha hb
    simp only [meanSamples, List.getElem?_cons_succ, this]
    rw [show d + 2 + 2 * k = d + 2 * (k + 1) by omega]

theorem mixSamples_length (negate : Bool) (vc : F64) (d : Nat) (as bs : List F64) :
    (mixSamples negate vc d as bs).length = min as.length bs.length := by
  induction as generalizing d bs with
  | nil => simp [mixSamples]
  | cons a as ih =>
    cases bs with
    | nil => simp [mixSamples]
    | cons b bs => simp [mixSamples, ih]

theorem mixSamples_getElem (negate : Bool) (vc : F64) (d : Nat) (as bs : List F64) (k : Nat) {a b : F64}
    (ha : as[k]? = some a) (hb : bs[k]? = some b) :
    (mixSamples negate vc d as bs)[k]? =
      some (F64.add (d + 2 * k + 1) a (F64.div (d + 2 * k) (if negate then F64.neg b else b) vc)) := by
  induction as generalizing d bs k with
  | nil => simp at ha
  | cons x as ih =>
    cases bs with
    | nil => simp at hb
    | cons y bs =>
      cases k with
      | zero => simp at ha hb; simp [mixSamples, ha, hb]
      | succ k =>
        simp at ha hb
        have := ih (d + 2) bs k ha hb
        simp only [mixSamples, List.getElem?_cons_succ, this]
        rw [show d + 2 + 2 * k = d + 2 * (k + 1) by omega]

theorem scaleFrom_length (n d : Nat) (xs : List F64) : (scaleFrom n d xs).length = xs.length := by
  induction xs generalizing d with
  | nil => rfl
  | cons x xs ih => simp [scaleFrom, ih]

theorem scaleFrom_getElem (n d : Nat) (xs : List F64) (k : Nat) {x : F64} (h : xs[k]? = some x) :
    (scaleFrom n d xs)[k]? = some (F64.div (d + k) x (F64.ofNat n)) := by
  induction xs generalizing d k with
  | nil => simp at h
  | cons y ys ih =>
    cases k with
    | zero => simp at h; simp [scaleFrom, h]
    | succ k =>
      simp at h
      simp only [scaleFrom, List.getElem?_cons_succ, ih (d + 1) k h]
      rw [show d + 1 + k = d + (k + 1) by omega]

end Sys2Proof.Machine
end

