-- ==== Sys2Proof/Laws/Float.lean ====
section
/-! SUPPORT. Binary64 patterns as sign and magnitude, and that `round` is roundTiesToEven (R21, R22): every operation but the
comparisons ends in it. -/

namespace Sys2Proof.F64

/-! ## Patterns -/

theorem mag_lt (x : F64) : mag x < 2 ^ 63 := Nat.mod_lt _ (by decide)

theorem toNat_eq (x : F64) : x.toNat = (if sign x then 2 ^ 63 else 0) + mag x := by
  unfold sign mag
  have hx := x.isLt
  rw [BitVec.msb_eq_decide]
  by_cases h : 2 ^ 63 ≤ x.toNat
  · rw [if_pos (by simpa using h)]; omega
  · rw [if_neg (by simpa using h)]; omega

/-- A pattern is its sign and its magnitude. -/
theorem ext_sign_mag {x y : F64} (hs : sign x = sign y) (hm : mag x = mag y) : x = y := by
  apply BitVec.eq_of_toNat_eq
  rw [toNat_eq x, toNat_eq y, hs, hm]

theorem pack_toNat {s : Bool} {m : Nat} (h : m < 2 ^ 63) : (pack s m).toNat = (if s then 2 ^ 63 else 0) + m := by
  unfold pack
  rw [BitVec.toNat_ofNat]
  cases s <;> simp <;> omega

@[simp] theorem mag_pack {s : Bool} {m : Nat} (h : m < 2 ^ 63) : mag (pack s m) = m := by
  unfold mag
  rw [pack_toNat h]
  cases s
  · simp; omega
  · simp; omega

@[simp] theorem sign_pack {s : Bool} {m : Nat} (h : m < 2 ^ 63) : sign (pack s m) = s := by
  unfold sign
  rw [BitVec.msb_eq_decide, pack_toNat h]
  cases s <;> simp <;> omega

theorem pack_sign_mag (x : F64) : pack (sign x) (mag x) = x :=
  ext_sign_mag (sign_pack (mag_lt x)) (mag_pack (mag_lt x))

/-- The magnitude in units as a function of the pattern without its sign. -/
def unitsOf (m : Nat) : Nat := if m / 2 ^ 52 = 0 then m % 2 ^ 52 else (2 ^ 52 + m % 2 ^ 52) * 2 ^ (m / 2 ^ 52 - 1)

theorem units_eq (x : F64) : units x = unitsOf (mag x) := rfl

/-- The pattern of exponent offset `e` and significand `q` denotes `q * 2^e`, also when the significand has carried. -/
theorem unitsOf_pattern {e q : Nat} (hq : q ≤ 2 ^ 53) (hlow : e = 0 ∨ 2 ^ 52 ≤ q) : unitsOf (e * 2 ^ 52 + q) = q * 2 ^ e := by
  unfold unitsOf
  by_cases h1 : q < 2 ^ 52
  · obtain rfl : e = 0 := by omega
    rw [if_pos (by omega)]; omega
  · by_cases h2 : q < 2 ^ 53
    · have hd : (e * 2 ^ 52 + q) / 2 ^ 52 = e + 1 := by omega
      have hm : (e * 2 ^ 52 + q) % 2 ^ 52 = q - 2 ^ 52 := by omega
      have hs : 2 ^ 52 + (q - 2 ^ 52) = q := by omega
      rw [hd, hm, if_neg (by omega), Nat.add_sub_cancel, hs]
    · obtain rfl : q = 2 ^ 53 := by omega
      have hd : (e * 2 ^ 52 + 2 ^ 53) / 2 ^ 52 = e + 2 := by omega
      have hm : (e * 2 ^ 52 + 2 ^ 53) % 2 ^ 52 = 0 := by omega
      rw [hd, hm, if_neg (by omega), show e + 2 - 1 = e + 1 by omega, Nat.pow_succ]
      ring

/-- The magnitudes are ordered as their patterns. -/
theorem unitsOf_strictMono : StrictMono unitsOf := by
  refine strictMono_nat_of_lt_succ fun m => ?_
  obtain ⟨e, q, hm, hq, hlow⟩ : ∃ e q : Nat, m = e * 2 ^ 52 + q ∧ q < 2 ^ 53 ∧ (e = 0 ∨ 2 ^ 52 ≤ q) :=
    ⟨m / 2 ^ 52 - 1, m - (m / 2 ^ 52 - 1) * 2 ^ 52, by omega, by omega, by omega⟩
  rw [hm, Nat.add_assoc, unitsOf_pattern (by omega) (by omega), unitsOf_pattern (by omega) (by omega)]
  exact Nat.mul_lt_mul_of_pos_right (Nat.lt_succ_self q) (Nat.two_pow_pos e)

/-- A finite magnitude is a multiple of `2^e`, or below `2^(52+e)`. -/
theorem unitsOf_multiple (m e : Nat) : (∃ t, unitsOf m = t * 2 ^ e) ∨ (0 < e ∧ unitsOf m < 2 ^ (52 + e)) := by
  unfold unitsOf
  split
  · rcases Nat.eq_zero_or_pos e with rfl | he
    · exact Or.inl ⟨m % 2 ^ 52, by simp⟩
    · right
      refine ⟨he, lt_of_lt_of_le (Nat.mod_lt _ (by decide)) (Nat.pow_le_pow_right (by omega) (by omega))⟩
  · by_cases h : e ≤ m / 2 ^ 52 - 1
    · left
      refine ⟨(2 ^ 52 + m % 2 ^ 52) * 2 ^ (m / 2 ^ 52 - 1 - e), ?_⟩
      have hs : 2 ^ (m / 2 ^ 52 - 1) = 2 ^ (m / 2 ^ 52 - 1 - e) * 2 ^ e := by
        rw [← Nat.pow_add, Nat.sub_add_cancel h]
      generalize 2 ^ 52 + m % 2 ^ 52 = c
      rw [hs, Nat.mul_assoc]
    · right
      refine ⟨by omega, ?_⟩
      have h1 : 2 ^ 52 + m % 2 ^ 52 < 2 ^ 53 := by have := Nat.mod_lt m (show 2 ^ 52 > 0 by decide); omega
      calc (2 ^ 52 + m % 2 ^ 52) * 2 ^ (m / 2 ^ 52 - 1)
          < 2 ^ 53 * 2 ^ (m / 2 ^ 52 - 1) := Nat.mul_lt_mul_of_pos_right h1 (Nat.two_pow_pos _)
        _ = 2 ^ (53 + (m / 2 ^ 52 - 1)) := by rw [Nat.pow_add]
        _ ≤ 2 ^ (52 + e) := Nat.pow_le_pow_right (by omega) (by omega)

/-! ## Rounding -/

/-- `divPow2Even` is the nearest multiple, ties to even. -/
theorem divPow2Even_nearest (m d : Nat) (t : Int) :
    ((divPow2Even m d : Int) * 2 ^ d - m).natAbs ≤ (t * 2 ^ d - m).natAbs ∧
      (((divPow2Even m d : Int) * 2 ^ d - m).natAbs = (t * 2 ^ d - m).natAbs →
        t = divPow2Even m d ∨ divPow2Even m d % 2 = 0) := by
  have hp : (0 : Int) < 2 ^ d := by positivity
  have hdm : (m : Int) = (m / 2 ^ d : Nat) * 2 ^ d + (m % 2 ^ d : Nat) := by
    have := Nat.div_add_mod m (2 ^ d)
    rw [Nat.mul_comm] at this
    exact_mod_cast this.symm
  have hr : m % 2 ^ d < 2 ^ d := Nat.mod_lt _ (Nat.two_pow_pos _)
  have hr' : ((m % 2 ^ d : Nat) : Int) < 2 ^ d := by exact_mod_cast hr
  unfold divPow2Even
  simp only
  generalize hq : m / 2 ^ d = q at *
  generalize hrr : m % 2 ^ d = r at *
  have hcast : ((2 ^ d : Nat) : Int) = 2 ^ d := by norm_cast
  generalize hP : (2 ^ d : Nat) = P at *
  rw [← hcast] at hdm hp hr' ⊢
  have hP0 : 0 < P := by exact_mod_cast hp
  -- t in terms of q
  obtain ⟨u, rfl⟩ : ∃ u : Int, t = q + u := ⟨t - q, by ring⟩
  have e1 : ((q : Int) + u) * P - m = u * P - r := by rw [hdm]; ring
  have e2 : (q : Int) * P - m = -r := by rw [hdm]; ring
  have e3 : ((q + 1 : Nat) : Int) * P - m = P - r := by rw [hdm]; push_cast; ring
  have hu : u ≤ -1 → u * P ≤ -P := fun h => by nlinarith
  have hu2 : 2 ≤ u → 2 * (P : Int) ≤ u * P := fun h => by nlinarith
  have hu3 : u ≤ -1 ∨ u = 0 ∨ u = 1 ∨ 2 ≤ u := by omega
  split
  · next hc =>
    rw [e3, e1]
    rcases hu3 with h | rfl | rfl | h
    · have := hu h; omega
    · simp only [zero_mul]; constructor <;> omega
    · simp only [one_mul]; constructor <;> omega
    · have := hu2 h; omega
  · next hc =>
    rw [e2, e1]
    rcases hu3 with h | rfl | rfl | h
    · have := hu h; omega
    · simp only [zero_mul]; constructor <;> omega
    · simp only [one_mul]; constructor <;> omega
    · have := hu2 h; omega

theorem divPow2Even_bounds (m d : Nat) : m / 2 ^ d ≤ divPow2Even m d ∧ divPow2Even m d ≤ m / 2 ^ d + 1 := by
  unfold divPow2Even
  simp only
  split <;> omega


theorem dropBits_ge (m k : Nat) : k ≤ dropBits m k := Nat.le_max_left _ _

theorem lt_two_pow_dropBits (m k : Nat) : m < 2 ^ (dropBits m k + 53) := by
  have h1 : m.log2 + 1 ≤ dropBits m k + 53 := by unfold dropBits; omega
  exact lt_of_lt_of_le Nat.lt_log2_self (Nat.pow_le_pow_right (by omega) h1)

theorem two_pow_le_of_dropBits {m k : Nat} (h : k < dropBits m k) : 2 ^ (dropBits m k + 52) ≤ m := by
  have h1 : dropBits m k + 52 = m.log2 := by unfold dropBits at *; omega
  rw [h1]
  refine Nat.log2_self_le ?_
  rintro rfl
  unfold dropBits at h
  simp at h

/-- The significand that `round` keeps: at most `2^53`, and full when bits above the finest unit are dropped. -/
theorem significand_bounds (m k : Nat) :
    divPow2Even m (dropBits m k) ≤ 2 ^ 53 ∧ (dropBits m k - k = 0 ∨ 2 ^ 52 ≤ divPow2Even m (dropBits m k)) := by
  obtain ⟨h1, h2⟩ := divPow2Even_bounds m (dropBits m k)
  refine ⟨?_, ?_⟩
  · have : m / 2 ^ dropBits m k < 2 ^ 53 := by
      rw [Nat.div_lt_iff_lt_mul (Nat.two_pow_pos _), ← Nat.pow_add, Nat.add_comm]
      exact lt_two_pow_dropBits m k
    omega
  · rcases Nat.eq_zero_or_pos (dropBits m k - k) with h | h
    · exact Or.inl h
    · right
      refine le_trans ?_ h1
      rw [Nat.le_div_iff_mul_le (Nat.two_pow_pos _), ← Nat.pow_add, Nat.add_comm]
      exact two_pow_le_of_dropBits (by omega)

/-- The bits that `round` packs. -/
def roundBits (m k : Nat) : Nat := (dropBits m k - k) * 2 ^ 52 + divPow2Even m (dropBits m k)

theorem round_def (s : Bool) (m k : Nat) : round s m k = if infMag ≤ roundBits m k then inf s else pack s (roundBits m k) := rfl

theorem roundBits_mod_two (m k : Nat) : roundBits m k % 2 = divPow2Even m (dropBits m k) % 2 := by
  unfold roundBits; omega

theorem unitsOf_roundBits (m k : Nat) :
    unitsOf (roundBits m k) * 2 ^ k = divPow2Even m (dropBits m k) * 2 ^ dropBits m k := by
  obtain ⟨h1, h2⟩ := significand_bounds m k
  unfold roundBits
  rw [unitsOf_pattern h1 h2, Nat.mul_assoc, ← Nat.pow_add, Nat.sub_add_cancel (dropBits_ge m k)]

/-- No finite value is nearer to `m * 2^-k` units than the one `round` packs, and of an equally near one it is equal or the
packed significand is even. -/
theorem roundBits_nearest (m k : Nat) (s : Bool) (b : Nat) :
    let v : Int := if s then -(unitsOf b : Int) else unitsOf b
    ((unitsOf (roundBits m k) : Int) * 2 ^ k - m).natAbs ≤ (v * 2 ^ k - m).natAbs ∧
      (((unitsOf (roundBits m k) : Int) * 2 ^ k - m).natAbs = (v * 2 ^ k - m).natAbs →
        v = unitsOf (roundBits m k) ∨ roundBits m k % 2 = 0) := by
  intro v
  have hq : (unitsOf (roundBits m k) : Int) * 2 ^ k = divPow2Even m (dropBits m k) * 2 ^ dropBits m k := by
    exact_mod_cast unitsOf_roundBits m k
  rw [hq, roundBits_mod_two]
  have hge := dropBits_ge m k
  have hpk : (0 : Int) < 2 ^ k := by positivity
  rcases unitsOf_multiple b (dropBits m k - k) with ⟨t, ht⟩ | ⟨he, hlt⟩
  · -- a multiple
    have hv : v * 2 ^ k = (if s then -(t : Int) else t) * 2 ^ dropBits m k := by
      have : (2 : Int) ^ dropBits m k = 2 ^ (dropBits m k - k) * 2 ^ k := by rw [← pow_add, Nat.sub_add_cancel hge]
      rw [this]
      show (if s then -(unitsOf b : Int) else unitsOf b) * 2 ^ k = _
      rw [ht]
      cases s
      · simp only [Bool.false_eq_true, if_false]; push_cast; ring
      · simp only [if_true]; push_cast; ring
    obtain ⟨h1, h2⟩ := divPow2Even_nearest m (dropBits m k) (if s then -(t : Int) else t)
    rw [hv]
    refine ⟨h1, fun h => (h2 h).imp (fun h3 => ?_) id⟩
    have : v * 2 ^ k = (unitsOf (roundBits m k) : Int) * 2 ^ k := by rw [hv, hq, h3]
    exact mul_right_cancel₀ hpk.ne' this
  · -- below every value with a full significand
    have hm : 2 ^ (dropBits m k + 52) ≤ m := two_pow_le_of_dropBits (by omega)
    have h1 := (divPow2Even_nearest m (dropBits m k) (2 ^ 52)).1
    have hP : ((2 : Int) ^ 52) * 2 ^ dropBits m k = 2 ^ (dropBits m k + 52) := by rw [← pow_add, Nat.add_comm]
    rw [hP] at h1
    have hm' : (2 : Int) ^ (dropBits m k + 52) ≤ m := by exact_mod_cast hm
    have hvlt : v * 2 ^ k < 2 ^ (dropBits m k + 52) := by
      have hb : (unitsOf b : Int) < 2 ^ (52 + (dropBits m k - k)) := by exact_mod_cast hlt
      have hvb : v ≤ unitsOf b := by
        show (if s then -(unitsOf b : Int) else unitsOf b) ≤ _
        split <;> omega
      calc v * 2 ^ k < 2 ^ (52 + (dropBits m k - k)) * 2 ^ k := by
            exact mul_lt_mul_of_pos_right (lt_of_le_of_lt hvb hb) hpk
        _ = 2 ^ (dropBits m k + 52) := by rw [← pow_add]; congr 1; omega
    constructor <;> omega

/-- `round` overflows exactly from the threshold of roundTiesToEven on. -/
theorem infMag_le_roundBits (m k : Nat) : infMag ≤ roundBits m k ↔ overflowUnits * 2 ^ k ≤ m := by
  obtain ⟨h1, h2⟩ := significand_bounds m k
  have hge := dropBits_ge m k
  have hlt := lt_two_pow_dropBits m k
  unfold infMag roundBits overflowUnits
  obtain ⟨e, he⟩ : ∃ e, dropBits m k = k + e := ⟨dropBits m k - k, by omega⟩
  rw [he] at h1 h2 hlt ⊢
  rw [Nat.add_sub_cancel_left] at h2 ⊢
  rcases Nat.lt_trichotomy e 2045 with h | rfl | h
  · constructor
    · intro hb; omega
    · intro hm
      exfalso
      have : 2 ^ (k + e + 53) ≤ 2 ^ (k + 2097) := Nat.pow_le_pow_right (by omega) (by omega)
      have h3 : 2 ^ (k + 2097) ≤ (2 ^ 54 - 1) * 2 ^ 2044 * 2 ^ k := by
        rw [show k + 2097 = 53 + (2044 + k) by omega, Nat.pow_add, Nat.pow_add 2 2044 k, Nat.mul_assoc]
        exact Nat.mul_le_mul_right _ (by decide)
      omega
  · have hhalf : 2 ^ (k + 2045) = 2 * (2 ^ 2044 * 2 ^ k) := by
      rw [show k + 2045 = 1 + (2044 + k) by omega, Nat.pow_add, Nat.pow_add 2 2044 k]
    have hm : m < 2 ^ 54 * (2 ^ 2044 * 2 ^ k) := by
      have : 2 ^ (k + 2045 + 53) = 2 ^ 54 * (2 ^ 2044 * 2 ^ k) := by
        rw [show k + 2045 + 53 = 54 + (2044 + k) by omega, Nat.pow_add, Nat.pow_add 2 2044 k]
      omega
    have hq2 : divPow2Even m (k + 2045) =
        if 2 ^ (k + 2045) < 2 * (m % 2 ^ (k + 2045)) ∨ (2 * (m % 2 ^ (k + 2045)) = 2 ^ (k + 2045) ∧
          m / 2 ^ (k + 2045) % 2 = 1) then m / 2 ^ (k + 2045) + 1 else m / 2 ^ (k + 2045) := rfl
    rw [Nat.mul_assoc]
    generalize hH : 2 ^ 2044 * 2 ^ k = H at *
    rw [hhalf] at hq2
    have hHpos : 0 < H := by rw [← hH]; positivity
    have hdm := Nat.div_add_mod m (2 * H)
    have hr : m % (2 * H) < 2 * H := Nat.mod_lt _ (by omega)
    have hqlt : m / (2 * H) < 2 ^ 53 := by rw [Nat.div_lt_iff_lt_mul (by omega)]; omega
    generalize m / (2 * H) = q at *
    generalize m % (2 * H) = r at *
    have key : (2047 * 2 ^ 52 ≤ 2045 * 2 ^ 52 + divPow2Even m (k + 2045)) ↔ divPow2Even m (k + 2045) = 2 ^ 53 := by omega
    rw [key, hq2]
    constructor
    · intro hc
      split at hc
      · next hcond =>
        have hq : q = 2 ^ 53 - 1 := by omega
        subst hq
        rw [← hdm]
        have : 2 * H * (2 ^ 53 - 1) + H = (2 ^ 54 - 1) * H := by ring
        omega
      · omega
    · intro hc
      have hq : q = 2 ^ 53 - 1 := by
        by_contra hne
        have hqq : q + 1 ≤ 2 ^ 53 - 1 := by omega
        have : 2 * H * (q + 1) ≤ 2 * H * (2 ^ 53 - 1) := Nat.mul_le_mul_left _ hqq
        have h5 : 2 * H * (2 ^ 53 - 1) + H = (2 ^ 54 - 1) * H := by ring
        have h6 : 2 * H * (q + 1) = 2 * H * q + 2 * H := by ring
        omega
      subst hq
      have h5 : 2 * H * (2 ^ 53 - 1) + H = (2 ^ 54 - 1) * H := by ring
      rw [if_pos (by omega)]
      decide
  · constructor
    · intro _
      have h3 : 2 ^ (k + e + 52) ≤ m := by
        have := two_pow_le_of_dropBits (m := m) (k := k) (by omega)
        rwa [he] at this
      refine le_trans ?_ h3
      have h4 : 2 ^ (k + 2098) ≤ 2 ^ (k + e + 52) := Nat.pow_le_pow_right (by omega) (by omega)
      refine le_trans ?_ h4
      rw [show k + 2098 = 54 + (2044 + k) by omega, Nat.pow_add, Nat.pow_add 2 2044 k, Nat.mul_assoc]
      exact Nat.mul_le_mul_right _ (by decide)
    · intro _
      have : 2046 * 2 ^ 52 ≤ e * 2 ^ 52 := Nat.mul_le_mul_right _ (by omega)
      rcases h2 with h2 | h2
      · omega
      · omega

theorem infMag_lt : infMag < 2 ^ 63 := by decide

/-- `round` keeps the sign it is given. -/
@[simp] theorem sign_round (s : Bool) (m k : Nat) : sign (round s m k) = s := by
  rw [round_def]
  split
  · exact sign_pack infMag_lt
  · next h => exact sign_pack (lt_trans (not_le.mp h) infMag_lt)

theorem mag_round (s : Bool) (m k : Nat) :
    mag (round s m k) = if infMag ≤ roundBits m k then infMag else roundBits m k := by
  rw [round_def]
  split
  · exact mag_pack infMag_lt
  · next h => exact mag_pack (lt_trans (not_le.mp h) infMag_lt)

/-- `round` never delivers a NaN. -/
@[simp] theorem isNaN_round (s : Bool) (m k : Nat) : isNaN (round s m k) = false := by
  unfold isNaN
  rw [mag_round]
  simp only [decide_eq_false_iff_not, not_lt]
  split <;> omega

/-- `round` delivers roundTiesToEven of `±m * 2^-k` units (R21, R22). -/
theorem round_isRounded (s : Bool) (m k : Nat) : IsRounded (if s then -(m : Int) else m) (2 ^ k) (round s m k) := by
  have habs : (if s then -(m : Int) else m).natAbs = m := by cases s <;> simp
  unfold IsRounded
  rw [habs, ← infMag_le_roundBits]
  by_cases h : infMag ≤ roundBits m k
  · left
    refine ⟨h, ?_⟩
    rw [round_def, if_pos h]
    congr 1
    have hm : 0 < m := by
      have := (infMag_le_roundBits m k).mp h
      have h0 : 0 < overflowUnits * 2 ^ k := Nat.mul_pos (by unfold overflowUnits; positivity) (Nat.two_pow_pos _)
      omega
    cases s <;> simp <;> omega
  · right
    have hmag : mag (round s m k) = roundBits m k := by rw [mag_round, if_neg h]
    refine ⟨lt_of_not_ge (mt (infMag_le_roundBits m k).mpr h), by unfold isFinite; rw [hmag]; simpa using h, fun y _ => ?_⟩
    have hv : value (round s m k) = if s then -(unitsOf (roundBits m k) : Int) else unitsOf (roundBits m k) := by
      unfold value
      rw [units_eq, hmag, sign_round]
    have hy : value y = if sign y then -(unitsOf (mag y) : Int) else unitsOf (mag y) := rfl
    have := roundBits_nearest m k (xor s (sign y)) (mag y)
    rw [hv, hy, hmag]
    push_cast
    cases s <;> cases hsy : sign y <;> simp only [hsy, Bool.xor_false, Bool.xor_true, Bool.false_eq_true, if_true, if_false, Bool.not_false, Bool.not_true] at this ⊢
    · exact this
    · exact this
    · have e (z : Int) : (-z * 2 ^ k - -(m : Int)).natAbs = (z * 2 ^ k - m).natAbs := by
        rw [show -z * 2 ^ k - -(m : Int) = -(z * 2 ^ k - m) by ring, Int.natAbs_neg]
      have e2 (z : Int) : (z * 2 ^ k - -(m : Int)).natAbs = (-z * 2 ^ k - m).natAbs := by
        rw [show z * 2 ^ k - -(m : Int) = -(-z * 2 ^ k - m) by ring, Int.natAbs_neg]
      rw [e, e2]
      exact ⟨this.1, fun hh => (this.2 hh).imp (fun h3 => by omega) id⟩
    · have e (z : Int) : (-z * 2 ^ k - -(m : Int)).natAbs = (z * 2 ^ k - m).natAbs := by
        rw [show -z * 2 ^ k - -(m : Int) = -(z * 2 ^ k - m) by ring, Int.natAbs_neg]
      rw [e, e]
      exact ⟨this.1, fun hh => (this.2 hh).imp (fun h3 => by omega) id⟩

/-- The units of a rounded value that does not overflow. -/
theorem units_round {s : Bool} {m k : Nat} (h : roundBits m k < infMag) : units (round s m k) = unitsOf (roundBits m k) := by
  rw [units_eq, mag_round, if_neg (not_le.mpr h)]

/-- The units of `to_f64` of an integer below `2^53` (R27). -/
theorem units_ofNat {n : Nat} (hn : n < 2 ^ 53) : isFinite (ofNat n) = true ∧ units (ofNat n) = n * 2 ^ 1074 := by
  have hd : dropBits (n * 2 ^ 1074) 0 ≤ 1074 := by
    unfold dropBits
    have : (n * 2 ^ 1074).log2 < 53 + 1074 := by
      rcases Nat.eq_zero_or_pos n with rfl | h0
      · rw [zero_mul, Nat.log2_zero]; norm_num
      · rw [Nat.log2_lt (Nat.mul_pos h0 (Nat.two_pow_pos _)).ne', Nat.pow_add]
        exact Nat.mul_lt_mul_of_pos_right hn (Nat.two_pow_pos _)
    omega
  have hx : divPow2Even (n * 2 ^ 1074) (dropBits (n * 2 ^ 1074) 0) * 2 ^ dropBits (n * 2 ^ 1074) 0 = n * 2 ^ 1074 := by
    generalize hdd : dropBits (n * 2 ^ 1074) 0 = d at *
    have e : n * 2 ^ 1074 = n * 2 ^ (1074 - d) * 2 ^ d := by rw [Nat.mul_assoc, ← Nat.pow_add, Nat.sub_add_cancel hd]
    have h1 := (divPow2Even_nearest (n * 2 ^ 1074) d ((n * 2 ^ (1074 - d) : Nat) : Int)).1
    have e2 : (((n * 2 ^ (1074 - d) : Nat) : Int) * 2 ^ d - ((n * 2 ^ 1074 : Nat) : Int)) = 0 := by
      rw [e]; push_cast; ring
    rw [e2, Int.natAbs_zero, Nat.le_zero, Int.natAbs_eq_zero, sub_eq_zero] at h1
    exact_mod_cast h1
  have hu : unitsOf (roundBits (n * 2 ^ 1074) 0) = n * 2 ^ 1074 := by
    have := unitsOf_roundBits (n * 2 ^ 1074) 0
    rw [pow_zero, mul_one, hx] at this
    exact this
  have hlt : roundBits (n * 2 ^ 1074) 0 < infMag := by
    rw [← not_le, infMag_le_roundBits, not_le, pow_zero, mul_one]
    have h1 : n * 2 ^ 1074 < 2 ^ 53 * 2 ^ 1074 := Nat.mul_lt_mul_of_pos_right hn (Nat.two_pow_pos _)
    refine lt_of_lt_of_le h1 ?_
    unfold overflowUnits
    exact Nat.mul_le_mul (by decide) (Nat.pow_le_pow_right (by decide) (by decide))
  refine ⟨?_, ?_⟩
  · unfold isFinite ofNat
    rw [mag_round, if_neg (not_le.mpr hlt)]
    simpa using hlt
  · unfold ofNat
    rw [units_round hlt, hu]

/-! ## The sticky bit of division and square root -/

/-- The quotient `n / d` doubled, with the sticky bit below it. -/
def sticky (n d : Nat) : Nat := 2 * (n / d) + (if n % d = 0 then 0 else 1)

/-- With the sticky bit a quotient compares with every even number as the exact quotient does. -/
theorem sticky_le_iff {n d : Nat} (hd : 0 < d) (c : Int) :
    ((sticky n d : Int) ≤ 2 * c ↔ (n : Int) ≤ c * d) ∧ (2 * c ≤ (sticky n d : Int) ↔ c * d ≤ (n : Int)) := by
  have hdm := Nat.div_add_mod n d
  have hlt := Nat.mod_lt n hd
  unfold sticky
  generalize n / d = q at *
  generalize n % d = r at *
  have hdm' : (d : Int) * q + r = n := by exact_mod_cast hdm
  by_cases hr : r = 0
  · subst hr
    have h1 : (q : Int) ≤ c ↔ (n : Int) ≤ c * d :=
      ⟨fun h => by push_cast at hdm'; nlinarith, fun h => by
        by_contra hc
        have : c + 1 ≤ (q : Int) := by omega
        push_cast at hdm'
        nlinarith⟩
    have h2 : c ≤ (q : Int) ↔ c * d ≤ (n : Int) :=
      ⟨fun h => by push_cast at hdm'; nlinarith, fun h => by
        by_contra hc
        have : (q : Int) + 1 ≤ c := by omega
        push_cast at hdm'
        nlinarith⟩
    rw [← h1, ← h2]
    simp only [if_true]
    omega
  · have h1 : (q : Int) + 1 ≤ c ↔ (n : Int) ≤ c * d :=
      ⟨fun h => by nlinarith, fun h => by
        by_contra hc
        have : c ≤ (q : Int) := by omega
        have : 0 < r := by omega
        nlinarith⟩
    have h2 : c ≤ (q : Int) ↔ c * d ≤ (n : Int) :=
      ⟨fun h => by nlinarith, fun h => by
        by_contra hc
        have : (q : Int) + 1 ≤ c := by omega
        nlinarith⟩
    rw [← h1, ← h2]
    simp only [hr, if_false]
    omega

/-- So two integers are in the same order of distance from the quotient with its sticky bit as from the exact quotient, when the
quotient has two bits to spare: `sticky (4 * n) d` is eight times `n / d`. -/
theorem sticky_nearer_iff {n d : Nat} (hd : 0 < d) (a b : Int) :
    (a * 8 - (sticky (4 * n) d : Int)).natAbs ≤ (b * 8 - (sticky (4 * n) d : Int)).natAbs ↔
      (a * d - n).natAbs ≤ (b * d - n).natAbs := by
  have hd' : (0 : Int) < d := by exact_mod_cast hd
  obtain ⟨k1, k2⟩ := sticky_le_iff (n := 4 * n) hd (2 * (a + b))
  push_cast at k1 k2
  rw [mul_assoc, add_mul] at k1 k2
  generalize (sticky (4 * n) d : Int) = m at *
  rcases lt_trichotomy a b with h | rfl | h
  · have hab : a * d < b * d := mul_lt_mul_of_pos_right h hd'
    generalize a * (d : Int) = A at *
    generalize b * (d : Int) = B at *
    omega
  · simp
  · have hab : b * d < a * d := mul_lt_mul_of_pos_right h hd'
    generalize a * (d : Int) = A at *
    generalize b * (d : Int) = B at *
    omega

end Sys2Proof.F64
end

