-- ==== Sys2Proof/Laws/PerInstr.lean ====
section
/-! SUPPORT. What holds of every instruction as syntax: its fields are legal, its word has exactly these fields, and the decoder
reads it back from that word and from the word's byte lanes. -/

namespace Sys2Proof.Laws.RoundTrip

/-- The instruction is well formed (R118), its word has its row's fields (R110, R119), and decoding the word, or its eight byte
lanes, gives it back. -/
abbrev Statement (i : Instr) : Prop :=
  i.wf = true ∧ fieldsOf (encode i) = i.fields ∧ decodeWord (encode i) = .ok i ∧
    decodeBytes (lanesOf (encode i)) = some (.ok i, [])

theorem nop : Statement .nop := by decide +kernel
theorem cfg : Statement .cfg := by decide +kernel
theorem fwd : Statement .fwd := by decide +kernel
theorem inv : Statement .inv := by decide +kernel
theorem invXR : Statement .invXR := by decide +kernel
theorem invXI : Statement .invXI := by decide +kernel
theorem invXRXI : Statement .invXRXI := by decide +kernel
theorem spec : Statement .spec := by decide +kernel
theorem rstpk : Statement .rstpk := by decide +kernel
theorem bandf : Statement .bandf := by decide +kernel
theorem metric : Statement .metric := by decide +kernel
theorem invert : Statement .invert := by decide +kernel
theorem intlv : Statement .intlv := by decide +kernel
theorem deintlvLeft : Statement .deintlvLeft := by decide +kernel
theorem deintlvRight : Statement .deintlvRight := by decide +kernel
theorem deintlvMix : Statement .deintlvMix := by decide +kernel
theorem mix : Statement .mix := by decide +kernel
theorem mixNeg : Statement .mixNeg := by decide +kernel
theorem rms : Statement .rms := by decide +kernel
theorem peakdet : Statement .peakdet := by decide +kernel

end Sys2Proof.Laws.RoundTrip
end

