-- ==== Sys2Proof/Laws/Rom.lean ====
section
/-! SUPPORT. The series of the twiddle ROMs (R57) lie within `2^-400` of the real cosine and sine, and the gap that makes a rounding of
the series the rounding of the real value. -/

namespace Sys2Proof.Rom

open Sys2Proof.F64

/-! ## The real series -/

/-- The first `n` terms of the series of cosine and sine are the real and imaginary part of those of the exponential. -/
theorem sum_exp_series (x : ℝ) (n : Nat) :
    ∑ m ∈ Finset.range (2 * n), ((x : ℂ) * Complex.I) ^ m / (m.factorial : ℂ) =
      ((∑ i ∈ Finset.range n, (-1) ^ i * (x ^ (2 * i) / (2 * i).factorial) : ℝ) : ℂ) +
        ((∑ i ∈ Finset.range n, (-1) ^ i * (x ^ (2 * i + 1) / (2 * i + 1).factorial) : ℝ) : ℂ) * Complex.I := by
  induction n with
  | zero => simp
  | succ n ih =>
    rw [show 2 * (n + 1) = 2 * n + 1 + 1 by ring, Finset.sum_range_succ, Finset.sum_range_succ, ih,
      Finset.sum_range_succ _ n, Finset.sum_range_succ _ n]
    have h1 : Complex.I ^ (2 * n) = (-1) ^ n := by rw [pow_mul, Complex.I_sq]
    have h2 : Complex.I ^ (2 * n + 1) = (-1) ^ n * Complex.I := by rw [pow_succ, h1]
    simp only [mul_pow, h1, h2]
    push_cast
    ring

/-- What the first 64 terms leave out is below `2^-401`, for an argument of at most 4. -/
theorem series_tail {x : ℝ} (h0 : 0 ≤ x) (h4 : x ≤ 4) :
    |Real.cos x - ∑ i ∈ Finset.range 64, (-1) ^ i * (x ^ (2 * i) / (2 * i).factorial)| ≤ 1 / 2 ^ 401 ∧
    |Real.sin x - ∑ i ∈ Finset.range 64, (-1) ^ i * (x ^ (2 * i + 1) / (2 * i + 1).factorial)| ≤ 1 / 2 ^ 401 := by
  have hn : ‖(x : ℂ) * Complex.I‖ = x := by simp [abs_of_nonneg h0]
  have hb := Complex.exp_bound' (x := (x : ℂ) * Complex.I) (n := 2 * 64) (by rw [hn]; norm_num; linarith)
  rw [sum_exp_series, hn] at hb
  have hle : x ^ (2 * 64) / ((2 * 64 : Nat).factorial : ℝ) * 2 ≤ 1 / 2 ^ 401 := by
    have h1 : x ^ (2 * 64) ≤ 4 ^ (2 * 64) := pow_le_pow_left₀ h0 h4 _
    have h2 : (4 : ℝ) ^ (2 * 64) * 2 * 2 ^ 401 ≤ ((2 * 64 : Nat).factorial : ℝ) := by
      have : 4 ^ (2 * 64) * 2 * 2 ^ 401 ≤ (2 * 64 : Nat).factorial := by decide +kernel
      exact_mod_cast this
    have h3 : (0 : ℝ) < ((2 * 64 : Nat).factorial : ℝ) := by exact_mod_cast Nat.factorial_pos _
    rw [div_mul_eq_mul_div, div_le_div_iff₀ h3 (by positivity), one_mul]
    exact le_trans (by gcongr) h2
  have he : Complex.exp ((x : ℂ) * Complex.I) = (Real.cos x : ℂ) + (Real.sin x : ℂ) * Complex.I := by
    rw [Complex.exp_mul_I]; simp
  rw [he] at hb
  set c := ∑ i ∈ Finset.range 64, (-1) ^ i * (x ^ (2 * i) / (2 * i).factorial) with hc
  set s := ∑ i ∈ Finset.range 64, (-1) ^ i * (x ^ (2 * i + 1) / (2 * i + 1).factorial) with hs
  rw [show (Real.cos x : ℂ) + (Real.sin x : ℂ) * Complex.I - (c + s * Complex.I) =
    (Real.cos x - c : ℝ) + (Real.sin x - s : ℝ) * Complex.I by push_cast; ring] at hb
  have hre := (Complex.abs_re_le_norm _).trans (hb.trans hle)
  have him := (Complex.abs_im_le_norm _).trans (hb.trans hle)
  rw [Complex.add_re, Complex.ofReal_re, Complex.re_ofReal_mul, Complex.I_re, mul_zero, add_zero] at hre
  rw [Complex.add_im, Complex.ofReal_im, Complex.im_ofReal_mul, Complex.I_im, mul_one, zero_add] at him
  exact ⟨hre, him⟩

/-! ## The series of the model -/

/-- The terms that `altSeries` adds and subtracts, in units of `1 / u`. -/
def term (u x2 j t : Nat) : Nat → Nat
  | 0 => t
  | i + 1 => term u x2 j t i * x2 / u / ((j + 2 * i + 1) * (j + 2 * i + 2))

theorem term_shift (u x2 j t i : Nat) :
    term u x2 (j + 2) (t * x2 / u / ((j + 1) * (j + 2))) i = term u x2 j t (i + 1) := by
  induction i with
  | zero => rfl
  | succ i ih =>
    rw [term, ih, show j + 2 + 2 * i + 1 = j + 2 * (i + 1) + 1 by ring,
      show j + 2 + 2 * i + 2 = j + 2 * (i + 1) + 2 by ring]
    rfl

/-- `altSeries` is the alternating sum of its terms. -/
theorem altSeries_eq_sum (x2 n j t : Nat) :
    altSeries x2 n j t = ∑ i ∈ Finset.range n, (-1) ^ i * (term (2 ^ 1074) x2 j t i : Int) := by
  induction n generalizing j t with
  | zero => rfl
  | succ n ih =>
    have h : altSeries x2 (n + 1) j t = t - altSeries x2 n (j + 2) (t * x2 / 2 ^ 1074 / ((j + 1) * (j + 2))) := rfl
    rw [h, ih, Finset.sum_range_succ']
    have h2 (i : Nat) : (-1 : Int) ^ (i + 1) * (term (2 ^ 1074) x2 j t (i + 1) : Int) =
        -((-1) ^ i * (term (2 ^ 1074) x2 (j + 2) (t * x2 / 2 ^ 1074 / ((j + 1) * (j + 2))) i : Int)) := by
      rw [term_shift, pow_succ]; ring
    rw [Finset.sum_congr rfl (fun i _ => h2 i), Finset.sum_neg_distrib, term, pow_zero, one_mul]
    ring

/-- A term of the fixed-point series is below the real term, by at most `32^i` units. -/
theorem term_close {u x : Nat} (hu : 0 < u) (hx : x ≤ 4 * u) {j t : Nat} (hj : j ≤ 1)
    (ht : (t : ℝ) = u * ((x / u : ℝ) ^ j / j.factorial)) (i : Nat) :
    (term u (x * x / u) j t i : ℝ) ≤ u * ((x / u : ℝ) ^ (j + 2 * i) / (j + 2 * i).factorial) ∧
      u * ((x / u : ℝ) ^ (j + 2 * i) / (j + 2 * i).factorial) ≤ term u (x * x / u) j t i + 32 ^ i := by
  have hU : (0 : ℝ) < u := by exact_mod_cast hu
  have hX4 : (x / u : ℝ) ≤ 4 := by rw [div_le_iff₀ hU]; exact_mod_cast hx
  have hX0 : (0 : ℝ) ≤ x / u := by positivity
  have hsq1 : ((x * x / u : Nat) : ℝ) ≤ u * (x / u : ℝ) ^ 2 := by
    rw [show (u : ℝ) * (x / u : ℝ) ^ 2 = x * x / u by field_simp, le_div_iff₀ hU]
    exact_mod_cast Nat.div_mul_le_self (x * x) u
  have hsq2 : u * (x / u : ℝ) ^ 2 ≤ ((x * x / u : Nat) : ℝ) + 1 := by
    rw [show (u : ℝ) * (x / u : ℝ) ^ 2 = x * x / u by field_simp, div_le_iff₀ hU, add_mul, one_mul]
    exact_mod_cast (Nat.lt_div_mul_add (a := x * x) hu).le
  generalize x * x / u = x2 at *
  generalize (x / u : ℝ) = X at *
  induction i with
  | zero => simp only [term, mul_zero, add_zero, pow_zero]; rw [← ht]; constructor <;> linarith
  | succ i ih =>
    obtain ⟨ih1, ih2⟩ := ih
    have hTle : X ^ (j + 2 * i) / (j + 2 * i).factorial ≤ 4 * 16 ^ i := by
      refine le_trans (div_le_self (by positivity) (by exact_mod_cast Nat.factorial_pos _)) ?_
      have e1 : X ^ j ≤ 4 := by interval_cases j <;> simp <;> linarith
      have e2 : X ^ 2 ≤ 16 := by nlinarith
      rw [pow_add, pow_mul]
      gcongr
    have hstep : u * (X ^ (j + 2 * (i + 1)) / (j + 2 * (i + 1)).factorial) =
        u * (X ^ (j + 2 * i) / (j + 2 * i).factorial) * X ^ 2 / ((j + 2 * i + 1) * (j + 2 * i + 2) : Nat) := by
      rw [show j + 2 * (i + 1) = j + 2 * i + 1 + 1 by ring, Nat.factorial_succ, Nat.factorial_succ]
      have : ((j + 2 * i).factorial : ℝ) ≠ 0 := by exact_mod_cast (Nat.factorial_pos _).ne'
      push_cast
      field_simp
      ring
    have hD : (1 : ℝ) ≤ ((j + 2 * i + 1) * (j + 2 * i + 2) : Nat) := by
      exact_mod_cast Nat.one_le_iff_ne_zero.mpr (by positivity)
    rw [term, hstep]
    generalize hDD : (j + 2 * i + 1) * (j + 2 * i + 2) = D at *
    generalize X ^ (j + 2 * i) / (j + 2 * i).factorial = S at *
    generalize term u x2 j t i = v at *
    have hD0 : 0 < D := by rw [← hDD]; positivity
    have hDr : (0 : ℝ) < D := by linarith
    -- the two floors
    have f1 : ((v * x2 / u / D : Nat) : ℝ) * D ≤ v * x2 / u := by
      rw [le_div_iff₀ hU]
      have := (Nat.mul_le_mul_right u (Nat.div_mul_le_self (v * x2 / u) D)).trans (Nat.div_mul_le_self (v * x2) u)
      exact_mod_cast this
    have f2 : (v * x2 / u : ℝ) ≤ ((v * x2 / u / D : Nat) : ℝ) * D + D + 1 := by
      have h1 := (Nat.lt_div_mul_add (a := v * x2 / u) hD0).le
      have h2 := (Nat.lt_div_mul_add (a := v * x2) hu).le
      rw [div_le_iff₀ hU]
      have h3 : v * x2 ≤ (v * x2 / u / D * D + D + 1) * u := by nlinarith
      exact_mod_cast h3
    generalize v * x2 / u / D = q at *
    have hv0 : (0 : ℝ) ≤ v := by positivity
    have hX2 : X ^ 2 ≤ 16 := by nlinarith
    have g1 : (v * x2 / u : ℝ) ≤ v * X ^ 2 := by
      rw [div_le_iff₀ hU]; nlinarith [mul_le_mul_of_nonneg_left hsq1 hv0]
    have hvS : (v : ℝ) / u ≤ 4 * 16 ^ i := by
      rw [div_le_iff₀ hU]; nlinarith
    have g2 : v * X ^ 2 ≤ (v * x2 / u : ℝ) + 4 * 16 ^ i := by
      have : v * X ^ 2 ≤ (v * x2 / u : ℝ) + v / u := by
        rw [← add_div, le_div_iff₀ hU]; nlinarith [mul_le_mul_of_nonneg_left hsq2 hv0]
      linarith
    have hp : (16 : ℝ) ^ i ≤ 32 ^ i := by gcongr; norm_num
    have hp1 : (1 : ℝ) ≤ 16 ^ i := one_le_pow₀ (by norm_num)
    have hXX : 0 ≤ X ^ 2 := by positivity
    constructor
    · rw [le_div_iff₀ hDr]
      nlinarith [mul_le_mul_of_nonneg_right ih1 hXX]
    · rw [div_le_iff₀ hDr]
      have h1 : u * S * X ^ 2 ≤ (v + 32 ^ i) * X ^ 2 := mul_le_mul_of_nonneg_right ih2 hXX
      have h2 : (32 : ℝ) ^ i * X ^ 2 ≤ 16 * 32 ^ i := by nlinarith [show (0 : ℝ) < 32 ^ i by positivity]
      have h3 : (32 : ℝ) * 32 ^ i - 1 ≤ (32 * 32 ^ i - 1) * D := le_mul_of_one_le_right (by linarith) hD
      rw [pow_succ (32 : ℝ)]
      linarith

/-- The alternating sum of the terms is within `2^330` units of that of the real terms. -/
theorem sum_close {u x : Nat} (hu : 0 < u) (hx : x ≤ 4 * u) {j t : Nat} (hj : j ≤ 1)
    (ht : (t : ℝ) = u * ((x / u : ℝ) ^ j / j.factorial)) :
    |((∑ i ∈ Finset.range 64, (-1) ^ i * (term u (x * x / u) j t i : Int) : Int) : ℝ) -
      u * ∑ i ∈ Finset.range 64, (-1) ^ i * ((x / u : ℝ) ^ (j + 2 * i) / (j + 2 * i).factorial)| ≤ 2 ^ 330 := by
  push_cast
  rw [Finset.mul_sum, ← Finset.sum_sub_distrib]
  calc _ ≤ ∑ i ∈ Finset.range 64, (32 : ℝ) ^ 64 := by
        refine (Finset.abs_sum_le_sum_abs _ _).trans (Finset.sum_le_sum fun i hi => ?_)
        obtain ⟨h1, h2⟩ := term_close hu hx hj ht i
        rw [show ∀ a b c : ℝ, (-1) ^ i * a - b * ((-1) ^ i * c) = (-1) ^ i * (a - b * c) by intros; ring, abs_mul, abs_pow,
          abs_neg, abs_one, one_pow, one_mul]
        have h3 : (32 : ℝ) ^ i ≤ 32 ^ 64 := pow_le_pow_right₀ (by norm_num) (Finset.mem_range.mp hi).le
        rw [abs_le]
        constructor <;> linarith
    _ ≤ 2 ^ 330 := by
        rw [Finset.sum_const, Finset.card_range, nsmul_eq_mul]
        exact_mod_cast (by decide +kernel : 64 * 32 ^ 64 ≤ 2 ^ 330)

/-- The series of the model, in units of `1 / u`, are within `1 / 2^400` of the real cosine and sine. -/
theorem series_close {u : Nat} (hu : 2 ^ 800 ≤ u) {x : Nat} (hx : x ≤ 4 * u) :
    |((∑ i ∈ Finset.range 64, (-1) ^ i * (term u (x * x / u) 0 u i : Int) : Int) : ℝ) / u - Real.cos (x / u)| ≤ 1 / 2 ^ 400 ∧
    |((∑ i ∈ Finset.range 64, (-1) ^ i * (term u (x * x / u) 1 x i : Int) : Int) : ℝ) / u - Real.sin (x / u)| ≤ 1 / 2 ^ 400 := by
  have hu0 : 0 < u := lt_of_lt_of_le (by positivity) hu
  have hU : (0 : ℝ) < u := by exact_mod_cast hu0
  have hX4 : (x / u : ℝ) ≤ 4 := by rw [div_le_iff₀ hU]; exact_mod_cast hx
  obtain ⟨hc, hs⟩ := series_tail (x := (x / u : ℝ)) (by positivity) hX4
  have c1 := sum_close hu0 hx (j := 0) (t := u) (by omega) (by simp)
  have s1 := sum_close hu0 hx (j := 1) (t := x) (by omega) (by simp; field_simp)
  have key : (2 : ℝ) ^ 330 ≤ u * (1 / 2 ^ 401) := by
    have : (2 : ℝ) ^ 800 ≤ u := by exact_mod_cast hu
    refine le_trans ?_ (mul_le_mul_of_nonneg_right this (by positivity))
    rw [mul_one_div, le_div_iff₀ (by positivity), ← pow_add]
    exact pow_le_pow_right₀ (by norm_num) (by norm_num)
  have fin {A S R : ℝ} (h1 : |A - u * S| ≤ 2 ^ 330) (h2 : |R - S| ≤ 1 / 2 ^ 401) : |A / u - R| ≤ 1 / 2 ^ 400 := by
    have h3 : |A / u - S| ≤ 1 / 2 ^ 401 := by
      rw [show A / u - S = (A - u * S) / u by field_simp, abs_div, abs_of_pos hU, div_le_iff₀ hU, mul_comm (1 / _)]
      exact h1.trans key
    calc |A / u - R| = |(A / u - S) - (R - S)| := by congr 1; ring
      _ ≤ |A / u - S| + |R - S| := abs_sub _ _
      _ ≤ 1 / 2 ^ 401 + 1 / 2 ^ 401 := add_le_add h3 h2
      _ = 1 / 2 ^ 400 := by rw [pow_succ (2 : ℝ) 400, ← one_div_mul_one_div, ← mul_add, add_halves, mul_one]
  constructor
  · refine fin c1 ?_
    simpa only [zero_add] using hc
  · refine fin s1 ?_
    simpa only [add_comm 1] using hs

theorem unit_ge : 2 ^ 800 ≤ 2 ^ 1074 := Nat.pow_le_pow_right (by decide) (by decide)

/-- The cosine of the model (R57, log 11). -/
theorem cosUnits_close {x : Nat} (hx : x ≤ 4 * 2 ^ 1074) :
    |(cosUnits x : ℝ) / 2 ^ 1074 - Real.cos (x / 2 ^ 1074)| ≤ 1 / 2 ^ 400 := by
  unfold cosUnits seriesTerms
  rw [altSeries_eq_sum]
  exact_mod_cast (series_close unit_ge hx).1

/-- The sine of the model (R57, log 11). -/
theorem sinUnits_close {x : Nat} (hx : x ≤ 4 * 2 ^ 1074) :
    |(sinUnits x : ℝ) / 2 ^ 1074 - Real.sin (x / 2 ^ 1074)| ≤ 1 / 2 ^ 400 := by
  unfold sinUnits seriesTerms
  rw [altSeries_eq_sum]
  exact_mod_cast (series_close unit_ge hx).2

/-! ## The angle -/

/-- A quotient by at least one, to three bits below the unit, is at most the dividend. -/
theorem sticky_le {p d : Nat} (hd0 : 0 < d) (hd : 2 ^ 1074 ≤ d) : sticky (p * 2 ^ 1076) d ≤ 8 * p := by
  have h := (sticky_le_iff (n := p * 2 ^ 1076) hd0 (4 * p)).1.mpr (by
    rw [show 1076 = 2 + 1074 from rfl, pow_add]
    generalize 2 ^ 1074 = u at hd
    have : p * (2 ^ 2 * u) ≤ 4 * p * d := by
      calc p * (2 ^ 2 * u) = 4 * p * u := by ring
        _ ≤ 4 * p * d := Nat.mul_le_mul_left _ hd
    exact_mod_cast this)
  omega

/-- The rounded angle is negative, and at most 4 in magnitude. -/
theorem angle_close {k : Nat} (h1 : 1 ≤ k) (hk : k < 2 ^ 53) :
    sign (angle k) = true ∧ units (angle k) ≤ 4 * 2 ^ 1074 := by
  obtain ⟨hf, hu⟩ := units_ofNat hk
  have hs : sign (ofNat k) = false := sign_round _ _ _
  have hd0 : 0 < units (ofNat k) := by rw [hu]; exact Nat.mul_pos h1 (Nat.two_pow_pos _)
  have hz : mag (ofNat k) ≠ 0 := by
    intro h
    rw [units_eq, h] at hd0
    exact absurd hd0 (by decide)
  have hm : mag (ofNat k) < infMag := by simpa [isFinite] using hf
  have hdiv : angle k = round true (sticky (units (neg pi64) * 2 ^ 1076) (units (ofNat k))) 3 := by
    unfold angle div
    have hp : isNaN (neg pi64) = false ∧ isInf (neg pi64) = false ∧ sign (neg pi64) = true := by decide
    have hn : isNaN (ofNat k) = false ∧ isInf (ofNat k) = false ∧ isZero (ofNat k) = false := by
      unfold isNaN isInf isZero
      simp only [decide_eq_false_iff_not]
      omega
    simp only [hp, hn, hs, Bool.or_self, Bool.false_eq_true, if_false]
    rfl
  rw [hdiv]
  refine ⟨sign_round _ _ _, ?_⟩
  set m := sticky (units (neg pi64) * 2 ^ 1076) (units (ofNat k)) with hmdef
  have hle : m ≤ 8 * units (neg pi64) := sticky_le hd0 (by rw [hu]; exact Nat.le_mul_of_pos_left _ h1)
  have hb := (roundBits_nearest m 3 false (mag (neg pi64))).1
  simp only [Bool.false_eq_true, if_false, ← units_eq] at hb
  have h4 : unitsOf (roundBits m 3) ≤ units (neg pi64) := by omega
  have hpi : units (neg pi64) ≤ 4 * 2 ^ 1074 := by decide +kernel
  have hlt : roundBits m 3 < infMag := by
    by_contra hc
    have := unitsOf_strictMono.monotone (not_lt.mp hc)
    have h5 : units (neg pi64) < unitsOf infMag := by decide +kernel
    omega
  rw [units_round hlt]
  omega

/-! ## From the series to the entries -/

/-- Every entry is the series rounded once (R21). -/
theorem nearest_isRounded (v : Int) : IsRounded v 1 (nearest v) := by
  have h := round_isRounded (decide (v < 0)) v.natAbs 0
  have hv : (if decide (v < 0) = true then -(v.natAbs : Int) else v.natAbs) = v := by
    rcases lt_or_ge v 0 with hn | hn
    · rw [if_pos (by simpa using hn)]; omega
    · rw [if_neg (by simpa using hn)]; omega
  rwa [hv, pow_zero] at h

/-- Whether the value `v`, in units, lies by more than `2^674` units (`2^-400`) on `r`'s side of the midpoints between `r` and its two
neighbours. -/
def hasGap (r : F64) (v : Int) : Bool :=
  let w := if sign r then -v else v
  let here := unitsOf (mag r)
  decide (0 < mag r) && decide ((unitsOf (mag r - 1) + here : Nat) + 2 * 2 ^ 674 < 2 * w) &&
    decide (2 * w + 2 * 2 ^ 674 < (here + unitsOf (mag r + 1) : Nat))

/-- Across such a gap `r` is also the value nearest to every real number within `2^-400` of `v`. -/
theorem nearest_of_hasGap {r : F64} {v : Int} (h : hasGap r v = true) {c : ℝ} (hc : |(v : ℝ) / 2 ^ 1074 - c| ≤ 1 / 2 ^ 400)
    {y : F64} (hy : value y ≠ value r) :
    |(value r : ℝ) / 2 ^ 1074 - c| < |(value y : ℝ) / 2 ^ 1074 - c| := by
  unfold hasGap at h
  simp only [Bool.and_eq_true, decide_eq_true_eq] at h
  obtain ⟨⟨hm, hlo⟩, hhi⟩ := h
  -- everything in units, in the direction of `r`
  have hU : (0 : ℝ) < 2 ^ 1074 := by positivity
  obtain ⟨C, rfl⟩ : ∃ C : ℝ, c = C / 2 ^ 1074 := ⟨c * 2 ^ 1074, by rw [mul_div_cancel_right₀ _ hU.ne']⟩
  have hd : (1 : ℝ) / 2 ^ 400 * 2 ^ 1074 = ((2 ^ 674 : Int) : ℝ) := by
    rw [show (1074 : Nat) = 400 + 674 from rfl, pow_add]
    push_cast
    rw [← mul_assoc, one_div_mul_cancel (by positivity), one_mul]
  rw [← sub_div, abs_div, abs_of_pos hU, div_le_iff₀ hU, hd] at hc
  rw [← sub_div, ← sub_div, abs_div, abs_div, abs_of_pos hU, div_lt_div_iff_of_pos_right hU]
  generalize (2 : Int) ^ 674 = d at *
  have hup : unitsOf (mag r - 1) < unitsOf (mag r) := unitsOf_strictMono (by omega)
  have hup2 : unitsOf (mag r) < unitsOf (mag r + 1) := unitsOf_strictMono (by omega)
  have hside : ∀ z : Int, (z = unitsOf (mag y) ∨ z = -(unitsOf (mag y) : Int)) →
      z ≠ unitsOf (mag r) → z ≤ unitsOf (mag r - 1) ∨ (unitsOf (mag r + 1) : Int) ≤ z := by
    intro z hz hne
    rcases lt_trichotomy (mag y) (mag r) with hlt | heq | hgt
    · have := unitsOf_strictMono.monotone (show mag y ≤ mag r - 1 by omega)
      omega
    · rw [heq] at hz
      omega
    · have := unitsOf_strictMono.monotone (show mag r + 1 ≤ mag y by omega)
      omega
  have hvy : value y = unitsOf (mag y) ∨ value y = -(unitsOf (mag y) : Int) := by
    unfold value
    rw [units_eq]
    split <;> simp
  have hvr : value r = if sign r then -(unitsOf (mag r) : Int) else unitsOf (mag r) := rfl
  generalize unitsOf (mag r) = here at *
  generalize unitsOf (mag r - 1) = lo at *
  generalize unitsOf (mag r + 1) = hi at *
  have near {z w : Int} {D : ℝ} (hz : z ≤ lo ∨ (hi : Int) ≤ z) (hw : |(w : ℝ) - D| ≤ d) (h1 : ((lo + here : Nat) : Int) + 2 * d < 2 * w)
      (h2 : 2 * w + 2 * d < ((here + hi : Nat) : Int)) : |(here : ℝ) - D| < |(z : ℝ) - D| := by
    have h1' : (lo + here : ℝ) + 2 * d < 2 * w := by exact_mod_cast h1
    have h2' : (2 * w + 2 * d : ℝ) < here + hi := by exact_mod_cast h2
    have hl : (lo : ℝ) < here := by exact_mod_cast hup
    have hh : (here : ℝ) < hi := by exact_mod_cast hup2
    obtain ⟨g1, g2⟩ := abs_le.mp hw
    rcases hz with hz | hz
    · have hz' : (z : ℝ) ≤ lo := by exact_mod_cast hz
      rw [abs_sub_comm (z : ℝ)]
      exact lt_of_lt_of_le (abs_lt.mpr ⟨by linarith, by linarith⟩) (le_abs_self _)
    · have hz' : (hi : ℝ) ≤ z := by exact_mod_cast hz
      exact lt_of_lt_of_le (abs_lt.mpr ⟨by linarith, by linarith⟩) (le_abs_self _)
  cases hs : sign r
  · simp only [hs, Bool.false_eq_true, if_false] at hlo hhi hvr
    rw [hvr] at hy ⊢
    exact near (hside _ hvy hy) hc hlo hhi
  · simp only [hs, if_true] at hlo hhi hvr
    rw [hvr] at hy ⊢
    have hc' : |((-v : Int) : ℝ) - -C| ≤ d := by
      rw [show ((-v : Int) : ℝ) - -C = -(v - C) by push_cast; ring, abs_neg]; exact hc
    have h := near (z := -value y) (hside _ (by omega) (by omega)) hc' hlo hhi
    rw [show (((-(here : Int)) : Int) : ℝ) - C = -((here : ℝ) - -C) by push_cast; ring, abs_neg,
      show (value y : ℝ) - C = -(((-value y : Int) : ℝ) - -C) by push_cast; ring, abs_neg]
    exact h

/-- The entries that the butterfly stages read, at the powers of two below `2^17`, have such gaps. -/
theorem twiddles_haveGaps : (List.range 17).all (fun t =>
    hasGap (twcos (2 ^ t)) (cosUnits (units (angle (2 ^ t)))) &&
      hasGap (twsin (2 ^ t)) (-(sinUnits (units (angle (2 ^ t)))))) = true := by decide +kernel

end Sys2Proof.Rom
end

