-- ==== Sys2Proof/Laws/State.lean ====
section
/-! SUPPORT. One lemma per field for each named update of the state, so that no proof unfolds a record update. -/

namespace Sys2Proof.Machine

variable (s : State)

/-! ## Successful completion (R144) -/

@[simp] theorem complete_params (op : Byte) : (s.complete op).params = s.params := rfl
@[simp] theorem complete_ops (op : Byte) : (s.complete op).ops = s.ops := rfl
@[simp] theorem complete_irqEn (op : Byte) : (s.complete op).irqEn = s.irqEn := rfl
@[simp] theorem complete_flags (op : Byte) : (s.complete op).flags = { s.flags with done := true } := rfl
@[simp] theorem complete_error (op : Byte) : (s.complete op).error = errorWord op 0 0 := rfl
@[simp] theorem complete_cmd (op : Byte) : (s.complete op).cmd = s.cmd := rfl
@[simp] theorem complete_cmdCount (op : Byte) : (s.complete op).cmdCount = s.cmdCount + 1 := rfl
@[simp] theorem complete_n (op : Byte) : (s.complete op).n = s.n := rfl
@[simp] theorem complete_log2n (op : Byte) : (s.complete op).log2n = s.log2n := rfl
@[simp] theorem complete_sampleRate (op : Byte) : (s.complete op).sampleRate = s.sampleRate := rfl
@[simp] theorem complete_bandwidth (op : Byte) : (s.complete op).bandwidth = s.bandwidth := rfl
@[simp] theorem complete_peak (op : Byte) : (s.complete op).peak = s.peak := rfl
@[simp] theorem complete_peakBand (op : Byte) : (s.complete op).peakBand = s.peakBand := rfl
@[simp] theorem complete_result0 (op : Byte) : (s.complete op).result0 = s.result0 := rfl
@[simp] theorem complete_result1 (op : Byte) : (s.complete op).result1 = s.result1 := rfl
@[simp] theorem complete_real (op : Byte) : (s.complete op).real = s.real := rfl
@[simp] theorem complete_imag (op : Byte) : (s.complete op).imag = s.imag := rfl
@[simp] theorem complete_spectrum (op : Byte) : (s.complete op).spectrum = s.spectrum := rfl
@[simp] theorem complete_bitrev (op : Byte) : (s.complete op).bitrev = s.bitrev := rfl
@[simp] theorem complete_dmem (op : Byte) : (s.complete op).dmem = s.dmem := rfl
@[simp] theorem complete_running (op : Byte) : (s.complete op).running = none := rfl
@[simp] theorem complete_held (op : Byte) : (s.complete op).held = s.held := rfl
@[simp] theorem complete_inputs (op : Byte) : (s.complete op).inputs = s.inputs := rfl
@[simp] theorem complete_reads (op : Byte) : (s.complete op).reads = s.reads := rfl
@[simp] theorem complete_draws (op : Byte) : (s.complete op).draws = s.draws := rfl

/-! ## Error completion (R256) -/

@[simp] theorem raise_params (op : Byte) (e : CmdError) : (s.raise op e).params = s.params := rfl
@[simp] theorem raise_ops (op : Byte) (e : CmdError) : (s.raise op e).ops = s.ops := rfl
@[simp] theorem raise_irqEn (op : Byte) (e : CmdError) : (s.raise op e).irqEn = s.irqEn := rfl
@[simp] theorem raise_flags (op : Byte) (e : CmdError) : (s.raise op e).flags = { s.flags with done := true, err := true } := rfl
@[simp] theorem raise_error (op : Byte) (e : CmdError) : (s.raise op e).error = errorWord op e.detail e.code := rfl
@[simp] theorem raise_cmd (op : Byte) (e : CmdError) : (s.raise op e).cmd = s.cmd := rfl
@[simp] theorem raise_cmdCount (op : Byte) (e : CmdError) : (s.raise op e).cmdCount = s.cmdCount + 1 := rfl
@[simp] theorem raise_n (op : Byte) (e : CmdError) : (s.raise op e).n = s.n := rfl
@[simp] theorem raise_log2n (op : Byte) (e : CmdError) : (s.raise op e).log2n = s.log2n := rfl
@[simp] theorem raise_sampleRate (op : Byte) (e : CmdError) : (s.raise op e).sampleRate = s.sampleRate := rfl
@[simp] theorem raise_bandwidth (op : Byte) (e : CmdError) : (s.raise op e).bandwidth = s.bandwidth := rfl
@[simp] theorem raise_peak (op : Byte) (e : CmdError) : (s.raise op e).peak = s.peak := rfl
@[simp] theorem raise_peakBand (op : Byte) (e : CmdError) : (s.raise op e).peakBand = s.peakBand := rfl
@[simp] theorem raise_result0 (op : Byte) (e : CmdError) : (s.raise op e).result0 = s.result0 := rfl
@[simp] theorem raise_result1 (op : Byte) (e : CmdError) : (s.raise op e).result1 = s.result1 := rfl
@[simp] theorem raise_real (op : Byte) (e : CmdError) : (s.raise op e).real = s.real := rfl
@[simp] theorem raise_imag (op : Byte) (e : CmdError) : (s.raise op e).imag = s.imag := rfl
@[simp] theorem raise_spectrum (op : Byte) (e : CmdError) : (s.raise op e).spectrum = s.spectrum := rfl
@[simp] theorem raise_bitrev (op : Byte) (e : CmdError) : (s.raise op e).bitrev = s.bitrev := rfl
@[simp] theorem raise_dmem (op : Byte) (e : CmdError) : (s.raise op e).dmem = s.dmem := rfl
@[simp] theorem raise_running (op : Byte) (e : CmdError) : (s.raise op e).running = none := rfl
@[simp] theorem raise_held (op : Byte) (e : CmdError) : (s.raise op e).held = s.held := rfl
@[simp] theorem raise_inputs (op : Byte) (e : CmdError) : (s.raise op e).inputs = s.inputs := rfl
@[simp] theorem raise_reads (op : Byte) (e : CmdError) : (s.raise op e).reads = s.reads := rfl
@[simp] theorem raise_draws (op : Byte) (e : CmdError) : (s.raise op e).draws = s.draws := rfl

/-! ## Issue (R140) -/

@[simp] theorem issue_params (w : Word) : (s.issue w).params = s.params := rfl
@[simp] theorem issue_ops (w : Word) : (s.issue w).ops = s.ops := rfl
@[simp] theorem issue_irqEn (w : Word) : (s.issue w).irqEn = s.irqEn := rfl
@[simp] theorem issue_flags (w : Word) : (s.issue w).flags = s.flags := rfl
@[simp] theorem issue_error (w : Word) : (s.issue w).error = s.error := rfl
@[simp] theorem issue_cmd (w : Word) : (s.issue w).cmd = w := rfl
@[simp] theorem issue_cmdCount (w : Word) : (s.issue w).cmdCount = s.cmdCount := rfl
@[simp] theorem issue_n (w : Word) : (s.issue w).n = s.n := rfl
@[simp] theorem issue_log2n (w : Word) : (s.issue w).log2n = s.log2n := rfl
@[simp] theorem issue_sampleRate (w : Word) : (s.issue w).sampleRate = s.sampleRate := rfl
@[simp] theorem issue_bandwidth (w : Word) : (s.issue w).bandwidth = s.bandwidth := rfl
@[simp] theorem issue_peak (w : Word) : (s.issue w).peak = s.peak := rfl
@[simp] theorem issue_peakBand (w : Word) : (s.issue w).peakBand = s.peakBand := rfl
@[simp] theorem issue_result0 (w : Word) : (s.issue w).result0 = s.result0 := rfl
@[simp] theorem issue_result1 (w : Word) : (s.issue w).result1 = s.result1 := rfl
@[simp] theorem issue_real (w : Word) : (s.issue w).real = s.real := rfl
@[simp] theorem issue_imag (w : Word) : (s.issue w).imag = s.imag := rfl
@[simp] theorem issue_spectrum (w : Word) : (s.issue w).spectrum = s.spectrum := rfl
@[simp] theorem issue_bitrev (w : Word) : (s.issue w).bitrev = s.bitrev := rfl
@[simp] theorem issue_dmem (w : Word) : (s.issue w).dmem = s.dmem := rfl
@[simp] theorem issue_running (w : Word) : (s.issue w).running = some { word := w, ops := s.ops } := rfl
@[simp] theorem issue_held (w : Word) : (s.issue w).held = s.held := rfl
@[simp] theorem issue_inputs (w : Word) : (s.issue w).inputs = s.inputs := rfl
@[simp] theorem issue_reads (w : Word) : (s.issue w).reads = s.reads := rfl
@[simp] theorem issue_draws (w : Word) : (s.issue w).draws = s.draws := rfl

@[simp] theorem issueNext_params (w : Word) : (s.issueNext w).params = s.params := rfl
@[simp] theorem issueNext_ops (w : Word) : (s.issueNext w).ops = s.ops := rfl
@[simp] theorem issueNext_irqEn (w : Word) : (s.issueNext w).irqEn = s.irqEn := rfl
@[simp] theorem issueNext_flags (w : Word) : (s.issueNext w).flags = s.flags := rfl
@[simp] theorem issueNext_error (w : Word) : (s.issueNext w).error = s.error := rfl
@[simp] theorem issueNext_cmd (w : Word) : (s.issueNext w).cmd = w := rfl
@[simp] theorem issueNext_cmdCount (w : Word) : (s.issueNext w).cmdCount = s.cmdCount := rfl
@[simp] theorem issueNext_n (w : Word) : (s.issueNext w).n = s.n := rfl
@[simp] theorem issueNext_log2n (w : Word) : (s.issueNext w).log2n = s.log2n := rfl
@[simp] theorem issueNext_sampleRate (w : Word) : (s.issueNext w).sampleRate = s.sampleRate := rfl
@[simp] theorem issueNext_bandwidth (w : Word) : (s.issueNext w).bandwidth = s.bandwidth := rfl
@[simp] theorem issueNext_peak (w : Word) : (s.issueNext w).peak = s.peak := rfl
@[simp] theorem issueNext_peakBand (w : Word) : (s.issueNext w).peakBand = s.peakBand := rfl
@[simp] theorem issueNext_result0 (w : Word) : (s.issueNext w).result0 = s.result0 := rfl
@[simp] theorem issueNext_result1 (w : Word) : (s.issueNext w).result1 = s.result1 := rfl
@[simp] theorem issueNext_real (w : Word) : (s.issueNext w).real = s.real := rfl
@[simp] theorem issueNext_imag (w : Word) : (s.issueNext w).imag = s.imag := rfl
@[simp] theorem issueNext_spectrum (w : Word) : (s.issueNext w).spectrum = s.spectrum := rfl
@[simp] theorem issueNext_bitrev (w : Word) : (s.issueNext w).bitrev = s.bitrev := rfl
@[simp] theorem issueNext_dmem (w : Word) : (s.issueNext w).dmem = s.dmem := rfl
@[simp] theorem issueNext_running (w : Word) : (s.issueNext w).running = some { word := w, ops := s.ops } := rfl
@[simp] theorem issueNext_held (w : Word) : (s.issueNext w).held = s.held := rfl
@[simp] theorem issueNext_inputs (w : Word) : (s.issueNext w).inputs = .engine :: s.inputs := rfl
@[simp] theorem issueNext_reads (w : Word) : (s.issueNext w).reads = s.reads := rfl
@[simp] theorem issueNext_draws (w : Word) : (s.issueNext w).draws = s.draws := rfl

/-! ## Power-on reset (R290) -/

@[simp] theorem powerOn_params (p : Params) : (State.powerOn p).params = p := rfl
@[simp] theorem powerOn_ops (p : Params) : (State.powerOn p).ops = Operands.zero := rfl
@[simp] theorem powerOn_irqEn (p : Params) : (State.powerOn p).irqEn = false := rfl
@[simp] theorem powerOn_flags (p : Params) : (State.powerOn p).flags = Flags.clear := rfl
@[simp] theorem powerOn_error (p : Params) : (State.powerOn p).error = 0 := rfl
@[simp] theorem powerOn_cmd (p : Params) : (State.powerOn p).cmd = 0 := rfl
@[simp] theorem powerOn_cmdCount (p : Params) : (State.powerOn p).cmdCount = 0 := rfl
@[simp] theorem powerOn_n (p : Params) : (State.powerOn p).n = 0 := rfl
@[simp] theorem powerOn_log2n (p : Params) : (State.powerOn p).log2n = 0 := rfl
@[simp] theorem powerOn_sampleRate (p : Params) : (State.powerOn p).sampleRate = 0 := rfl
@[simp] theorem powerOn_bandwidth (p : Params) : (State.powerOn p).bandwidth = 0 := rfl
@[simp] theorem powerOn_peak (p : Params) : (State.powerOn p).peak = 0 := rfl
@[simp] theorem powerOn_peakBand (p : Params) : (State.powerOn p).peakBand = 0 := rfl
@[simp] theorem powerOn_result0 (p : Params) : (State.powerOn p).result0 = 0 := rfl
@[simp] theorem powerOn_result1 (p : Params) : (State.powerOn p).result1 = 0 := rfl
@[simp] theorem powerOn_real (p : Params) : (State.powerOn p).real = [] := rfl
@[simp] theorem powerOn_imag (p : Params) : (State.powerOn p).imag = [] := rfl
@[simp] theorem powerOn_spectrum (p : Params) : (State.powerOn p).spectrum = [] := rfl
@[simp] theorem powerOn_bitrev (p : Params) : (State.powerOn p).bitrev = [] := rfl
@[simp] theorem powerOn_dmem (p : Params) : (State.powerOn p).dmem = [] := rfl
@[simp] theorem powerOn_running (p : Params) : (State.powerOn p).running = none := rfl
@[simp] theorem powerOn_held (p : Params) : (State.powerOn p).held = none := rfl
@[simp] theorem powerOn_inputs (p : Params) : (State.powerOn p).inputs = [] := rfl
@[simp] theorem powerOn_reads (p : Params) : (State.powerOn p).reads = [] := rfl
@[simp] theorem powerOn_draws (p : Params) : (State.powerOn p).draws = 0 := rfl

@[simp] theorem powerOnReset_params : s.powerOnReset.params = s.params := rfl
@[simp] theorem powerOnReset_ops : s.powerOnReset.ops = Operands.zero := rfl
@[simp] theorem powerOnReset_irqEn : s.powerOnReset.irqEn = false := rfl
@[simp] theorem powerOnReset_flags : s.powerOnReset.flags = Flags.clear := rfl
@[simp] theorem powerOnReset_error : s.powerOnReset.error = 0 := rfl
@[simp] theorem powerOnReset_cmd : s.powerOnReset.cmd = 0 := rfl
@[simp] theorem powerOnReset_cmdCount : s.powerOnReset.cmdCount = 0 := rfl
@[simp] theorem powerOnReset_n : s.powerOnReset.n = 0 := rfl
@[simp] theorem powerOnReset_log2n : s.powerOnReset.log2n = 0 := rfl
@[simp] theorem powerOnReset_sampleRate : s.powerOnReset.sampleRate = 0 := rfl
@[simp] theorem powerOnReset_bandwidth : s.powerOnReset.bandwidth = 0 := rfl
@[simp] theorem powerOnReset_peak : s.powerOnReset.peak = 0 := rfl
@[simp] theorem powerOnReset_peakBand : s.powerOnReset.peakBand = 0 := rfl
@[simp] theorem powerOnReset_result0 : s.powerOnReset.result0 = 0 := rfl
@[simp] theorem powerOnReset_result1 : s.powerOnReset.result1 = 0 := rfl
@[simp] theorem powerOnReset_real : s.powerOnReset.real = [] := rfl
@[simp] theorem powerOnReset_imag : s.powerOnReset.imag = [] := rfl
@[simp] theorem powerOnReset_spectrum : s.powerOnReset.spectrum = [] := rfl
@[simp] theorem powerOnReset_bitrev : s.powerOnReset.bitrev = [] := rfl
@[simp] theorem powerOnReset_dmem : s.powerOnReset.dmem = [] := rfl
@[simp] theorem powerOnReset_running : s.powerOnReset.running = none := rfl
@[simp] theorem powerOnReset_held : s.powerOnReset.held = none := rfl
@[simp] theorem powerOnReset_inputs : s.powerOnReset.inputs = s.inputs := rfl
@[simp] theorem powerOnReset_reads : s.powerOnReset.reads = s.reads := rfl
@[simp] theorem powerOnReset_draws : s.powerOnReset.draws = s.draws := rfl

/-! ## Soft reset (R292) -/

@[simp] theorem softReset_params : s.softReset.params = s.params := rfl
@[simp] theorem softReset_ops : s.softReset.ops = Operands.zero := rfl
@[simp] theorem softReset_irqEn : s.softReset.irqEn = false := rfl
@[simp] theorem softReset_flags : s.softReset.flags = Flags.clear := rfl
@[simp] theorem softReset_error : s.softReset.error = 0 := rfl
@[simp] theorem softReset_cmd : s.softReset.cmd = 0 := rfl
@[simp] theorem softReset_cmdCount : s.softReset.cmdCount = 0 := rfl
@[simp] theorem softReset_n : s.softReset.n = 0 := rfl
@[simp] theorem softReset_log2n : s.softReset.log2n = 0 := rfl
@[simp] theorem softReset_sampleRate : s.softReset.sampleRate = 0 := rfl
@[simp] theorem softReset_bandwidth : s.softReset.bandwidth = 0 := rfl
@[simp] theorem softReset_peak : s.softReset.peak = 0 := rfl
@[simp] theorem softReset_peakBand : s.softReset.peakBand = 0 := rfl
@[simp] theorem softReset_result0 : s.softReset.result0 = 0 := rfl
@[simp] theorem softReset_result1 : s.softReset.result1 = 0 := rfl
@[simp] theorem softReset_real : s.softReset.real = s.abort.real := rfl
@[simp] theorem softReset_imag : s.softReset.imag = s.abort.imag := rfl
@[simp] theorem softReset_spectrum : s.softReset.spectrum = s.abort.spectrum := rfl
@[simp] theorem softReset_bitrev : s.softReset.bitrev = s.abort.bitrev := rfl
@[simp] theorem softReset_dmem : s.softReset.dmem = s.abort.dmem := rfl
@[simp] theorem softReset_running : s.softReset.running = none := rfl
@[simp] theorem softReset_held : s.softReset.held = s.held := rfl
@[simp] theorem softReset_inputs : s.softReset.inputs = s.inputs := rfl
@[simp] theorem softReset_reads : s.softReset.reads = s.reads := rfl
@[simp] theorem softReset_draws : s.softReset.draws = s.draws := rfl

/-! ## CalcSpectrum (R159) changes only SPECTRUM, PEAK, PEAK_BAND and the draw counter -/

@[simp] theorem calcSpectrum_params (re im : List F64) : (s.calcSpectrum re im).params = s.params := rfl
@[simp] theorem calcSpectrum_ops (re im : List F64) : (s.calcSpectrum re im).ops = s.ops := rfl
@[simp] theorem calcSpectrum_irqEn (re im : List F64) : (s.calcSpectrum re im).irqEn = s.irqEn := rfl
@[simp] theorem calcSpectrum_flags (re im : List F64) : (s.calcSpectrum re im).flags = s.flags := rfl
@[simp] theorem calcSpectrum_error (re im : List F64) : (s.calcSpectrum re im).error = s.error := rfl
@[simp] theorem calcSpectrum_cmd (re im : List F64) : (s.calcSpectrum re im).cmd = s.cmd := rfl
@[simp] theorem calcSpectrum_cmdCount (re im : List F64) : (s.calcSpectrum re im).cmdCount = s.cmdCount := rfl
@[simp] theorem calcSpectrum_n (re im : List F64) : (s.calcSpectrum re im).n = s.n := rfl
@[simp] theorem calcSpectrum_log2n (re im : List F64) : (s.calcSpectrum re im).log2n = s.log2n := rfl
@[simp] theorem calcSpectrum_sampleRate (re im : List F64) : (s.calcSpectrum re im).sampleRate = s.sampleRate := rfl
@[simp] theorem calcSpectrum_bandwidth (re im : List F64) : (s.calcSpectrum re im).bandwidth = s.bandwidth := rfl
@[simp] theorem calcSpectrum_result0 (re im : List F64) : (s.calcSpectrum re im).result0 = s.result0 := rfl
@[simp] theorem calcSpectrum_result1 (re im : List F64) : (s.calcSpectrum re im).result1 = s.result1 := rfl
@[simp] theorem calcSpectrum_real (re im : List F64) : (s.calcSpectrum re im).real = s.real := rfl
@[simp] theorem calcSpectrum_imag (re im : List F64) : (s.calcSpectrum re im).imag = s.imag := rfl
@[simp] theorem calcSpectrum_bitrev (re im : List F64) : (s.calcSpectrum re im).bitrev = s.bitrev := rfl
@[simp] theorem calcSpectrum_dmem (re im : List F64) : (s.calcSpectrum re im).dmem = s.dmem := rfl
@[simp] theorem calcSpectrum_running (re im : List F64) : (s.calcSpectrum re im).running = s.running := rfl
@[simp] theorem calcSpectrum_held (re im : List F64) : (s.calcSpectrum re im).held = s.held := rfl
@[simp] theorem calcSpectrum_inputs (re im : List F64) : (s.calcSpectrum re im).inputs = s.inputs := rfl
@[simp] theorem calcSpectrum_reads (re im : List F64) : (s.calcSpectrum re im).reads = s.reads := rfl

/-! ## INV's negated input (R155) -/

@[simp] theorem writeImagInput_params (xi : Bool) (imv : List F64) : (s.writeImagInput xi imv).params = s.params := by
  cases xi <;> rfl
@[simp] theorem writeImagInput_ops (xi : Bool) (imv : List F64) : (s.writeImagInput xi imv).ops = s.ops := by
  cases xi <;> rfl
@[simp] theorem writeImagInput_irqEn (xi : Bool) (imv : List F64) : (s.writeImagInput xi imv).irqEn = s.irqEn := by
  cases xi <;> rfl
@[simp] theorem writeImagInput_flags (xi : Bool) (imv : List F64) : (s.writeImagInput xi imv).flags = s.flags := by
  cases xi <;> rfl
@[simp] theorem writeImagInput_error (xi : Bool) (imv : List F64) : (s.writeImagInput xi imv).error = s.error := by
  cases xi <;> rfl
@[simp] theorem writeImagInput_cmd (xi : Bool) (imv : List F64) : (s.writeImagInput xi imv).cmd = s.cmd := by
  cases xi <;> rfl
@[simp] theorem writeImagInput_cmdCount (xi : Bool) (imv : List F64) : (s.writeImagInput xi imv).cmdCount = s.cmdCount := by
  cases xi <;> rfl
@[simp] theorem writeImagInput_n (xi : Bool) (imv : List F64) : (s.writeImagInput xi imv).n = s.n := by
  cases xi <;> rfl
@[simp] theorem writeImagInput_log2n (xi : Bool) (imv : List F64) : (s.writeImagInput xi imv).log2n = s.log2n := by
  cases xi <;> rfl
@[simp] theorem writeImagInput_sampleRate (xi : Bool) (imv : List F64) : (s.writeImagInput xi imv).sampleRate = s.sampleRate := by
  cases xi <;> rfl
@[simp] theorem writeImagInput_bandwidth (xi : Bool) (imv : List F64) : (s.writeImagInput xi imv).bandwidth = s.bandwidth := by
  cases xi <;> rfl
@[simp] theorem writeImagInput_peak (xi : Bool) (imv : List F64) : (s.writeImagInput xi imv).peak = s.peak := by
  cases xi <;> rfl
@[simp] theorem writeImagInput_peakBand (xi : Bool) (imv : List F64) : (s.writeImagInput xi imv).peakBand = s.peakBand := by
  cases xi <;> rfl
@[simp] theorem writeImagInput_result0 (xi : Bool) (imv : List F64) : (s.writeImagInput xi imv).result0 = s.result0 := by
  cases xi <;> rfl
@[simp] theorem writeImagInput_result1 (xi : Bool) (imv : List F64) : (s.writeImagInput xi imv).result1 = s.result1 := by
  cases xi <;> rfl
@[simp] theorem writeImagInput_real (xi : Bool) (imv : List F64) : (s.writeImagInput xi imv).real = s.real := by
  cases xi <;> rfl
@[simp] theorem writeImagInput_spectrum (xi : Bool) (imv : List F64) : (s.writeImagInput xi imv).spectrum = s.spectrum := by
  cases xi <;> rfl
@[simp] theorem writeImagInput_bitrev (xi : Bool) (imv : List F64) : (s.writeImagInput xi imv).bitrev = s.bitrev := by
  cases xi <;> rfl
@[simp] theorem writeImagInput_running (xi : Bool) (imv : List F64) : (s.writeImagInput xi imv).running = s.running := by
  cases xi <;> rfl
@[simp] theorem writeImagInput_held (xi : Bool) (imv : List F64) : (s.writeImagInput xi imv).held = s.held := by
  cases xi <;> rfl
@[simp] theorem writeImagInput_inputs (xi : Bool) (imv : List F64) : (s.writeImagInput xi imv).inputs = s.inputs := by
  cases xi <;> rfl
@[simp] theorem writeImagInput_reads (xi : Bool) (imv : List F64) : (s.writeImagInput xi imv).reads = s.reads := by
  cases xi <;> rfl
@[simp] theorem writeImagInput_draws (xi : Bool) (imv : List F64) : (s.writeImagInput xi imv).draws = s.draws := by
  cases xi <;> rfl

@[simp] theorem writeImagInput_imag_bank (imv : List F64) :
    (s.writeImagInput false imv).imag = s.imag.writeRange 0 imv := rfl

@[simp] theorem writeImagInput_dmem_bank (imv : List F64) : (s.writeImagInput false imv).dmem = s.dmem := rfl

@[simp] theorem writeImagInput_imag_dmem (imv : List F64) : (s.writeImagInput true imv).imag = s.imag := rfl

@[simp] theorem writeImagInput_dmem_dmem (imv : List F64) :
    (s.writeImagInput true imv).dmem = s.dmem.writeRange s.operands.a2.toNat imv := rfl

/-! ## Operands (R66) -/

/-- A running command reads its latched operands. -/
theorem operands_of_running {s : State} {l : Latch} (h : s.running = some l) : s.operands = l.ops := by
  simp [State.operands, h]

/-- With no command latched, the operands are the registers'. -/
theorem operands_of_idle {s : State} (h : s.running = none) : s.operands = s.ops := by
  simp [State.operands, h]

end Sys2Proof.Machine
end

