-- ==== Sys2Proof/Laws/Step.lean ====
section
/-! SUPPORT. What an access, the engine's turn and a step can do: one inversion lemma each. -/

namespace Sys2Proof.Machine

/-! ## Accesses -/

/-- The registers that a host write can change (R82, R85). -/
theorem writeReg_ok {s t : State} {r : Reg} {v : Word} (h : s.writeReg r v = .ok t) :
    (r = .ctrl ∧ t = s.writeCtrl v) ∨ (r = .status ∧ t = { s with flags := s.flags.clearWritten v }) ∨
      (r = .cmd ∧ t = s.writeCmd v) ∨ ∃ o : Operands, t = { s with ops := o } := by
  cases r <;> simp only [State.writeReg, Except.ok.injEq, reduceCtorEq] at h <;> subst h
  · exact .inl ⟨rfl, rfl⟩
  · exact .inr (.inl ⟨rfl, rfl⟩)
  · exact .inr (.inr (.inl ⟨rfl, rfl⟩))
  all_goals exact .inr (.inr (.inr ⟨_, rfl⟩))

/-- The windows that a host write can change (R81, R85). -/
theorem writeEntry_ok {s t : State} {w : Window} {i : Nat} {v : Word} (h : s.writeEntry w i v = .ok t) :
    (w = .real ∧ t = { s with real := s.real.write i v }) ∨ (w = .imag ∧ t = { s with imag := s.imag.write i v }) ∨
      (w = .dmem ∧ t = { s with dmem := s.dmem.write i v }) := by
  cases w <;> simp only [State.writeEntry, Except.ok.injEq, reduceCtorEq] at h <;> subst h <;> simp

/-- An access that answers a next state is a read whose data joins the observation, or a write of a location. -/
theorem performAccess_next {a : HostAccess} {s t : State} (h : performAccess a s = .next t) :
    (∃ l v, a.location s.params = .ok l ∧ s.readLocation l = .ok v ∧ t = { s with reads := v :: s.reads }) ∨
      (∃ l v, a.location s.params = .ok l ∧ s.writeLocation l v = .ok t) := by
  unfold performAccess at h
  split at h
  · exact absurd h (by simp)
  · next l hl =>
    split at h
    · split at h
      · next v hv => injection h with h; exact .inl ⟨l, v, hl, hv, h.symm⟩
      · exact absurd h (by simp)
    · next v =>
      split at h
      · next u hu => injection h with h; subst h; exact .inr ⟨l, v, hl, hu⟩
      · exact absurd h (by simp)

/-- The index of a window entry that an address names is below the window's size (R81). -/
theorem locate_entry {p : Params} {a : Nat} {w : Window} {i : Nat} (h : locate p a = some (.entry w i)) :
    w.base ≤ a ∧ i = (a - w.base) / 8 ∧ i < w.size p := by
  unfold locate at h
  split at h
  · simp at h
  · split at h
    · next w' hw' =>
      simp only [Option.some.injEq, Location.entry.injEq] at h
      obtain ⟨rfl, rfl⟩ := h
      have hh := List.find?_some hw'
      simp only [Window.holds, decide_eq_true_eq] at hh
      exact ⟨hh.1, rfl, by omega⟩
    · simp at h

theorem location_entry {p : Params} {a : HostAccess} {w : Window} {i : Nat} (h : a.location p = .ok (.entry w i)) :
    i < w.size p := by
  unfold HostAccess.location at h
  split at h
  · simp at h
  · split at h
    · simp at h
    · split at h
      · next l hl => injection h with h; subst h; exact (locate_entry hl).2.2
      · simp at h

/-- An access faults on a bus error, or on a read of a word that nothing has written (R70, R84). -/
theorem performAccess_fault {a : HostAccess} {s : State} {f : Fault} (h : performAccess a s = .fault f) :
    (∃ e, f = .busError e) ∨ ∃ w i, a.location s.params = .ok (.entry w i) ∧ s.readEntry w i = .error f := by
  unfold performAccess at h
  split at h
  · next e he => injection h with h; exact .inl ⟨e, h.symm⟩
  · next l hl =>
    split at h
    · split at h
      · exact absurd h (by simp)
      · next g hg =>
        injection h with h; subst h
        cases l with
        | reg r => simp [State.readLocation] at hg
        | entry w i => exact .inr ⟨w, i, hl, hg⟩
    · split at h
      · exact absurd h (by simp)
      · next g hg =>
        injection h with h; subst h
        left
        cases l with
        | reg r => cases r <;> simp [State.writeLocation, State.writeReg] at hg <;> exact ⟨_, hg.symm⟩
        | entry w i => cases w <;> simp [State.writeLocation, State.writeEntry] at hg <;> exact ⟨_, hg.symm⟩

/-- An access that the port accepts is held or takes effect (R86). -/
theorem acceptAccess_next {a : HostAccess} {s t : State} (h : acceptAccess a s = .next t) :
    (s.running.isSome = true ∧ a.toWindow s.params = true ∧ t = { s with held := some a }) ∨ performAccess a s = .next t := by
  unfold acceptAccess at h
  split at h
  · next hc =>
    simp only [State.busy, Bool.and_eq_true] at hc
    injection h with h
    exact .inl ⟨hc.1, hc.2, h.symm⟩
  · exact .inr h

theorem acceptAccess_fault {a : HostAccess} {s : State} {f : Fault} (h : acceptAccess a s = .fault f) :
    performAccess a s = .fault f := by
  unfold acceptAccess at h
  split at h
  · exact absurd h (by simp)
  · exact h

/-! ## The engine's turn -/

theorem engineTurn_ok {l : Latch} {i : Instr} (h : decodeWord l.word = .ok i) (s : State) : engineTurn l s = exec i s := by
  simp [engineTurn, h]

theorem engineTurn_error {l : Latch} {e : DecodeError} (h : decodeWord l.word = .error e) (s : State) :
    engineTurn l s = .next (s.raise (opcodeByte l.word) (.illegal e)) := by
  simp [engineTurn, h]

/-! ## The step -/

/-- Everything a step can be (R86, R141, R277, R290). -/
theorem step_cases (s : State) :
    (∃ rest, s.inputs = .powerOnReset :: rest ∧ step s = .next { s with inputs := rest }.powerOnReset) ∨
      (∃ a, s.held = some a ∧ s.running = none ∧ step s = performAccess a { s with held := none }) ∨
      (∃ a rest, s.held = none ∧ s.inputs = .access a :: rest ∧ step s = acceptAccess a { s with inputs := rest }) ∨
      (∃ l rest, s.running = some l ∧ step s = engineTurn l { s with inputs := rest }) ∨
      (∃ rest, s.held = none ∧ s.running = none ∧ step s = .next { s with inputs := rest }) := by
  unfold step
  rcases hi : s.inputs with _ | ⟨x, rest⟩
  · rcases hh : s.held with _ | a <;> rcases hr : s.running with _ | l
    · exact .inr (.inr (.inr (.inr ⟨[], rfl, rfl, by cases s; simp_all⟩)))
    · exact .inr (.inr (.inr (.inl ⟨l, [], rfl, by cases s; simp_all⟩)))
    · exact .inr (.inl ⟨a, rfl, rfl, rfl⟩)
    · exact .inr (.inr (.inr (.inl ⟨l, _, rfl, rfl⟩)))
  · cases x with
    | powerOnReset => exact .inl ⟨rest, rfl, rfl⟩
    | access b =>
      rcases hh : s.held with _ | a
      · exact .inr (.inr (.inl ⟨b, rest, rfl, rfl, by cases s.running <;> rfl⟩))
      · rcases hr : s.running with _ | l
        · exact .inr (.inl ⟨a, rfl, rfl, rfl⟩)
        · exact .inr (.inr (.inr (.inl ⟨l, _, rfl, rfl⟩)))
    | engine =>
      rcases hh : s.held with _ | a <;> rcases hr : s.running with _ | l
      · exact .inr (.inr (.inr (.inr ⟨rest, rfl, rfl, rfl⟩)))
      · exact .inr (.inr (.inr (.inl ⟨l, rest, rfl, rfl⟩)))
      · exact .inr (.inl ⟨a, rfl, rfl, rfl⟩)
      · exact .inr (.inr (.inr (.inl ⟨l, _, rfl, rfl⟩)))

end Sys2Proof.Machine
end

