-- ==== Sys2Proof/Tests/Slice0.lean ====
section
/-! SUPPORT. Tests, with their expected values from spec/: the well-formedness smoke tests, the encoding table's words, one or two steps of
each instruction (values of 95_test_vectors.md), and a witness for the hypotheses of each statement. -/

open Sys2Proof Sys2Proof.Machine Sys2Proof.Claims

namespace Sys2Proof.Tests

set_option maxRecDepth 20000
set_option Elab.async false

/-! ## Helpers -/

/-- The outcome is a next state with a property. -/
def check (o : Host.Outcome State Fault Refusal) (p : State → Bool) : Bool :=
  match o with
  | .next t => p t
  | .fault _ => false
  | .refused _ => false

theorem next_of_check {o : Host.Outcome State Fault Refusal} {p : State → Bool} (h : check o p = true) :
    ∃ t, o = .next t ∧ p t = true := by
  cases o with
  | next t => exact ⟨t, rfl, h⟩
  | fault f => exact absurd h (by simp [check])
  | refused r => exact absurd h (by simp [check])

/-- The outcome is a given fault. -/
def faults (o : Host.Outcome State Fault Refusal) (f : Fault) : Bool :=
  match o with
  | .next _ => false
  | .fault g => g == f
  | .refused _ => false

/-- The command ends with ERROR = `e`. -/
def ends (i : Instr) (s : State) (e : Word) : Bool := check (exec i s) (fun t => t.error == e)

/-- The command completes without an error. -/
def succeeds (i : Instr) (s : State) : Bool := check (exec i s) (fun t => errorCode t == 0)

/-- A small block: N_MAX = 8, 32 words of DMEM, CAL_K = 1.0. -/
def small : Params := { log2Nmax := 3, dmemWords := 32, calK := 0x3FF0000000000000 }

/-- The small block after reset with words written at `base` in DMEM. -/
def loaded (base : Nat) (ws : List Word) : State := { State.powerOn small with dmem := Memory.cells base ws }

/-- A state with the given operand registers. -/
def withOps (s : State) (a0 a1 a2 a3 a4 : Word) (f0 : F64 := 0) : State :=
  { s with ops := { a0 := a0, a1 := a1, a2 := a2, a3 := a3, a4 := a4, f0 := f0 } }

/-- The small block configured for N = 4 and 8000.0 Hz (as CFG leaves it, R146), with words in DMEM. -/
def conf4 (base : Nat) (ws : List Word) : State :=
  { loaded base ws with
    n := 4
    log2n := 2
    sampleRate := 0x40BF400000000000
    bandwidth := 0x409F400000000000
    real := Memory.cells 0 (List.replicate 8 0)
    imag := Memory.cells 0 (List.replicate 8 0)
    spectrum := Memory.cells 0 (List.replicate 4 0)
    bitrev := Memory.cells 0 [0, 2, 1, 3, 0, 0, 0, 0]
    flags := { Flags.clear with configured := true } }

/-- `[1, 2, 3, 4]` -/
def oneToFour : List Word := [0x3FF0000000000000, 0x4000000000000000, 0x4008000000000000, 0x4010000000000000]

/-- The block with a command running. -/
def running (s : State) (w : Word) : State := { s with running := some { word := w, ops := s.ops } }

/-! ## WellFormed: each check refuses an ill-formed term -/

theorem smoke_reserved_opcode :
    (CmdFields.plain 0x08).wf = false ∧ (CmdFields.plain 0x08).opcodeDefined = false := by decide

theorem smoke_flag_not_allowed :
    { CmdFields.plain 0x02 with neg := true }.wf = false ∧
      { CmdFields.plain 0x02 with neg := true }.flagsAllowed = false ∧
      { CmdFields.plain 0x00 with reservedHigh := 1 }.flagsAllowed = false ∧
      { CmdFields.plain 0x13 with ch := 1 }.flagsAllowed = false := by decide

theorem smoke_reserved_channel :
    { CmdFields.plain 0x12 with ch := 3 }.wf = false ∧ { CmdFields.plain 0x12 with ch := 3 }.channelDefined = false := by
  decide

/-! ## Decoding: each word is written out from R110 and R119, high bits first: flags, then the opcode byte -/

theorem test_decode_nop : decodeWord 0b00000_00000000 = .ok .nop := by decide
theorem test_decode_cfg : decodeWord 0b00000_00000001 = .ok .cfg := by decide
theorem test_decode_fwd : decodeWord 0b00000_00000010 = .ok .fwd := by decide
theorem test_decode_inv : decodeWord 0b00000_00000011 = .ok .inv := by decide
theorem test_decode_invXR : decodeWord 0b01000_00000011 = .ok .invXR := by decide
theorem test_decode_invXI : decodeWord 0b10000_00000011 = .ok .invXI := by decide
theorem test_decode_invXRXI : decodeWord 0b11000_00000011 = .ok .invXRXI := by decide
theorem test_decode_spec : decodeWord 0b00000_00000100 = .ok .spec := by decide
theorem test_decode_rstpk : decodeWord 0b00000_00000101 = .ok .rstpk := by decide
theorem test_decode_bandf : decodeWord 0b00000_00000110 = .ok .bandf := by decide
theorem test_decode_metric : decodeWord 0b00000_00000111 = .ok .metric := by decide
theorem test_decode_invert : decodeWord 0b00000_00010000 = .ok .invert := by decide
theorem test_decode_intlv : decodeWord 0b00000_00010001 = .ok .intlv := by decide
theorem test_decode_deintlvLeft : decodeWord 0b00000_00010010 = .ok .deintlvLeft := by decide
theorem test_decode_deintlvRight : decodeWord 0b00001_00010010 = .ok .deintlvRight := by decide
theorem test_decode_deintlvMix : decodeWord 0b00010_00010010 = .ok .deintlvMix := by decide
theorem test_decode_mix : decodeWord 0b00000_00010011 = .ok .mix := by decide
theorem test_decode_mixNeg : decodeWord 0b00100_00010011 = .ok .mixNeg := by decide
theorem test_decode_rms : decodeWord 0b00000_00010100 = .ok .rms := by decide
theorem test_decode_peakdet : decodeWord 0b00000_00010101 = .ok .peakdet := by decide

/-- Illegal words of 95_test_vectors.md section 2.10. -/
theorem test_decode_illegal :
    decodeWord 0x08 = .error .reservedOpcode ∧ decodeWord 0xFF = .error .reservedOpcode ∧
      decodeWord 0x100 = .error .flagNotAllowed ∧ decodeWord 0x402 = .error .flagNotAllowed ∧
      decodeWord 0x313 = .error .flagNotAllowed ∧ decodeWord 0x812 = .error .flagNotAllowed ∧
      decodeWord 0x312 = .error .reservedChannel := by decide

/-- The host's table words run as the first instruction after reset. -/
theorem test_first_instruction :
    check (step (State.reset.withFetchWord 64 0x00)) (fun t => t.error == 0x000000 && t.cmdCount == 1) = true ∧
      check (step (State.reset.withFetchWord 32 0x05)) (fun t => t.error == 0x050000) = true ∧
      check (step (State.reset.withFetchWord 64 0x08)) (fun t => t.error == 0x080008) = true := by decide +kernel

/-! ## Arithmetic and the ROM (R22, R24, R57; 95_test_vectors.md sections 2.1 and 2.9) -/

theorem test_add_rounds_to_even :
    F64.add 0 0x4340000000000000 0x3FF0000000000000 = 0x4340000000000000 ∧
      F64.add 0 0x4340000000000001 0x3FF0000000000000 = 0x4340000000000002 := by decide +kernel

theorem test_subnormals_kept :
    F64.mul 0 0x0010000000000000 0x3FE0000000000000 = 0x0008000000000000 ∧
      F64.mul 0 0x0000000000000001 0x3FE0000000000000 = 0 ∧ F64.mul 0 0x0000000000000003 0x3FE0000000000000 = 2 := by
  decide +kernel

theorem test_divide_third : F64.div 0 0x3FF0000000000000 0x4008000000000000 = 0x3FD5555555555555 := by decide +kernel

/-- IEEE 754's results beside an infinity and by a zero (R21, R22; section 2.8's MIX with `+inf`: `2.0 + 2.0 / +inf` is 2.0). -/
theorem test_infinities :
    F64.add 0 0x4000000000000000 (F64.div 0 0x4000000000000000 0x7FF0000000000000) = 0x4000000000000000 ∧
      F64.sub 0 0x3FF0000000000000 0x7FF0000000000000 = 0xFFF0000000000000 ∧
      F64.mul 0 0xFFF0000000000000 0x0000000000000001 = 0xFFF0000000000000 ∧
      F64.div 0 0xBFF0000000000000 0x7FF0000000000000 = 0x8000000000000000 ∧
      F64.div 0 0xBFF0000000000000 0x8000000000000000 = 0x7FF0000000000000 := by decide +kernel

theorem test_sqrt : F64.sqrt 0 0x4029000000000000 = 0x400C48C6001F0AC0 := by decide +kernel

theorem test_rom :
    Rom.twcos 8 = 0x3FED906BCF328D46 ∧ Rom.twsin 8 = 0xBFD87DE2A6AEA963 ∧ Rom.twcos 3 = 0x3FE0000000000001 := by
  decide +kernel

/-! ## One step of each instruction (95_test_vectors.md sections 2.2 to 2.10) -/

theorem test_nop : ends .nop (State.powerOn small) 0x000000 = true := by decide +kernel

theorem test_cfg_8 :
    check (exec .cfg (withOps (State.powerOn small) 8 0 0 0 0 0x40BF400000000000)) (fun t =>
      t.error == 0x010000 && t.n == 8 && t.log2n == 3 && t.bandwidth == 0x408F400000000000 &&
        t.bitrev == Memory.cells 0 [0, 4, 2, 6, 1, 5, 3, 7] && t.flags.configured) = true := by decide +kernel

theorem test_cfg_overflow :
    check (exec .cfg (withOps (State.powerOn small) 1 0 0 0 0 0x7FEFFFFFFFFFFFFF)) (fun t =>
      t.error == 0x010000 && t.bandwidth == 0x7FF0000000000000 && t.bitrev == Memory.cells 0 (List.replicate 8 0)) =
        true := by decide +kernel

theorem test_fwd_1234 :
    check (exec .fwd (withOps (conf4 0 oneToFour) 0 4 0 0 0)) (fun t =>
      t.real.take 4 == Memory.cells 0 [0x4024000000000000, 0xC000000000000000, 0xC000000000000000, 0xBFFFFFFFFFFFFFFF] &&
        t.imag.take 4 == Memory.cells 0 [0, 0x4000000000000000, 0, 0xC000000000000000] &&
        t.spectrum == Memory.cells 0 [0x4014000000000000, 0x3FF6A09E667F3BCD, 0, 0] &&
        t.peak == 0x4014000000000000 && t.peakBand == 0) = true := by decide +kernel

theorem test_fwd_wrap : ends .fwd (withOps (conf4 0 oneToFour) 0xFFFFFFFFFFFFFFFC 4 0 0 0) 0x02000A = true := by
  decide +kernel

/-- The banks after FWD of `[1, 2, 3, 4]`. -/
def afterFwd : State :=
  { conf4 0 oneToFour with
    real := Memory.cells 0 [0x4024000000000000, 0xC000000000000000, 0xC000000000000000, 0xBFFFFFFFFFFFFFFF, 0, 0, 0, 0]
    imag := Memory.cells 0 [0, 0x4000000000000000, 0, 0xC000000000000000, 0, 0, 0, 0] }

theorem test_inv :
    check (exec .inv (withOps afterFwd 0 0 0 0 8)) (fun t =>
      t.dmem == Memory.cells 0 oneToFour ++ Memory.cells 8 oneToFour &&
        t.imag.take 4 == Memory.cells 0 [0x8000000000000000, 0xC000000000000000, 0x8000000000000000, 0x4000000000000000] &&
        t.real == afterFwd.real) = true := by decide +kernel

theorem test_invXR_length : ends .invXR (withOps (conf4 0 oneToFour) 0 3 0 0 8) 0x030103 = true := by decide +kernel

/-- `[6, -2, -2, -2]` in place of REAL gives `[0, 1, 2, 3]` with the imaginary part of section 2.4's INV.XRXI row. -/
theorem test_invXR :
    check (exec .invXR (withOps { conf4 0 [0x4018000000000000, 0xC000000000000000, 0xC000000000000000, 0xC000000000000000] with
        imag := Memory.cells 0 [0, 0x4000000000000000, 0, 0xC000000000000000, 0, 0, 0, 0] } 0 4 0 0 8)) (fun t =>
      t.dmem.drop 4 == Memory.cells 8 [0, 0x3FF0000000000000, 0x4000000000000000, 0x4008000000000000]) = true := by
  decide +kernel

theorem test_invXI_range : ends .invXI (withOps (conf4 0 oneToFour) 0 4 31 4 0) 0x03020A = true := by decide +kernel

/-- The imaginary input `[0, 2, 0, -2]` of section 2.4's INV.XRXI row from DMEM, its real input in REAL. -/
theorem test_invXI :
    check (exec .invXI (withOps { conf4 4 [0, 0x4000000000000000, 0, 0xC000000000000000] with
        real := Memory.cells 0
          [0x4018000000000000, 0xC000000000000000, 0xC000000000000000, 0xC000000000000000, 0, 0, 0, 0] } 0 0 4 4 8)) (fun t =>
      t.dmem == Memory.cells 4 [0x8000000000000000, 0xC000000000000000, 0x8000000000000000, 0x4000000000000000] ++
        Memory.cells 8 [0, 0x3FF0000000000000, 0x4000000000000000, 0x4008000000000000]) = true := by decide +kernel

theorem test_invXRXI_same_buffer :
    check (exec .invXRXI (withOps { conf4 0 (oneToFour.take 2) with
        n := 2, log2n := 1, bitrev := Memory.cells 0 [0, 1, 0, 0, 0, 0, 0, 0] } 0 2 0 2 8)) (fun t =>
      t.dmem == Memory.cells 0 [0xBFF0000000000000, 0xC000000000000000] ++
        Memory.cells 8 [0xBFF8000000000000, 0x3FE0000000000000]) = true := by decide +kernel

theorem test_invXRXI_first_error : ends .invXRXI (withOps (conf4 0 oneToFour) 0 3 0 5 0) 0x030103 = true := by
  decide +kernel

theorem test_spec :
    check (exec .spec { conf4 0 [] with
        real := Memory.cells 0 [0x4008000000000000, 0x8000000000000000, 0, 0, 0, 0, 0, 0]
        imag := Memory.cells 0 [0x4010000000000000, 0, 0, 0, 0, 0, 0, 0] }) (fun t =>
      t.spectrum == Memory.cells 0 [0x4004000000000000, 0, 0, 0] && t.peak == 0x4004000000000000 && t.peakBand == 0) =
        true := by decide +kernel

theorem test_rstpk :
    check (exec .rstpk { State.powerOn small with peak := 0x3FF0000000000000, peakBand := 1 }) (fun t =>
      t.peak == 0 && t.peakBand == 0 && t.error == 0x050000) = true := by decide +kernel

/-- N = 8 at 8000.0 Hz: the bandwidth is 1000.0. -/
def conf8 : State := { conf4 0 [] with n := 8, log2n := 3, bandwidth := 0x408F400000000000 }

theorem test_bandf_3 : check (exec .bandf (withOps conf8 3 0 0 0 0)) (fun t => t.result0 == 0x40AB580000000000) = true := by
  decide +kernel

theorem test_bandf_4 : ends .bandf (withOps conf8 4 0 0 0 0) 0x060106 = true := by decide +kernel

theorem test_metric_1 :
    check (exec .metric (withOps { conf8 with spectrum := Memory.cells 0 (List.replicate 4 0x3FD0000000000000) } 1 0 0 0 0))
      (fun t => t.result1 == 0x3FC8000000000000) = true := by decide +kernel

theorem test_metric_zeros :
    check (exec .metric conf8) (fun t => t.result1 == 0 && t.result0 == 0xFFF0000000000000) = true := by decide +kernel

theorem test_invert :
    check (exec .invert (withOps (loaded 0 [0x3FE0000000000000, 0xBFD0000000000000, 0, 0x8000000000000000]) 0 4 0 0 0))
      (fun t => t.dmem == Memory.cells 0 [0xBFE0000000000000, 0x3FD0000000000000, 0x8000000000000000, 0]) = true := by
  decide +kernel

theorem test_invert_empty :
    ends .invert (withOps (State.powerOn small) 32 0 0 0 0) 0x100000 = true ∧
      ends .invert (withOps (State.powerOn small) 33 0 0 0 0) 0x10000A = true := by decide +kernel

theorem test_intlv_over_left :
    check (exec .intlv (withOps (loaded 0 oneToFour) 0 2 2 2 0)) (fun t =>
      t.dmem == Memory.cells 0 [0x3FF0000000000000, 0x4008000000000000, 0x4000000000000000, 0x4010000000000000]) = true := by
  decide +kernel

theorem test_intlv_output_range : ends .intlv (withOps (loaded 0 oneToFour) 0 2 2 2 29) 0x11040A = true := by decide +kernel

/-- `[1, 3, 2, 4]` -/
def interleaved : State :=
  loaded 10 [0x3FF0000000000000, 0x4008000000000000, 0x4000000000000000, 0x4010000000000000]

theorem test_deintlvLeft :
    check (exec .deintlvLeft (withOps interleaved 10 4 0 0 10)) (fun t =>
      t.dmem == Memory.cells 10 [0x3FF0000000000000, 0x4000000000000000, 0x4000000000000000, 0x4010000000000000]) = true := by
  decide +kernel

theorem test_deintlvRight :
    check (exec .deintlvRight (withOps interleaved 10 4 0 0 20)) (fun t =>
      t.dmem.drop 4 == Memory.cells 20 [0x4008000000000000, 0x4010000000000000]) = true := by decide +kernel

theorem test_deintlvMix :
    check (exec .deintlvMix (withOps interleaved 10 4 0 0 20)) (fun t =>
      t.dmem.drop 4 == Memory.cells 20 [0x4000000000000000, 0x4008000000000000]) = true := by decide +kernel

theorem test_deintlvMix_odd : ends .deintlvMix (withOps interleaved 0 3 0 0 20) 0x120104 = true := by decide +kernel

theorem test_mix_in_place :
    check (exec .mix (withOps (loaded 0 [0x3FF0000000000000, 0xC008000000000000]) 0 2 0 2 0 0x3FE0000000000000)) (fun t =>
      t.dmem == Memory.cells 0 [0x4008000000000000, 0xC022000000000000]) = true := by decide +kernel

theorem test_mix_minus_zero : ends .mix (withOps (loaded 0 oneToFour) 0 2 2 2 10 0x8000000000000000) 0x130005 = true := by
  decide +kernel

theorem test_mixNeg :
    check (exec .mixNeg (withOps (loaded 0 [0x4000000000000000, 0x4000000000000000, 0x4008000000000000, 0x4014000000000000])
        0 2 2 2 10 0xBFF0000000000000)) (fun t =>
      t.dmem.drop 4 == Memory.cells 10 [0x4014000000000000, 0x401C000000000000]) = true := by decide +kernel

theorem test_mixNeg_length : ends .mixNeg (withOps (loaded 0 oneToFour) 0 2 2 3 10 0) 0x130004 = true := by decide +kernel

theorem test_rms :
    check (exec .rms (withOps (loaded 0 [0x4008000000000000, 0x4010000000000000]) 0 2 0 0 0)) (fun t =>
      t.result0 == 0x400C48C6001F0AC0) = true := by decide +kernel

theorem test_rms_empty : ends .rms (withOps (State.powerOn small) 1000000000 0 0 0 0) 0x140105 = true := by decide +kernel

theorem test_peakdet :
    check (exec .peakdet (withOps (loaded 0 [0x7FF8000000000000, 0xBFE0000000000000]) 0 2 0 0 0)) (fun t =>
      t.result0 == 0x3FE0000000000000) = true := by decide +kernel

theorem test_peakdet_empty :
    check (exec .peakdet (withOps (State.powerOn small) 32 0 0 0 0)) (fun t => t.result0 == 0 && t.error == 0x150000) =
      true := by decide +kernel

/-- A read of an unwritten word is a fault (R70). -/
theorem test_unwritten : faults (exec .peakdet (withOps (loaded 0 oneToFour) 0 5 0 0 0)) (.unwritten .dmem 4) = true := by
  decide +kernel

/-! ## The host port (95_test_vectors.md section 2.11) -/

theorem test_id_and_caps :
    check (performAccess (.read 0x008 8) State.reset) (fun t => t.reads == [0x000010000000000A]) = true ∧
      State.reset.byteAt 7 = some 0x46 := by decide +kernel

theorem test_bus_errors :
    faults (performAccess (.read 0x0B0 8) State.reset) (.busError .unmapped) = true ∧
      faults (performAccess (.read 0x018 4) State.reset) (.busError .width) = true ∧
      faults (performAccess (.read 0x01C 8) State.reset) (.busError .alignment) = true ∧
      faults (performAccess (.read 0x00102000 8) State.reset) (.busError .unmapped) = true ∧
      faults (performAccess (.write 0x00300000 8 0) State.reset) (.busError .readOnly) = true := by decide +kernel

theorem test_ctrl_reserved_bits :
    check (performAccess (.write 0x010 8 0xFFFFFFFFFFFFFFFE) State.reset) (fun t => t.ctrlWord == 2) = true := by
  decide +kernel

theorem test_overrun :
    check (performAccess (.write 0x028 8 5) (running State.reset 1)) (fun t => t.statusWord == 9 && t.cmd == 0) = true := by
  decide +kernel

/-- The expansion of `FWD 0, 8` (R131), the command's delay ending before the first poll. -/
theorem test_assembly_fwd :
    Assembly.fwd 0 0 8 =
      [.access (.write 0x080 8 0), .access (.write 0x088 8 8), .access (.write 0x028 8 0x00000002), .engine,
        .access (.read 0x018 8)] := by decide

/-! ## Witnesses: for every statement with hypotheses, values that meet them all -/

theorem witness_DecodeChecksInOrder :
    (fieldsOf 0x08).opcodeDefined = false ∧ (fieldsOf 0x0F).opcodeDefined = false ∧ (fieldsOf 0x16).opcodeDefined = false ∧
      (fieldsOf 0xFF).opcodeDefined = false ∧
      ((fieldsOf 0x8000000000000015).opcodeDefined = true ∧ (fieldsOf 0x8000000000000015).flagsAllowed = false) ∧
      ((fieldsOf 0x2003).opcodeDefined = true ∧ (fieldsOf 0x2003).flagsAllowed = false) ∧
      ((fieldsOf 0x312).opcodeDefined = true ∧ (fieldsOf 0x312).flagsAllowed = true ∧
        (fieldsOf 0x312).channelDefined = false) ∧
      (fieldsOf 0x212).wf = true := by decide

/-- A state with NOP latched. -/
def withNop (inputs : List Input) (held : Option HostAccess) : State :=
  { running State.reset 0 with inputs := inputs, held := held }

theorem witness_StepRunsLatchedCommand :
    decodeWord 0 = .ok .nop ∧ (withNop [.engine] none).running = some { word := 0, ops := Operands.zero } ∧
      (withNop [.engine] none).inputs = .engine :: [] ∧ (withNop [] none).inputs = [] ∧
      (withNop [.access (.read 0 8)] (some (.read 0x01000000 8))).held = some (.read 0x01000000 8) ∧
      decodeTableWord 16 0x212 = some .deintlvMix := by decide

theorem witness_IllegalWordCompletesWithError :
    let s := { running State.reset 0x312 with inputs := [.engine] }
    s.running = some { word := 0x312, ops := Operands.zero } ∧ decodeWord 0x312 = .error .reservedChannel ∧
      s.inputs = .engine :: [] := by decide

theorem witness_EveryCompletionRecords :
    (∃ t, exec .nop State.reset = .next t ∧ errorCode t = 0) ∧
      (∃ t, exec .mix State.reset = .next t ∧ errorCode t ≠ 0) := by
  refine ⟨?_, ?_⟩
  · obtain ⟨t, h, hp⟩ := next_of_check (show succeeds .nop State.reset = true by decide +kernel)
    exact ⟨t, h, by simpa using hp⟩
  · obtain ⟨t, h, hp⟩ := next_of_check (p := fun t => errorCode t == 5) (o := exec .mix State.reset) (by decide +kernel)
    exact ⟨t, h, by rw [show errorCode t = 5 by simpa using hp]; decide⟩

theorem witness_FailedCommandChangesNothingElse :
    (∃ t, exec .mix State.reset = .next t ∧ errorCode t ≠ 0) ∧ decodeWord 0xFF = .error .reservedOpcode :=
  ⟨witness_EveryCompletionRecords.2, by decide⟩

theorem witness_CommandsLeaveHostRegisters : ∃ t, exec .peakdet State.reset = .next t := by
  obtain ⟨t, h, -⟩ := next_of_check (show succeeds .peakdet State.reset = true by decide +kernel)
  exact ⟨t, h⟩

theorem witness_CommandsWriteOnlyTheirState :
    (∃ t, exec .nop State.reset = .next t) ∧ Instr.nop ≠ .cfg ∧ Instr.nop ∉ [Instr.cfg, .fwd] ∧ Instr.nop ≠ .metric := by
  obtain ⟨t, h, -⟩ := next_of_check (show succeeds .nop State.reset = true by decide +kernel)
  exact ⟨⟨t, h⟩, by decide, by decide, by decide⟩

theorem witness_NotConfiguredGate :
    (needsConfiguration .metric = true ∧ State.reset.flags.configured = false) ∧
      needsConfiguration .peakdet = false ∧ ∃ t, exec .peakdet State.reset = .next t :=
  ⟨by decide, by decide, witness_CommandsLeaveHostRegisters⟩

/-- The least rate, and the largest and least sizes. -/
theorem witness_CfgConstructs :
    let s := withOps (State.powerOn small) 8 0 0 0 0 0x0000000000000001
    let u := withOps (State.powerOn small) 1 0 0 0 0 0x7FEFFFFFFFFFFFFF
    (s.operands.a0.toNat = 2 ^ 3 ∧ 2 ^ 3 ≤ s.params.nmax ∧ validRate s.operands.f0) ∧
      (u.operands.a0.toNat = 2 ^ 0 ∧ 2 ^ 0 ≤ u.params.nmax ∧ validRate u.operands.f0) := by decide +kernel

theorem not_power_of_two {n : Nat} (k : Nat) (h : 2 ^ k < n) (h' : n < 2 ^ (k + 1)) : ¬ ∃ j : Nat, n = 2 ^ j := by
  rintro ⟨j, rfl⟩
  have h1 := (Nat.pow_lt_pow_iff_right (a := 2) (by omega)).mp h
  have h2 := (Nat.pow_lt_pow_iff_right (a := 2) (by omega)).mp h'
  omega

theorem witness_CfgRejectsInOrder :
    (¬ ∃ k : Nat, (withOps State.reset 3 0 0 0 0).operands.a0.toNat = 2 ^ k) ∧
      (¬ ∃ k : Nat, (withOps State.reset 0 0 0 0 0).operands.a0.toNat = 2 ^ k) ∧
      ((withOps (State.powerOn small) 16 0 0 0 0).operands.a0.toNat = 2 ^ 4 ∧ (State.powerOn small).params.nmax < 2 ^ 4) ∧
      ((withOps (State.powerOn small) 8 0 0 0 0).operands.a0.toNat = 2 ^ 3 ∧ 2 ^ 3 ≤ (State.powerOn small).params.nmax) ∧
      F64.isNaN 0x7FF0000000000001 = true ∧ F64.isInf 0x7FF0000000000000 = true ∧ F64.isZero 0x8000000000000000 = true ∧
      F64.sign 0x8000000000000001 = true := by
  refine ⟨not_power_of_two 1 (by decide) (by decide), ?_, by decide, by decide, by decide, by decide, by decide, by decide⟩
  rintro ⟨k, hk⟩
  have := Nat.two_pow_pos k
  have h0 : (withOps State.reset 0 0 0 0 0).operands.a0.toNat = 0 := by decide
  omega

theorem witness_BitReversalAfterCfg :
    ∃ t, exec .cfg (withOps (State.powerOn small) 8 0 0 0 0 0x40BF400000000000) = .next t ∧ errorCode t = 0 := by
  obtain ⟨t, h, hp⟩ := next_of_check
    (show succeeds .cfg (withOps (State.powerOn small) 8 0 0 0 0 0x40BF400000000000) = true by decide +kernel)
  exact ⟨t, h, by simpa using hp⟩

/-- The source ends where DMEM ends. -/
theorem witness_FwdTransforms :
    let s := withOps (conf4 28 oneToFour) 28 4 0 0 0
    s.Inv ∧ s.flags.configured = true ∧ s.operands.a1 = s.n ∧ s.operands.a0.toNat + s.n.toNat ≤ s.params.dmemWords ∧
      Written s.dmem s.operands.a0.toNat s.n.toNat := by decide +kernel

/-- Both inputs the last four words of DMEM, the output over them. -/
theorem witness_InvTransforms :
    let s := withOps (conf4 28 oneToFour) 28 4 28 4 28
    let o := s.operands
    (invFlags .inv = some (false, false) ∧ invFlags .invXR = some (true, false) ∧ invFlags .invXI = some (false, true) ∧
      invFlags .invXRXI = some (true, true)) ∧ (s.Inv ∧ s.flags.configured = true) ∧
      (o.a1 = s.n ∧ o.a0.toNat + s.n.toNat ≤ s.params.dmemWords ∧ Written s.dmem o.a0.toNat s.n.toNat) ∧
      (o.a3 = s.n ∧ o.a2.toNat + s.n.toNat ≤ s.params.dmemWords ∧ Written s.dmem o.a2.toNat s.n.toNat) ∧
      o.a4.toNat + s.n.toNat ≤ s.params.dmemWords := by
  intro s o
  exact ⟨by decide, by decide +kernel, by decide +kernel, by decide +kernel, by decide +kernel⟩

theorem witness_SpecRecomputesSpectrum : (conf4 0 []).Inv ∧ (conf4 0 []).flags.configured = true := by decide +kernel

/-- The last live bin. -/
theorem witness_BandfGivesCentreFrequency :
    let s := withOps (conf4 0 []) 1 0 0 0 0
    s.flags.configured = true ∧ s.operands.a0.toNat < s.n.toNat / 2 := by decide

theorem witness_MetricMeasuresSpectrum :
    let s := withOps (conf4 0 []) 1 0 0 0 0
    let u := withOps (conf4 0 []) 0 0 0 0 0
    (s.flags.configured = true ∧ s.operands.a0.toNat < s.n.toNat / 2 ∧
      Written s.spectrum s.operands.a0.toNat (s.n.toNat / 2 - s.operands.a0.toNat)) ∧
    (u.operands.a0.toNat < u.n.toNat / 2 ∧
      Written u.spectrum u.operands.a0.toNat (u.n.toNat / 2 - u.operands.a0.toNat)) := by decide +kernel

/-- Each clause: lengths 3 and 5 for N = 4; buffers of four words from word 29 of 32; offset N/2. -/
theorem witness_TransformChecksInOrder :
    let s (a0 a1 a2 a3 a4 : Word) := withOps (conf4 0 oneToFour) a0 a1 a2 a3 a4
    let outside (s : State) (base : Word) : Prop := s.params.dmemWords < base.toNat + s.n.toNat
    (s 0 0 0 0 0).flags.configured = true ∧ (s 0 3 0 0 0).operands.a1 ≠ (s 0 3 0 0 0).n ∧
      ((s 29 4 0 0 0).operands.a1 = (s 29 4 0 0 0).n ∧ outside (s 29 4 0 0 0) (s 29 4 0 0 0).operands.a0) ∧
      ((s 0 4 0 5 0).operands.a1 = (s 0 4 0 5 0).n ∧ (s 0 4 0 5 0).operands.a3 ≠ (s 0 4 0 5 0).n) ∧
      (¬ outside (s 28 4 29 4 0) (s 28 4 29 4 0).operands.a0 ∧ (s 28 4 29 4 0).operands.a3 = (s 28 4 29 4 0).n ∧
        outside (s 28 4 29 4 0) (s 28 4 29 4 0).operands.a2) ∧
      (¬ outside (s 28 4 28 4 29) (s 28 4 28 4 29).operands.a0 ∧ ¬ outside (s 28 4 28 4 29) (s 28 4 28 4 29).operands.a2 ∧
        outside (s 28 4 28 4 29) (s 28 4 28 4 29).operands.a4) ∧
      (s 2 0 0 0 0).n.toNat / 2 ≤ (s 2 0 0 0 0).operands.a0.toNat := by decide

theorem witness_StageIsOneButterflyPerPair :
    let w : Work := { re := oneToFour, im := [0, 0, 0, 0], draw := 0 }
    1 < 2 ∧ w.re.length = 2 ^ 2 ∧ w.im.length = 2 ^ 2 ∧ 1 < 2 ^ 1 ∧ 0 < 2 ^ 2 / (2 * 2 ^ 1) ∧
      w.re[1 + 2 * 2 ^ 1 * 0]? = some 0x4000000000000000 ∧ w.im[1 + 2 * 2 ^ 1 * 0]? = some 0 ∧
      w.re[1 + 2 * 2 ^ 1 * 0 + 2 ^ 1]? = some 0x4010000000000000 ∧ w.im[1 + 2 * 2 ^ 1 * 0 + 2 ^ 1]? = some 0 := by decide

theorem witness_SpectrumNeverNegative :
    (∃ t, exec .fwd (withOps (conf4 0 oneToFour) 0 4 0 0 0) = .next t ∧ errorCode t = 0) ∧
      ∃ t, exec .spec afterFwd = .next t ∧ errorCode t = 0 := by
  refine ⟨?_, ?_⟩
  · obtain ⟨t, h, hp⟩ := next_of_check
      (show succeeds .fwd (withOps (conf4 0 oneToFour) 0 4 0 0 0) = true by decide +kernel)
    exact ⟨t, h, by simpa using hp⟩
  · obtain ⟨t, h, hp⟩ := next_of_check (show succeeds .spec afterFwd = true by decide +kernel)
    exact ⟨t, h, by simpa using hp⟩

/-- One state whose peak rises (section 2.3: 5.0 in bin 0), one whose peak stays. -/
theorem witness_PeakOnlyRises :
    (∃ t, exec .spec afterFwd = .next t ∧ errorCode t = 0 ∧ t.peak ≠ afterFwd.peak) ∧
      (∃ t, exec .nop afterFwd = .next t) ∧ Instr.spec ≠ .cfg ∧ Instr.spec ≠ .rstpk := by
  refine ⟨?_, ?_, by decide, by decide⟩
  · obtain ⟨t, h, hp⟩ := next_of_check (o := exec .spec afterFwd)
      (p := fun t => errorCode t == 0 && t.peak == 0x4014000000000000) (by decide +kernel)
    simp only [Bool.and_eq_true, beq_iff_eq] at hp
    exact ⟨t, h, hp.1, by rw [hp.2]; decide⟩
  · obtain ⟨t, h, -⟩ := next_of_check (show succeeds .nop afterFwd = true by decide +kernel)
    exact ⟨t, h⟩

theorem witness_PeakIsMaximumAfterReset :
    afterFwd.peak = 0 ∧ afterFwd.peakBand = 0 ∧ 2 ≤ afterFwd.n.toNat ∧
      ∃ t, exec .spec afterFwd = .next t ∧ errorCode t = 0 ∧
        ∀ k < afterFwd.n.toNat / 2, ∀ v : Word, t.spectrum.read k = some v → F64.isNaN v = false := by
  refine ⟨by decide, by decide, by decide, ?_⟩
  obtain ⟨t, h, hp⟩ := next_of_check (o := exec .spec afterFwd)
    (p := fun t => errorCode t == 0 && (List.range 2).all (fun k => (t.spectrum.read k).all (fun v => !F64.isNaN v)))
    (by decide +kernel)
  simp only [Bool.and_eq_true, beq_iff_eq, List.all_eq_true, List.mem_range] at hp
  refine ⟨t, h, hp.1, fun k hk v hv => ?_⟩
  have hk2 : k < 2 := lt_of_lt_of_eq hk (by decide)
  simpa [hv] using hp.2 k hk2

/-- The whole of a written DMEM range up to its last word, and an empty buffer at the end of DMEM. -/
theorem witness_InvertNegatesBuffer :
    let s := withOps (loaded 28 oneToFour) 28 4 0 0 0
    let u := withOps (State.powerOn small) 32 0 0 0 0
    (s.operands.a0.toNat + s.operands.a1.toNat ≤ s.params.dmemWords ∧
      Written s.dmem s.operands.a0.toNat s.operands.a1.toNat) ∧
    (u.operands.a0.toNat + u.operands.a1.toNat ≤ u.params.dmemWords ∧
      Written u.dmem u.operands.a0.toNat u.operands.a1.toNat) := by decide

theorem witness_IntlvInterleaves :
    let s := withOps (loaded 28 oneToFour) 28 2 30 2 28
    s.operands.a1 = s.operands.a3 ∧ s.operands.a0.toNat + 2 ≤ s.params.dmemWords ∧
      s.operands.a2.toNat + 2 ≤ s.params.dmemWords ∧ s.operands.a4.toNat + 2 * 2 ≤ s.params.dmemWords ∧
      s.operands.a1.toNat = 2 ∧ Written s.dmem s.operands.a0.toNat 2 ∧ Written s.dmem s.operands.a2.toNat 2 := by decide

theorem witness_DeintlvExtractsChannel :
    let s := withOps (loaded 28 oneToFour) 28 4 0 0 30
    s.operands.a1.toNat % 2 = 0 ∧ s.operands.a0.toNat + s.operands.a1.toNat ≤ s.params.dmemWords ∧
      s.operands.a4.toNat + s.operands.a1.toNat / 2 ≤ s.params.dmemWords ∧
      Written s.dmem s.operands.a0.toNat s.operands.a1.toNat := by decide

theorem witness_MixAddsScaledBuffer :
    let s := withOps (loaded 28 oneToFour) 28 2 30 2 30 0x7FF8000000000000
    s.operands.a1 = s.operands.a3 ∧ F64.isZero s.operands.f0 = false ∧
      s.operands.a0.toNat + s.operands.a1.toNat ≤ s.params.dmemWords ∧
      s.operands.a2.toNat + s.operands.a1.toNat ≤ s.params.dmemWords ∧
      s.operands.a4.toNat + s.operands.a1.toNat ≤ s.params.dmemWords ∧
      Written s.dmem s.operands.a0.toNat s.operands.a1.toNat ∧
      Written s.dmem s.operands.a2.toNat s.operands.a1.toNat := by decide

theorem witness_RmsGivesRootMeanSquare :
    let s := withOps (loaded 31 [0x4008000000000000]) 31 1 0 0 0
    s.operands.a1 ≠ 0 ∧ s.operands.a0.toNat + s.operands.a1.toNat ≤ s.params.dmemWords ∧
      Written s.dmem s.operands.a0.toNat s.operands.a1.toNat := by decide

theorem witness_PeakdetGivesGreatestMagnitude :
    let s := withOps (loaded 31 [0x7FF8000000000000]) 31 1 0 0 0
    let u := withOps (State.powerOn small) 32 0 0 0 0
    (s.operands.a0.toNat + s.operands.a1.toNat ≤ s.params.dmemWords ∧
      Written s.dmem s.operands.a0.toNat s.operands.a1.toNat) ∧
    (u.operands.a0.toNat + u.operands.a1.toNat ≤ u.params.dmemWords ∧
      Written u.dmem u.operands.a0.toNat u.operands.a1.toNat) := by decide

/-- Each clause at its boundary: one word past the end of DMEM, a length at 2^64 - 1, an odd length, a negative zero. -/
theorem witness_UtilityChecksInOrder :
    let o (a0 a1 a2 a3 a4 : Word) (f0 : F64) := (withOps (State.powerOn small) a0 a1 a2 a3 a4 f0).operands
    let outside (base : Word) (length : Nat) : Prop := small.dmemWords < base.toNat + length
    outside (o 33 0 0 0 0 0).a0 0 ∧ outside (o 1 0xFFFFFFFFFFFFFFFF 0 0 0 0).a0 (o 1 0xFFFFFFFFFFFFFFFF 0 0 0 0).a1.toNat ∧
      (o 0 0 0 0 0 0).a1 = 0 ∧ ((o 30 3 0 0 0 0).a1 ≠ 0 ∧ outside (o 30 3 0 0 0 0).a0 3) ∧
      (o 0 2 0 3 0 0).a1 ≠ (o 0 2 0 3 0 0).a3 ∧
      ((o 31 2 0 2 0 1).a1 = (o 31 2 0 2 0 1).a3 ∧ outside (o 31 2 0 2 0 1).a0 2) ∧
      (¬ outside (o 30 2 31 2 0 1).a0 2 ∧ outside (o 30 2 31 2 0 1).a2 2) ∧
      (¬ outside (o 30 2 30 2 29 1).a2 2 ∧ outside (o 30 2 30 2 29 1).a4 (2 * 2)) ∧
      (¬ outside (o 30 2 30 2 31 1).a2 2 ∧ outside (o 30 2 30 2 31 1).a4 2) ∧
      F64.isZero (o 0 0 0 0 0 0x8000000000000000).f0 = true ∧ F64.isZero (o 0 0 0 0 0 1).f0 = false ∧
      (o 0 3 0 0 0 0).a1.toNat % 2 = 1 ∧ ((o 31 2 0 0 0 0).a1.toNat % 2 = 0 ∧ outside (o 31 2 0 0 0 0).a0 2) ∧
      (¬ outside (o 30 2 0 0 32 0).a0 2 ∧ outside (o 30 2 0 0 32 0).a4 (2 / 2)) := by decide

/-- INTLV of `[1, 2]` and `[3, 4]`, then DEINTLV of its output. -/
theorem witness_DeintlvUndoesIntlv :
    ∃ t u v, ∃ o : Operands,
      exec .intlv (withOps (loaded 0 oneToFour) 0 2 2 2 10) = .next t ∧ errorCode t = 0 ∧ o.a0 = 10 ∧
      o.a1.toNat = 2 * 2 ∧ exec .deintlvLeft { t with ops := o } = .next u ∧
      exec .deintlvRight { t with ops := o } = .next v ∧ errorCode u = 0 ∧ errorCode v = 0 := by
  let o : Operands := { a0 := 10, a1 := 4, a2 := 0, a3 := 0, a4 := 20, f0 := 0 }
  obtain ⟨t, ht, hp⟩ := next_of_check (o := exec .intlv (withOps (loaded 0 oneToFour) 0 2 2 2 10))
    (p := fun t => errorCode t == 0 && succeeds .deintlvLeft { t with ops := o } &&
      succeeds .deintlvRight { t with ops := o }) (by decide +kernel)
  simp only [Bool.and_eq_true, beq_iff_eq] at hp
  obtain ⟨u, hu, hue⟩ := next_of_check hp.1.2
  obtain ⟨v, hv, hve⟩ := next_of_check hp.2
  exact ⟨t, u, v, o, ht, hp.1.1, rfl, rfl, hu, hv, by simpa using hue, by simpa using hve⟩

/-- The largest value below 2^1023, the least subnormal, a negative zero and an infinity. -/
theorem witness_MeanOfEqualsIsTheValue :
    (F64.isNaN 0x7FDFFFFFFFFFFFFF = false ∧ F64.expBits 0x7FDFFFFFFFFFFFFF < 2046) ∧
      (F64.isNaN 0x0000000000000001 = false ∧ F64.expBits 0x0000000000000001 < 2046) ∧
      (F64.isNaN 0x8000000000000000 = false ∧ F64.expBits 0x8000000000000000 < 2046) ∧
      (F64.isNaN 0xFFF0000000000000 = false ∧ F64.isInf 0xFFF0000000000000 = true) := by decide

theorem witness_ZeroBufferMeasuresZero :
    let s := withOps (loaded 30 [0, 0x8000000000000000]) 30 2 0 0 0
    s.operands.a0.toNat + s.operands.a1.toNat ≤ s.params.dmemWords ∧ s.operands.a1 ≠ 0 ∧
      ∀ k < s.operands.a1.toNat, ∃ x : F64, s.dmem.read (s.operands.a0.toNat + k) = some x ∧ F64.isZero x = true := by
  refine ⟨by decide, by decide, fun k hk => ?_⟩
  have h2 : k < 2 := lt_of_lt_of_eq hk (by decide)
  interval_cases k
  · exact ⟨0, by decide, by decide⟩
  · exact ⟨0x8000000000000000, by decide, by decide⟩

/-- The largest finite value and the least subnormal, for addition, multiplication and division. -/
theorem witness_finite_operands :
    F64.isFinite 0x7FEFFFFFFFFFFFFF = true ∧ F64.isFinite 0x8000000000000001 = true ∧ F64.isZero 0x8000000000000001 = false ∧
      F64.value 0x7FEFFFFFFFFFFFFF + F64.value 0xFFEFFFFFFFFFFFFF = 0 ∧
      F64.value 0x8000000000000000 = F64.value 0x0000000000000000 := by decide +kernel

/-- Infinities of both signs, and zeros and the largest finite value beside them, for the same three operations. -/
theorem witness_special_operands :
    F64.isInf 0x7FF0000000000000 = true ∧ F64.isInf 0xFFF0000000000000 = true ∧
      F64.sign 0x7FF0000000000000 ≠ F64.sign 0xFFF0000000000000 ∧ F64.isFinite 0x7FEFFFFFFFFFFFFF = true ∧
      (F64.isZero 0x0000000000000001 = false ∧ F64.isNaN 0x0000000000000001 = false) ∧
      (F64.isZero 0x7FF0000000000000 = false ∧ F64.isNaN 0x7FF0000000000000 = false) ∧
      F64.isZero 0x8000000000000000 = true := by decide

theorem witness_SquareRootIsNearest :
    (F64.isFinite 0x0000000000000001 = true ∧ F64.isZero 0x0000000000000001 = false ∧ F64.sign 0x0000000000000001 = false) ∧
      (F64.isNaN 0x8000000000000001 = false ∧ F64.isZero 0x8000000000000001 = false ∧
        F64.sign 0x8000000000000001 = true) := by decide

theorem witness_NanResultsExactlyWhenInvalid : F64.isNaN (F64.sub 0 0x7FF0000000000000 0x7FF0000000000000) = true := by
  have hq : ∀ d, F64.isNaN (F64.quietNaN d) = true := by
    intro d
    unfold F64.quietNaN F64.isNaN F64.mag F64.infMag
    generalize Config.nanResult d = r
    simp only [BitVec.toNat_append, decide_eq_true_eq]
    have h1 := (BitVec.extractLsb' 51 1 r).isLt
    have h2 := (BitVec.extractLsb' 0 51 r).isLt
    rw [← Nat.shiftLeft_add_eq_or_of_lt h2, ← Nat.shiftLeft_add_eq_or_of_lt (by decide)]
    simp only [Nat.shiftLeft_eq]
    have h3 : (4095 : BitVec 12).toNat = 4095 := by decide
    rw [h3]
    omega
  exact hq 0

theorem witness_ComparisonsAreQuiet :
    F64.isNaN 0x7FF0000000000001 = true ∧ F64.isFinite 0x8000000000000000 = true ∧ F64.isFinite 0 = true := by decide

theorem witness_IntegerConversionIsExact : 2 ^ 53 - 1 < 2 ^ 53 := by decide

theorem witness_Log10StatedValues :
    F64.isNaN 0xFFF8000000000000 = true ∧ (F64.sign 0xFFF0000000000000 = true ∧ F64.isZero 0xFFF0000000000000 = false) ∧
      (F64.isFinite 0x3FF0000000000000 = true ∧ F64.value 0x3FF0000000000000 = 10 ^ 0 * 2 ^ 1074) ∧
      (F64.isFinite 0x4480F0CF064DD592 = true ∧ F64.value 0x4480F0CF064DD592 = 10 ^ 22 * 2 ^ 1074) := by decide +kernel

/-- The first and the last index, and the first and the last power of two. -/
theorem witness_TwiddleRomRoundsCosineAndSine :
    (1 ≤ 1 ∧ 1 < 2 ^ 17 ∧ 2 ^ 17 - 1 < 2 ^ 17) ∧ 1 = 2 ^ 0 ∧ (65536 < 2 ^ 17 ∧ 65536 = 2 ^ 16) := by decide

/-- The largest and the smallest block. -/
def largest : Params := { log2Nmax := 17, dmemWords := 2 ^ 21, calK := 0x7FEFFFFFFFFFFFFF }

/-- The smallest block: N_MAX = 1, no SPECTRUM entry, one word of DMEM. -/
def smallest : Params := { log2Nmax := 0, dmemWords := 1, calK := 0x0000000000000001 }

theorem witness_AddressMap :
    largest.wf = true ∧ smallest.wf = true ∧ 2 ^ 21 - 1 < Window.size largest .dmem ∧ 2 ^ 17 - 1 < Window.size largest .twsin ∧
      0x0B0 % 8 = 0 ∧ locate largest 0x0B0 = none ∧ locate smallest 0x00300000 = none ∧
      locate largest 0x01FFFFF8 = some (.entry .dmem (2 ^ 21 - 1)) := by decide +kernel

/-- A last entry that has a value, in DMEM and in a ROM, and one that has none. -/
theorem witness_AddressMap_reads :
    let s := loaded 31 [0x4008000000000000]
    (s.params.wf = true ∧ 31 < Window.size s.params .dmem ∧ s.readEntry .dmem 31 = .ok 0x4008000000000000) ∧
      (7 < Window.size s.params .twcos ∧ s.readEntry .twcos 7 = .ok (Rom.twcos 7)) ∧
      (3 < Window.size s.params .spectrum ∧ s.readEntry .spectrum 3 = .error (.unwritten .spectrum 3)) := by
  refine ⟨by decide, ⟨by decide, rfl⟩, by decide⟩

theorem witness_BusErrorsFault :
    (4 ≠ 8) ∧ (0x01C : BitVec 32).toNat % 8 ≠ 0 ∧ ((0x0B0 : BitVec 32).toNat % 8 = 0 ∧ locate small 0x0B0 = none) ∧
      (0x078 : BitVec 32).toNat = Reg.result1.offset ∧ (0x018 : BitVec 32).toNat = Reg.status.offset ∧
      locate small 0x00600038 = some (.entry .twsin 7) := by decide

theorem witness_OperandRegistersReadBack : Reg.f0 ∈ [Reg.a0, .a1, .a2, .a3, .a4, .f0] ∧
    (running State.reset 1).running.isSome = true ∧ Reg.a0 ≠ Reg.f0 := by decide

theorem witness_WindowWritesReadBack :
    (State.powerOn largest).params.wf = true ∧ 2 ^ 21 - 1 < Window.size largest .dmem ∧ 7 < Window.size small .imag ∧
      Window.dmem ∈ [Window.real, .imag, .dmem] := by decide +kernel

theorem witness_CmdWriteIssuesOrOverruns :
    State.reset.running = none ∧ (running State.reset 1).running.isSome = true := by decide

theorem witness_CtrlWriteSetsIrqEnable : (0xFFFFFFFFFFFFFFFE : Word).getLsbD 0 = false := by decide

theorem witness_SoftResetAborts :
    (3 : Word).getLsbD 0 = true ∧ decodeWord 2 = .ok .fwd ∧ decodeWord 8 = .error .reservedOpcode ∧
      (running (conf4 0 oneToFour) 2).running = some { word := 2, ops := Operands.zero } ∧
      (conf4 0 oneToFour).running = none ∧
      couldWrite (conf4 0 oneToFour) Operands.zero .fwd .real 3 ∧
      ¬ couldWrite (conf4 0 oneToFour) Operands.zero .fwd .real 4 := by
  refine ⟨by decide, by decide, by decide, by decide, by decide, Or.inr ⟨rfl, by decide⟩, ?_⟩
  rintro (⟨h, -⟩ | ⟨-, h⟩)
  · cases h
  · exact absurd h (by decide)

theorem witness_WindowAccessIsHeld :
    let a : HostAccess := .read 0x01000000 8
    let s := { running State.reset 1 with inputs := [.access a] }
    let u := { State.reset with held := some a, inputs := [.engine] }
    (s.running.isSome = true ∧ a.toWindow s.params = true ∧ s.held = none ∧ s.inputs = .access a :: []) ∧
      (u.held = some a ∧ u.running = none ∧ u.inputs = .engine :: []) ∧
      ({ s with held := some a }.held = some a ∧ { s with inputs := [.powerOnReset] }.inputs = .powerOnReset :: []) ∧
      (HostAccess.read 0x018 8).location s.params = .ok (.reg .status) := by decide

theorem witness_PowerOnResetValues :
    { running (conf4 0 oneToFour) 2 with inputs := [.powerOnReset] }.inputs = .powerOnReset :: [] := by decide

theorem witness_InvariantHoldsAtPowerOn : largest.wf = true ∧ smallest.wf = true ∧ Params.reference.wf = true := by decide

/-- A configured state with the latched command about to run, one with a held access, and the state after reset. -/
theorem witness_StepKeepsInvariant :
    let s := running (withOps (conf4 0 oneToFour) 0 4 0 0 8) 2
    s.Inv ∧ { s with held := some (.read 0x01000000 8) }.Inv ∧ (State.powerOn smallest).Inv ∧
      ∃ t, step s = .next t := by
  refine ⟨by decide +kernel, by decide +kernel, by decide +kernel, ?_⟩
  obtain ⟨t, h, -⟩ := next_of_check
    (o := step (running (withOps (conf4 0 oneToFour) 0 4 0 0 8) 2)) (p := fun _ => true) (by decide +kernel)
  exact ⟨t, h⟩

/-- Faults of both kinds in states that meet the invariant. -/
theorem witness_FaultsOnlyWhereTheSpecSays :
    let s := withOps (conf4 0 oneToFour) 28 4 0 0 0
    s.Inv ∧ s.flags.configured = true ∧ faults (exec .fwd s) (.unwritten .dmem 28) = true ∧
      faults (step { s with inputs := [.access (.read 0x018 4)] }) (.busError .width) = true := by decide +kernel

end Sys2Proof.Tests
end

section
/-! PROOFS. Patterns of binary64: the classes of values (R17, R18), the patterns that operations construct, `neg` and `abs` (R23),
the comparisons (R25), and which rounded values are exact. -/

namespace Sys2Proof.F64

/-! ## Classes of values -/

theorem infMag_pos : 0 < infMag := by decide

@[simp] theorem isNaN_iff (x : F64) : isNaN x = true ↔ infMag < mag x := decide_eq_true_iff
@[simp] theorem isInf_iff (x : F64) : isInf x = true ↔ mag x = infMag := decide_eq_true_iff
@[simp] theorem isFinite_iff (x : F64) : isFinite x = true ↔ mag x < infMag := decide_eq_true_iff
@[simp] theorem isZero_iff (x : F64) : isZero x = true ↔ mag x = 0 := decide_eq_true_iff
@[simp] theorem isNaN_eq_false_iff (x : F64) : isNaN x = false ↔ mag x ≤ infMag := by simp [isNaN]
@[simp] theorem isInf_eq_false_iff (x : F64) : isInf x = false ↔ mag x ≠ infMag := by simp [isInf]
@[simp] theorem isZero_eq_false_iff (x : F64) : isZero x = false ↔ mag x ≠ 0 := by simp [isZero]

theorem isNaN_of_isFinite {x : F64} (h : isFinite x = true) : isNaN x = false := by
  rw [isFinite_iff] at h; rw [isNaN_eq_false_iff]; omega

theorem isInf_of_isFinite {x : F64} (h : isFinite x = true) : isInf x = false := by
  rw [isFinite_iff] at h; rw [isInf_eq_false_iff]; omega

theorem isNaN_of_isInf {x : F64} (h : isInf x = true) : isNaN x = false := by
  rw [isInf_iff] at h; rw [isNaN_eq_false_iff]; omega

theorem isZero_of_isInf {x : F64} (h : isInf x = true) : isZero x = false := by
  have := infMag_pos
  rw [isInf_iff] at h; rw [isZero_eq_false_iff]; omega

theorem isZero_of_isNaN {x : F64} (h : isNaN x = true) : isZero x = false := by
  have := infMag_pos
  rw [isNaN_iff] at h; rw [isZero_eq_false_iff]; omega

theorem isFinite_of_isZero {x : F64} (h : isZero x = true) : isFinite x = true := by
  have := infMag_pos
  rw [isZero_iff] at h; rw [isFinite_iff]; omega

/-! ## Constructed patterns -/

@[simp] theorem sign_inf (s : Bool) : sign (inf s) = s := sign_pack infMag_lt
@[simp] theorem mag_inf (s : Bool) : mag (inf s) = infMag := mag_pack infMag_lt
@[simp] theorem sign_zero (s : Bool) : sign (zero s) = s := sign_pack (by decide)
@[simp] theorem mag_zero (s : Bool) : mag (zero s) = 0 := mag_pack (by decide)

theorem eq_inf_of_isInf {x : F64} (h : isInf x = true) : x = inf (sign x) :=
  ext_sign_mag (sign_inf _).symm (by rw [mag_inf]; exact (isInf_iff x).mp h)

@[simp] theorem value_zero (s : Bool) : value (zero s) = 0 := by
  have hu : units (zero s) = 0 := by rw [units_eq, mag_zero]; rfl
  simp [value, hu]

/-- An append as a sum. -/
theorem toNat_append {v w : Nat} (x : BitVec v) (y : BitVec w) : (x ++ y).toNat = x.toNat * 2 ^ w + y.toNat := by
  rw [BitVec.toNat_append, ← Nat.shiftLeft_add_eq_or_of_lt y.isLt, Nat.shiftLeft_eq]

@[simp] theorem isNaN_quietNaN (d : Nat) : isNaN (quietNaN d) = true := by
  have hn : (quietNaN d).toNat = _ := (toNat_append _ _).trans (congrArg (· * 2 ^ 51 + _) (toNat_append _ _))
  have hb := ((Config.nanResult d).extractLsb' 0 51).isLt
  rw [isNaN_iff]
  unfold mag infMag
  rw [hn, show BitVec.toNat (0xFFF : BitVec 12) = 0xFFF from rfl]
  omega

/-- Bit 51, which makes the NaN quiet (R18). -/
theorem getLsbD_quietNaN (d : Nat) : (quietNaN d).getLsbD 51 = true := by
  unfold quietNaN
  rw [BitVec.getLsbD_append, if_neg (by decide), BitVec.getLsbD_append, if_pos (by decide)]
  rfl

@[simp] theorem isNaN_nanOf (r : BitVec 53) : isNaN (nanOf r) = true := by
  have hfrac : ∀ f : BitVec 52, 0 < (if f = 0 then 0x8000000000000 else f).toNat := fun f => by
    split
    · decide
    · next h => exact Nat.pos_of_ne_zero fun h0 => h (BitVec.eq_of_toNat_eq h0)
  have hb := (if r.extractLsb' 0 52 = 0 then 0x8000000000000 else r.extractLsb' 0 52).isLt
  have h0 := hfrac (r.extractLsb' 0 52)
  have hn : (nanOf r).toNat = _ := (toNat_append _ _).trans (congrArg (· * 2 ^ 52 + _) (toNat_append _ _))
  rw [isNaN_iff]
  unfold mag infMag
  rw [hn, show BitVec.toNat (0x7FF : BitVec 11) = 0x7FF from rfl]
  omega

/-! ## `neg` and `abs` (R23) -/

theorem getLsbD_signBit {b : Nat} (hb : b < 64) : (0x8000000000000000 : BitVec 64).getLsbD b = decide (b = 63) := by
  interval_cases b <;> decide

theorem getLsbD_magBits {b : Nat} (hb : b < 64) : (0x7FFFFFFFFFFFFFFF : BitVec 64).getLsbD b = !decide (b = 63) := by
  interval_cases b <;> decide

theorem getLsbD_neg (x : F64) {b : Nat} (hb : b < 64) :
    (neg x).getLsbD b = if b = 63 then !x.getLsbD b else x.getLsbD b := by
  rw [neg, BitVec.getLsbD_xor, getLsbD_signBit hb]
  split <;> simp [*]

theorem getLsbD_abs (x : F64) {b : Nat} (hb : b < 64) :
    (abs x).getLsbD b = if b = 63 then false else x.getLsbD b := by
  rw [abs, BitVec.getLsbD_and, getLsbD_magBits hb]
  split <;> simp [*]

theorem sign_eq_getLsbD (x : F64) : sign x = x.getLsbD 63 := BitVec.msb_eq_getLsbD_last x

/-- The magnitude depends on the bits below the sign only. -/
theorem mag_congr {x y : F64} (h : ∀ b < 63, x.getLsbD b = y.getLsbD b) : mag x = mag y := by
  refine Nat.eq_of_testBit_eq fun b => ?_
  unfold mag
  rw [Nat.testBit_mod_two_pow, Nat.testBit_mod_two_pow]
  by_cases hb : b < 63
  · exact congrArg (decide (b < 63) && ·) (h b hb)
  · simp [hb]

@[simp] theorem mag_neg (x : F64) : mag (neg x) = mag x :=
  mag_congr fun b hb => by rw [getLsbD_neg x (by omega), if_neg (by omega)]

@[simp] theorem mag_abs (x : F64) : mag (abs x) = mag x :=
  mag_congr fun b hb => by rw [getLsbD_abs x (by omega), if_neg (by omega)]

@[simp] theorem sign_neg (x : F64) : sign (neg x) = !sign x := by
  rw [sign_eq_getLsbD, sign_eq_getLsbD, getLsbD_neg x (by decide), if_pos rfl]

@[simp] theorem sign_abs (x : F64) : sign (abs x) = false := by
  rw [sign_eq_getLsbD, getLsbD_abs x (by decide), if_pos rfl]

@[simp] theorem units_neg (x : F64) : units (neg x) = units x := by rw [units_eq, mag_neg, units_eq]
@[simp] theorem units_abs (x : F64) : units (abs x) = units x := by rw [units_eq, mag_abs, units_eq]

@[simp] theorem value_neg (x : F64) : value (neg x) = -value x := by
  unfold value
  rw [sign_neg, units_neg]
  cases sign x <;> simp

@[simp] theorem value_abs (x : F64) : value (abs x) = |value x| := by
  unfold value
  rw [sign_abs, units_abs]
  cases sign x <;> simp

@[simp] theorem isNaN_neg (x : F64) : isNaN (neg x) = isNaN x := by unfold isNaN; rw [mag_neg]
@[simp] theorem isNaN_abs (x : F64) : isNaN (abs x) = isNaN x := by unfold isNaN; rw [mag_abs]
@[simp] theorem isInf_neg (x : F64) : isInf (neg x) = isInf x := by unfold isInf; rw [mag_neg]
@[simp] theorem isFinite_neg (x : F64) : isFinite (neg x) = isFinite x := by unfold isFinite; rw [mag_neg]
@[simp] theorem isFinite_abs (x : F64) : isFinite (abs x) = isFinite x := by unfold isFinite; rw [mag_abs]

/-- Settles O41: bit by bit, then through sign and magnitude. -/
theorem negAndAbsTouchOnlyTheSign : Obligations.NegAndAbsTouchOnlyTheSign := by
  intro x
  refine ⟨fun b hb => ⟨getLsbD_neg x hb, getLsbD_abs x hb⟩, fun hf => ?_, isNaN_neg x, isNaN_abs x⟩
  exact ⟨by rwa [isFinite_neg], value_neg x, by rwa [isFinite_abs], value_abs x⟩

/-! ## Comparisons (R25) -/

theorem unitsOf_zero : unitsOf 0 = 0 := rfl

/-- Keys are in the order of the values. -/
theorem key_lt_key_iff (x y : F64) : key x < key y ↔ value x < value y := by
  have hxy := unitsOf_strictMono.lt_iff_lt (a := mag x) (b := mag y)
  have hyx := unitsOf_strictMono.lt_iff_lt (a := mag y) (b := mag x)
  have hx := unitsOf_strictMono.lt_iff_lt (a := 0) (b := mag x)
  have hy := unitsOf_strictMono.lt_iff_lt (a := 0) (b := mag y)
  rw [unitsOf_zero] at hx hy
  unfold key value
  rw [units_eq, units_eq]
  cases sign x <;> cases sign y <;> simp only [Bool.false_eq_true, if_true, if_false] <;> omega

theorem key_eq_key_iff (x y : F64) : key x = key y ↔ value x = value y := by
  have h1 := key_lt_key_iff x y
  have h2 := key_lt_key_iff y x
  omega

/-- A finite value's key lies strictly between those of the infinities. -/
theorem key_bounds_of_isFinite {x : F64} (h : isFinite x = true) : -(infMag : Int) < key x ∧ key x < infMag := by
  rw [isFinite_iff] at h
  unfold key
  split <;> omega

@[simp] theorem key_inf (s : Bool) : key (inf s) = if s then -(infMag : Int) else infMag := by
  rw [key, sign_inf, mag_inf]

theorem gt_iff {x y : F64} (hx : isNaN x = false) (hy : isNaN y = false) : gt x y = decide (key y < key x) := by
  simp [gt, hx, hy]

theorem eq_iff {x y : F64} (hx : isNaN x = false) (hy : isNaN y = false) : eq x y = decide (key x = key y) := by
  simp [eq, hx, hy]

/-- A comparison with a NaN is false (R24, R25). -/
theorem gt_eq_false_of_isNaN {x y : F64} (h : isNaN x = true ∨ isNaN y = true) : gt x y = false := by
  rcases h with h | h <;> simp [gt, h]

theorem eq_eq_false_of_isNaN {x y : F64} (h : isNaN x = true ∨ isNaN y = true) : eq x y = false := by
  rcases h with h | h <;> simp [eq, h]

theorem isNaN_inf (s : Bool) : isNaN (inf s) = false := by simp

/-- Settles O42: the comparisons are those of the keys, which are in the order of the values. -/
theorem comparisonsAreQuiet : Obligations.ComparisonsAreQuiet := by
  intro x y
  refine ⟨fun h => ⟨gt_eq_false_of_isNaN h, eq_eq_false_of_isNaN h⟩, fun hx hy => ?_, fun hx => ?_, ?_⟩
  · rw [gt_iff (isNaN_of_isFinite hx) (isNaN_of_isFinite hy), eq_iff (isNaN_of_isFinite hx) (isNaN_of_isFinite hy),
      decide_eq_true_iff, decide_eq_true_iff]
    exact ⟨key_lt_key_iff y x, key_eq_key_iff x y⟩
  · obtain ⟨hlo, hhi⟩ := key_bounds_of_isFinite hx
    have hn := isNaN_of_isFinite hx
    simp only [gt_iff hn (isNaN_inf _), gt_iff (isNaN_inf _) hn, eq_iff hn (isNaN_inf _), key_inf, decide_eq_true_iff,
      decide_eq_false_iff_not, if_true, Bool.false_eq_true, if_false]
    omega
  · have := infMag_pos
    simp only [gt_iff (isNaN_inf _) (isNaN_inf _), eq_iff (isNaN_inf _) (isNaN_inf _), key_inf, lt_irrefl, decide_false,
      decide_true, decide_eq_true_iff, decide_eq_false_iff_not, if_true, Bool.false_eq_true, if_false, implies_true, and_true]
    omega

end Sys2Proof.F64
end

section
/-! PROOFS. Values with a short significand round to themselves (R21), and so the conversion of integers (R27) and LOG10 of the powers
of ten (R13). -/

namespace Sys2Proof.F64

/-! ## Exact roundings -/

theorem divPow2Even_mul_of_dvd {m d : Nat} (h : 2 ^ d ∣ m) : divPow2Even m d * 2 ^ d = m := by
  have hq : divPow2Even m d = m / 2 ^ d := by
    simp only [divPow2Even, Nat.mod_eq_zero_of_dvd h]
    rw [if_neg]
    have := Nat.two_pow_pos d
    omega
  rw [hq, Nat.div_mul_cancel h]

/-- Nothing above `2^e` is dropped of a significand below `2^53` at `2^e`. -/
theorem dropBits_le {c e k : Nat} (hc : c < 2 ^ 53) (hk : k ≤ e) : dropBits (c * 2 ^ e) k ≤ e := by
  have hlog : (c * 2 ^ e).log2 < 53 + e := by
    rcases Nat.eq_zero_or_pos c with rfl | h0
    · rw [zero_mul, Nat.log2_zero]; omega
    · rw [Nat.log2_lt (Nat.mul_pos h0 (Nat.two_pow_pos _)).ne', Nat.pow_add]
      exact Nat.mul_lt_mul_of_pos_right hc (Nat.two_pow_pos _)
  unfold dropBits
  omega

/-- A significand below `2^53` at or above the finest unit is rounded to itself. -/
theorem unitsOf_roundBits_of_short {c e k : Nat} (hc : c < 2 ^ 53) (hk : k ≤ e) :
    unitsOf (roundBits (c * 2 ^ e) k) * 2 ^ k = c * 2 ^ e := by
  rw [unitsOf_roundBits]
  exact divPow2Even_mul_of_dvd ((pow_dvd_pow 2 (dropBits_le hc hk)).trans (Nat.dvd_mul_left _ _))

theorem unitsOf_roundBits_zero_of_short {c e : Nat} (hc : c < 2 ^ 53) : unitsOf (roundBits (c * 2 ^ e) 0) = c * 2 ^ e := by
  have h := unitsOf_roundBits_of_short hc (Nat.zero_le e)
  rwa [pow_zero, mul_one] at h

/-- Every magnitude has a significand below `2^53`. -/
theorem exists_short_significand (x : F64) : ∃ c e : Nat, c < 2 ^ 53 ∧ units x = c * 2 ^ e := by
  unfold units fracBits
  have hf : mag x % 2 ^ 52 < 2 ^ 52 := Nat.mod_lt _ (by decide)
  split
  · exact ⟨mag x % 2 ^ 52, 0, by omega, by rw [pow_zero, mul_one]⟩
  · exact ⟨2 ^ 52 + mag x % 2 ^ 52, expBits x - 1, by omega, rfl⟩

/-- A finite value is the rounding of its own magnitude. -/
theorem round_units {x : F64} (h : isFinite x = true) : round (sign x) (units x) 0 = x := by
  obtain ⟨c, e, hc, he⟩ := exists_short_significand x
  have hb : roundBits (units x) 0 = mag x := by
    apply unitsOf_strictMono.injective
    rw [← units_eq, he, unitsOf_roundBits_zero_of_short hc]
  refine ext_sign_mag (sign_round _ _ _) ?_
  rw [mag_round, hb, if_neg (not_le.mpr ((isFinite_iff x).mp h))]

theorem value_eq_units {x : F64} (h : sign x = false) : value x = units x := by simp [value, h]

/-- Settles O43: an integer below `2^53` is its own significand. -/
theorem integerConversionIsExact : Obligations.IntegerConversionIsExact := by
  intro n hn
  obtain ⟨hf, hu⟩ := units_ofNat hn
  have hs : sign (ofNat n) = false := sign_round _ _ _
  refine ⟨hf, hs, ?_⟩
  rw [value_eq_units hs, hu]
  push_cast
  rfl

/-! ## LOG10 (R13) -/

/-- A finite value equal to an integer is its conversion. -/
theorem ofNat_eq_of_value {x : F64} {n : Nat} (hn : 0 < n) (hf : isFinite x = true) (hv : value x = (n : Int) * 2 ^ 1074) :
    sign x = false ∧ units x = n * 2 ^ 1074 ∧ ofNat n = x := by
  have hpos : 0 < value x := by rw [hv]; positivity
  have hs : sign x = false := by
    by_contra hs
    rw [value, if_pos (by simpa using hs)] at hpos
    omega
  have hu : units x = n * 2 ^ 1074 := by
    rw [value_eq_units hs] at hv
    exact_mod_cast hv
  refine ⟨hs, hu, ?_⟩
  have := round_units hf
  rwa [hs, hu] at this

theorem ten_pow_eq (k : Nat) : 10 ^ k = 5 ^ k * 2 ^ k := Nat.mul_pow 5 2 k

/-- The powers of ten that binary64 represents are those to the 22nd: `5^k` divides the significand. -/
theorem le_22_of_units {x : F64} {k : Nat} (hu : units x = 10 ^ k * 2 ^ 1074) : k ≤ 22 := by
  obtain ⟨c, e, hc, he⟩ := exists_short_significand x
  have hdvd : 5 ^ k ∣ c * 2 ^ e := by
    rw [← he, hu, ten_pow_eq, mul_assoc]
    exact Nat.dvd_mul_right _ _
  have h5 : 5 ^ k ∣ c := (Nat.Coprime.pow k e (by decide : Nat.Coprime 5 2)).dvd_of_dvd_mul_right hdvd
  have hc0 : 0 < c := by
    rw [Nat.pos_iff_ne_zero]
    rintro rfl
    have h10 : 0 < 10 ^ k * 2 ^ 1074 := by positivity
    omega
  by_contra hk
  have h23 : 5 ^ 23 ≤ 5 ^ k := Nat.pow_le_pow_right (by decide) (by omega)
  have := Nat.le_of_dvd hc0 h5
  omega

/-- The conversions of the first powers of ten are exact, and so distinct. -/
theorem units_ofNat_powerOfTen {j : Nat} (hj : j ≤ 22) (hf : isFinite (ofNat (10 ^ j)) = true) :
    units (ofNat (10 ^ j)) = 10 ^ j * 2 ^ 1074 := by
  have h5 : 5 ^ j < 2 ^ 53 := lt_of_le_of_lt (Nat.pow_le_pow_right (by decide) hj) (by decide)
  have hsplit : 10 ^ j * 2 ^ 1074 = 5 ^ j * 2 ^ (j + 1074) := by rw [ten_pow_eq, pow_add, mul_assoc]
  have hfin : roundBits (10 ^ j * 2 ^ 1074) 0 < infMag := by
    rw [isFinite_iff, ofNat, mag_round] at hf
    split at hf
    · exact absurd hf (lt_irrefl _)
    · exact hf
  rw [ofNat, units_round hfin, hsplit, unitsOf_roundBits_zero_of_short h5]

theorem powerOfTen_eq_some {x : F64} {k : Nat} (hf : isFinite x = true) (hv : value x = 10 ^ k * 2 ^ 1074) :
    powerOfTen x = some k := by
  obtain ⟨-, hu, hx⟩ := ofNat_eq_of_value (n := 10 ^ k) (by positivity) hf (by rw [hv]; push_cast; rfl)
  have hk := le_22_of_units hu
  unfold powerOfTen
  rw [List.find?_range_eq_some]
  refine ⟨beq_iff_eq.mpr hx.symm, List.mem_range.mpr (by omega), fun j hj => ?_⟩
  rw [Bool.not_eq_true', beq_eq_false_iff_ne]
  intro hxj
  rw [hxj] at hf hu
  rw [units_ofNat_powerOfTen (by omega) hf] at hu
  have : 10 ^ j < 10 ^ k := Nat.pow_lt_pow_right (by decide) hj
  exact this.ne (Nat.mul_right_cancel (Nat.two_pow_pos _) hu)

/-- Settles O44: the arms of LOG10, and that its table finds every representable power of ten. -/
theorem log10StatedValues : Obligations.Log10StatedValues := by
  have hzero (s : Bool) : log10 (zero s) = inf true := by simp [log10]
  refine ⟨hzero false, hzero true, ?_, fun x hx => ?_, fun x k hf hv => ?_⟩
  · have h0 : infMag ≠ 0 := infMag_pos.ne'
    simp [log10, isZero, isNaN, isInf, h0]
  · have hz : isZero x = false := by
      rcases hx with hn | ⟨-, hz⟩
      · exact isZero_of_isNaN hn
      · exact hz
    have hor : (isNaN x || sign x) = true := by
      rcases hx with hn | ⟨hs, -⟩
      · rw [hn, Bool.true_or]
      · rw [hs, Bool.or_true]
    rw [log10, hz, hor, if_neg Bool.false_ne_true, if_pos rfl]
    exact isNaN_nanOf _
  · obtain ⟨hs, hu, -⟩ := ofNat_eq_of_value (n := 10 ^ k) (by positivity) hf (by rw [hv]; push_cast; rfl)
    have hz : isZero x = false := by
      rw [isZero_eq_false_iff]
      intro h0
      rw [units_eq, h0, unitsOf_zero] at hu
      have h10 : 0 < 10 ^ k * 2 ^ 1074 := by positivity
      omega
    simp only [log10, hz, isNaN_of_isFinite hf, hs, isInf_of_isFinite hf, powerOfTen_eq_some hf hv, Bool.or_self,
      Bool.false_eq_true, if_false]

end Sys2Proof.F64
end

section
/-! PROOFS. What each operation gives on each class of operands (R21, R22, R24), an equation per case; addition, multiplication and
division round correctly, and a result is a NaN exactly for a NaN operand or an invalid operation. -/

namespace Sys2Proof.F64

/-! ## The classes of two operands -/

theorem isNaN_or_isInf_or_isFinite (x : F64) : isNaN x = true ∨ isInf x = true ∨ isFinite x = true := by
  rw [isNaN_iff, isInf_iff, isFinite_iff]
  omega

theorem operand_cases (a b : F64) : (isNaN a = true ∨ isNaN b = true) ∨ (isInf a = true ∧ isInf b = true) ∨
    (isInf a = true ∧ isFinite b = true) ∨ (isFinite a = true ∧ isInf b = true) ∨
    (isFinite a = true ∧ isFinite b = true) := by
  have ha := isNaN_or_isInf_or_isFinite a
  have hb := isNaN_or_isInf_or_isFinite b
  tauto

/-- `r` is a NaN exactly under the condition `p`, and then the one of draw `d` (R24). -/
def NanExactly (d : Nat) (r : F64) (p : Prop) : Prop := (isNaN r = true ↔ p) ∧ (isNaN r = true → r = quietNaN d)

theorem nanExactly_quietNaN {d : Nat} {p : Prop} (hp : p) : NanExactly d (quietNaN d) p :=
  ⟨iff_of_true (isNaN_quietNaN d) hp, fun _ => rfl⟩

theorem nanExactly_of_isNaN_eq_false {d : Nat} {r : F64} {p : Prop} (hr : isNaN r = false) (hp : ¬p) : NanExactly d r p := by
  have hr' : ¬isNaN r = true := by rw [hr]; exact Bool.false_ne_true
  exact ⟨iff_of_false hr' hp, fun h => absurd h hr'⟩

/-! ## Addition and subtraction -/

theorem add_of_isNaN (d : Nat) {a b : F64} (h : isNaN a = true ∨ isNaN b = true) : add d a b = quietNaN d := by
  rcases h with h | h <;> simp only [add, h, Bool.true_or, Bool.or_true, if_true]

theorem add_inf_inf (d : Nat) {a b : F64} (ha : isInf a = true) (hb : isInf b = true) :
    add d a b = if sign a = sign b then inf (sign a) else quietNaN d := by
  simp only [add, isNaN_of_isInf ha, isNaN_of_isInf hb, ha, hb, ← eq_inf_of_isInf ha]
  cases sign a <;> cases sign b <;> rfl

theorem add_inf_finite (d : Nat) {a b : F64} (ha : isInf a = true) (hb : isFinite b = true) :
    add d a b = inf (sign a) := by
  rw [← eq_inf_of_isInf ha]
  simp [add, isNaN_of_isInf ha, isNaN_of_isFinite hb, isInf_of_isFinite hb, ha]

theorem add_finite_inf (d : Nat) {a b : F64} (ha : isFinite a = true) (hb : isInf b = true) :
    add d a b = inf (sign b) := by
  rw [← eq_inf_of_isInf hb]
  simp [add, isNaN_of_isInf hb, isNaN_of_isFinite ha, isInf_of_isFinite ha, hb]

theorem add_finite (d : Nat) {a b : F64} (ha : isFinite a = true) (hb : isFinite b = true) :
    add d a b = if value a + value b = 0 then zero (sign a && sign b) else Rom.nearest (value a + value b) := by
  simp [add, Rom.nearest, isNaN_of_isFinite ha, isNaN_of_isFinite hb, isInf_of_isFinite ha, isInf_of_isFinite hb]

theorem isRounded_zero (s : Bool) : IsRounded 0 1 (zero s) := by
  refine Or.inr ⟨?_, isFinite_of_isZero (by simp), fun y _ => by simp⟩
  unfold overflowUnits
  positivity

theorem add_isRounded (d : Nat) {a b : F64} (ha : isFinite a = true) (hb : isFinite b = true) :
    IsRounded (value a + value b) 1 (add d a b) := by
  rw [add_finite d ha hb]
  split
  · next h => rw [h]; exact isRounded_zero _
  · exact Rom.nearest_isRounded _

theorem add_eq_zero (d : Nat) {a b : F64} (ha : isFinite a = true) (hb : isFinite b = true) (h : value a + value b = 0) :
    add d a b = zero (sign a && sign b) := by
  rw [add_finite d ha hb, if_pos h]

/-- Settles O36: the exact sum is rounded by `round`, and a difference is the sum with the second sign inverted. -/
theorem additionRoundsToNearestEven : Obligations.AdditionRoundsToNearestEven := by
  intro d a b
  refine ⟨fun ha hb => ?_, fun ha hb => ?_, fun ha hb => ?_, fun ha hb => ?_⟩
  · have hb' : isFinite (neg b) = true := by rwa [isFinite_neg]
    refine ⟨add_isRounded d ha hb, ?_, add_eq_zero d ha hb, fun h => ?_⟩
    · rw [sub_eq_add_neg, ← value_neg]
      exact add_isRounded d ha hb'
    · rw [← sign_neg]
      exact add_eq_zero d ha hb' (by rw [value_neg, h, add_neg_cancel])
  · exact ⟨add_inf_finite d ha hb, add_inf_finite d ha (by rwa [isFinite_neg])⟩
  · refine ⟨add_finite_inf d ha hb, ?_⟩
    rw [← sign_neg]
    exact add_finite_inf d ha (by rwa [isInf_neg])
  · refine ⟨fun hs => by rw [add_inf_inf d ha hb, if_pos hs], fun hs => ?_⟩
    rw [sub, add_inf_inf d ha (by rwa [isInf_neg]), sign_neg, if_pos (Bool.eq_not.mpr hs)]

theorem nanExactly_add (d : Nat) (a b : F64) : NanExactly d (add d a b) (isNaN a = true ∨ isNaN b = true ∨
    (isInf a = true ∧ isInf b = true ∧ sign a ≠ sign b)) := by
  rcases operand_cases a b with h | ⟨ha, hb⟩ | ⟨ha, hb⟩ | ⟨ha, hb⟩ | ⟨ha, hb⟩
  · rw [add_of_isNaN d h]
    exact nanExactly_quietNaN (by tauto)
  · rw [add_inf_inf d ha hb]
    split
    · next hs => exact nanExactly_of_isNaN_eq_false (isNaN_inf _) (by simp [isNaN_of_isInf ha, isNaN_of_isInf hb, hs])
    · next hs => exact nanExactly_quietNaN (Or.inr (Or.inr ⟨ha, hb, hs⟩))
  · rw [add_inf_finite d ha hb]
    exact nanExactly_of_isNaN_eq_false (isNaN_inf _)
      (by simp [isNaN_of_isInf ha, isNaN_of_isFinite hb, isInf_of_isFinite hb])
  · rw [add_finite_inf d ha hb]
    exact nanExactly_of_isNaN_eq_false (isNaN_inf _)
      (by simp [isNaN_of_isInf hb, isNaN_of_isFinite ha, isInf_of_isFinite ha])
  · refine nanExactly_of_isNaN_eq_false ?_
      (by simp [isNaN_of_isFinite ha, isNaN_of_isFinite hb, isInf_of_isFinite ha])
    rw [add_finite d ha hb]
    split
    · simp
    · exact isNaN_round _ _ _

theorem nanExactly_sub (d : Nat) (a b : F64) : NanExactly d (sub d a b) (isNaN a = true ∨ isNaN b = true ∨
    (isInf a = true ∧ isInf b = true ∧ sign a = sign b)) := by
  have h := nanExactly_add d a (neg b)
  rwa [isNaN_neg, isInf_neg, sign_neg, show (sign a ≠ !sign b) ↔ sign a = sign b from Bool.ne_not] at h

/-! ## Multiplication -/

theorem mul_of_isNaN (d : Nat) {a b : F64} (h : isNaN a = true ∨ isNaN b = true) : mul d a b = quietNaN d := by
  rcases h with h | h <;> simp only [mul, h, Bool.true_or, Bool.or_true, if_true]

theorem mul_inf (d : Nat) {a b : F64} (ha : isNaN a = false) (hb : isNaN b = false)
    (h : isInf a = true ∨ isInf b = true) :
    mul d a b = if isZero a = true ∨ isZero b = true then quietNaN d else inf (sign a != sign b) := by
  rcases h with h | h <;> simp [mul, ha, hb, h, -isNaN_eq_false_iff]

theorem mul_finite (d : Nat) {a b : F64} (ha : isFinite a = true) (hb : isFinite b = true) :
    mul d a b = round (sign a != sign b) (units a * units b) 1074 := by
  simp only [mul, isNaN_of_isFinite ha, isNaN_of_isFinite hb, isInf_of_isFinite ha, isInf_of_isFinite hb, Bool.or_self,
    Bool.false_eq_true, if_false]

theorem value_mul_value (a b : F64) : value a * value b =
    if sign a != sign b then -((units a * units b : Nat) : Int) else (units a * units b : Nat) := by
  unfold value
  cases sign a <;> cases sign b <;> simp

/-- Settles O37: the product of the magnitudes is rounded by `round`. -/
theorem multiplicationRoundsToNearestEven : Obligations.MultiplicationRoundsToNearestEven := by
  intro d a b
  refine ⟨fun ha hb => ?_, fun ha hz hb => ?_, fun hz ha hb => ?_⟩
  · rw [mul_finite d ha hb, value_mul_value]
    exact ⟨round_isRounded _ _ _, sign_round _ _ _⟩
  · rw [mul_inf d (isNaN_of_isInf ha) hb (Or.inl ha), if_neg]
    rw [isZero_of_isInf ha, hz]
    decide
  · rw [mul_inf d ha (isNaN_of_isInf hb) (Or.inr hb), if_neg]
    rw [isZero_of_isInf hb, hz]
    decide

theorem nanExactly_mul (d : Nat) (a b : F64) : NanExactly d (mul d a b) (isNaN a = true ∨ isNaN b = true ∨
    (isZero a = true ∧ isInf b = true) ∨ (isInf a = true ∧ isZero b = true)) := by
  have hinf (ha : isNaN a = false) (hb : isNaN b = false) (h : isInf a = true ∨ isInf b = true) :
      NanExactly d (mul d a b) (isNaN a = true ∨ isNaN b = true ∨
        (isZero a = true ∧ isInf b = true) ∨ (isInf a = true ∧ isZero b = true)) := by
    have hza : isInf a = true → ¬isZero a = true := fun hi => by rw [isZero_of_isInf hi]; decide
    have hzb : isInf b = true → ¬isZero b = true := fun hi => by rw [isZero_of_isInf hi]; decide
    rw [mul_inf d ha hb h]
    split
    · exact nanExactly_quietNaN (by tauto)
    · exact nanExactly_of_isNaN_eq_false (isNaN_inf _) (by rw [ha, hb]; tauto)
  rcases operand_cases a b with h | ⟨ha, hb⟩ | ⟨ha, hb⟩ | ⟨ha, hb⟩ | ⟨ha, hb⟩
  · rw [mul_of_isNaN d h]
    exact nanExactly_quietNaN (by tauto)
  · exact hinf (isNaN_of_isInf ha) (isNaN_of_isInf hb) (Or.inl ha)
  · exact hinf (isNaN_of_isInf ha) (isNaN_of_isFinite hb) (Or.inl ha)
  · exact hinf (isNaN_of_isFinite ha) (isNaN_of_isInf hb) (Or.inr hb)
  · rw [mul_finite d ha hb]
    exact nanExactly_of_isNaN_eq_false (isNaN_round _ _ _)
      (by simp [isNaN_of_isFinite ha, isNaN_of_isFinite hb, isInf_of_isFinite ha, isInf_of_isFinite hb])

/-! ## Division -/

theorem div_of_isNaN (d : Nat) {a b : F64} (h : isNaN a = true ∨ isNaN b = true) : div d a b = quietNaN d := by
  rcases h with h | h <;> simp only [div, h, Bool.true_or, Bool.or_true, if_true]

theorem div_inf_inf (d : Nat) {a b : F64} (ha : isInf a = true) (hb : isInf b = true) : div d a b = quietNaN d := by
  simp [div, ha, hb]

theorem div_inf_finite (d : Nat) {a b : F64} (ha : isInf a = true) (hb : isFinite b = true) :
    div d a b = inf (sign a != sign b) := by
  simp [div, isNaN_of_isInf ha, isNaN_of_isFinite hb, isInf_of_isFinite hb, ha]

theorem div_finite_inf (d : Nat) {a b : F64} (ha : isFinite a = true) (hb : isInf b = true) :
    div d a b = zero (sign a != sign b) := by
  simp [div, isNaN_of_isInf hb, isNaN_of_isFinite ha, isInf_of_isFinite ha, hb]

theorem div_finite_zero (d : Nat) {a b : F64} (ha : isFinite a = true) (hb : isZero b = true) :
    div d a b = if isZero a = true then quietNaN d else inf (sign a != sign b) := by
  have hbf := isFinite_of_isZero hb
  simp [div, isNaN_of_isFinite ha, isNaN_of_isFinite hbf, isInf_of_isFinite ha, isInf_of_isFinite hbf, hb]

theorem div_finite (d : Nat) {a b : F64} (ha : isFinite a = true) (hb : isFinite b = true) (hz : isZero b = false) :
    div d a b = round (sign a != sign b) (sticky (4 * (units a * 2 ^ 1074)) (units b)) 3 := by
  have hnum : units a * 2 ^ 1076 = 4 * (units a * 2 ^ 1074) := by rw [show 1076 = 1074 + 2 from rfl, pow_add]; ring
  simp only [div, isNaN_of_isFinite ha, isNaN_of_isFinite hb, isInf_of_isFinite ha, isInf_of_isFinite hb, hz, hnum,
    Bool.or_self, Bool.false_eq_true, if_false]
  rfl

theorem units_pos {x : F64} (h : isZero x = false) : 0 < units x := by
  rw [units_eq, ← unitsOf_zero]
  exact unitsOf_strictMono (Nat.pos_of_ne_zero ((isZero_eq_false_iff x).mp h))

/-- Distances from a signed number are those of the number with the sign moved to the other side. -/
theorem natAbs_mul_sub_signed (z : Int) (k : Nat) (s : Bool) (m : Nat) :
    (z * k - if s then -(m : Int) else m).natAbs = ((if s then -z else z) * k - m).natAbs := by
  cases s
  · rfl
  · rw [if_pos rfl, if_pos rfl, ← Int.natAbs_neg]
    congr 1
    ring

theorem natAbs_signed (s : Bool) (m : Nat) : (if s then -(m : Int) else m).natAbs = m := by cases s <;> simp

theorem signed_neg_iff (s : Bool) {m : Nat} (h : 0 < m) : decide ((if s then -(m : Int) else m) < 0) = s := by
  cases s <;> simp [h]

/-- A quotient rounded from its sticky form, eight times as fine, is the exact quotient rounded (R21). -/
theorem isRounded_of_sticky {s : Bool} {n d : Nat} {r : F64} (hd : 0 < d)
    (h : IsRounded (if s then -(sticky (4 * n) d : Int) else sticky (4 * n) d) 8 r) :
    IsRounded (if s then -(n : Int) else n) d r := by
  have hthreshold : overflowUnits * 8 ≤ sticky (4 * n) d ↔ overflowUnits * d ≤ n := by
    have h2 := (sticky_le_iff (n := 4 * n) hd (4 * overflowUnits : Nat)).2
    have e1 : (2 * ((4 * overflowUnits : Nat) : Int) ≤ sticky (4 * n) d) ↔ overflowUnits * 8 ≤ sticky (4 * n) d := by
      omega
    have e2 : (((4 * overflowUnits : Nat) : Int) * d ≤ (4 * n : Nat)) ↔ overflowUnits * d ≤ n := by
      rw [← Nat.cast_mul, Nat.cast_le, mul_assoc]
      omega
    rwa [e1, e2] at h2
  unfold IsRounded at h ⊢
  rw [natAbs_signed] at h ⊢
  rcases h with ⟨hover, hr⟩ | ⟨hunder, hfin, hnear⟩
  · have hd8 := hthreshold.mp hover
    have h0 : 0 < overflowUnits := by unfold overflowUnits; positivity
    have hn : 0 < n := lt_of_lt_of_le (Nat.mul_pos h0 hd) hd8
    have hst : 0 < sticky (4 * n) d := by omega
    rw [signed_neg_iff s hst] at hr
    exact Or.inl ⟨hd8, by rw [signed_neg_iff s hn, hr]⟩
  · refine Or.inr ⟨lt_of_not_ge (mt hthreshold.mpr (not_le.mpr hunder)), hfin, fun y hy => ?_⟩
    obtain ⟨hle, htie⟩ := hnear y hy
    simp only [natAbs_mul_sub_signed] at hle htie ⊢
    have hry := sticky_nearer_iff (n := n) hd (if s then -value r else value r) (if s then -value y else value y)
    have hyr := sticky_nearer_iff (n := n) hd (if s then -value y else value y) (if s then -value r else value r)
    exact ⟨hry.mp hle, fun heq => htie (le_antisymm hle (hyr.mpr heq.ge))⟩

theorem quotient_eq_signed {a b : F64} (hz : isZero b = false) : value a * 2 ^ 1074 * (value b).sign =
    if sign a != sign b then -((units a * 2 ^ 1074 : Nat) : Int) else (units a * 2 ^ 1074 : Nat) := by
  have hsign : (units b : Int).sign = 1 := Int.sign_eq_one_of_pos (by exact_mod_cast units_pos hz)
  unfold value
  generalize (1074 : Nat) = e
  cases sign a <;> cases sign b <;> simp [hsign]

/-- Settles O38: the sticky bit below the quotient makes its rounding that of the exact quotient. -/
theorem divisionRoundsToNearestEven : Obligations.DivisionRoundsToNearestEven := by
  intro d a b
  refine ⟨fun ha hb hz => ?_, div_inf_finite d, div_finite_inf d, fun hz ha hb => ?_⟩
  · rw [div_finite d ha hb hz, quotient_eq_signed hz]
    exact ⟨isRounded_of_sticky (units_pos hz) (round_isRounded _ _ 3), sign_round _ _ _⟩
  · rcases isNaN_or_isInf_or_isFinite a with h | h | h
    · rw [ha] at h
      exact absurd h Bool.false_ne_true
    · exact div_inf_finite d h (isFinite_of_isZero hb)
    · rw [div_finite_zero d h hb, hz, if_neg Bool.false_ne_true]

theorem nanExactly_div (d : Nat) (a b : F64) : NanExactly d (div d a b) (isNaN a = true ∨ isNaN b = true ∨
    (isZero a = true ∧ isZero b = true) ∨ (isInf a = true ∧ isInf b = true)) := by
  rcases operand_cases a b with h | ⟨ha, hb⟩ | ⟨ha, hb⟩ | ⟨ha, hb⟩ | ⟨ha, hb⟩
  · rw [div_of_isNaN d h]
    exact nanExactly_quietNaN (by tauto)
  · rw [div_inf_inf d ha hb]
    exact nanExactly_quietNaN (by tauto)
  · rw [div_inf_finite d ha hb]
    exact nanExactly_of_isNaN_eq_false (isNaN_inf _)
      (by simp [isNaN_of_isInf ha, isNaN_of_isFinite hb, isZero_of_isInf ha, isInf_of_isFinite hb])
  · rw [div_finite_inf d ha hb]
    exact nanExactly_of_isNaN_eq_false (by simp)
      (by simp [isNaN_of_isInf hb, isNaN_of_isFinite ha, isZero_of_isInf hb, isInf_of_isFinite ha])
  · have hnot : ¬(isZero a = true ∧ isZero b = true) → ¬(isNaN a = true ∨ isNaN b = true ∨
        (isZero a = true ∧ isZero b = true) ∨ (isInf a = true ∧ isInf b = true)) := by
      rw [isNaN_of_isFinite ha, isNaN_of_isFinite hb, isInf_of_isFinite ha]
      tauto
    cases hz : isZero b
    · rw [div_finite d ha hb hz]
      exact nanExactly_of_isNaN_eq_false (isNaN_round _ _ _) (hz ▸ hnot (by simp [hz]))
    · rw [div_finite_zero d ha hz]
      split
      · next hza => exact nanExactly_quietNaN (Or.inr (Or.inr (Or.inl ⟨hza, rfl⟩)))
      · next hza => exact nanExactly_of_isNaN_eq_false (isNaN_inf _) (hz ▸ hnot fun h => hza h.1)

/-! ## Square root: the cases that are not rounded -/

theorem sqrt_of_isNaN (d : Nat) {x : F64} (h : isNaN x = true) : sqrt d x = quietNaN d := by
  rw [sqrt, if_pos h]

theorem sqrt_of_isZero (d : Nat) {x : F64} (h : isZero x = true) : sqrt d x = x := by
  simp only [sqrt, isNaN_of_isFinite (isFinite_of_isZero h), h, Bool.false_eq_true, if_false, if_true]

theorem sqrt_of_sign (d : Nat) {x : F64} (hn : isNaN x = false) (hz : isZero x = false) (hs : sign x = true) :
    sqrt d x = quietNaN d := by
  simp only [sqrt, hn, hz, hs, Bool.false_eq_true, if_false, if_true]

theorem sqrt_of_isInf (d : Nat) {x : F64} (h : isInf x = true) (hs : sign x = false) : sqrt d x = x := by
  simp only [sqrt, isNaN_of_isInf h, isZero_of_isInf h, hs, h, Bool.false_eq_true, if_false, if_true]

/-- Twice the integer square root, with the sticky bit below it. -/
def rootSticky (m : Nat) : Nat := 2 * isqrt m + (if isqrt m * isqrt m = m then 0 else 1)

theorem sqrt_finite (d : Nat) {x : F64} (hf : isFinite x = true) (hz : isZero x = false) (hs : sign x = false) :
    sqrt d x = round false (rootSticky (units x * 2 ^ 1078)) 3 := by
  simp only [sqrt, isNaN_of_isFinite hf, hz, hs, isInf_of_isFinite hf, Bool.false_eq_true, if_false]
  rfl

theorem nanExactly_sqrt (d : Nat) (a : F64) :
    NanExactly d (sqrt d a) (isNaN a = true ∨ (sign a = true ∧ isZero a = false)) := by
  rcases isNaN_or_isInf_or_isFinite a with hn | hi | hf
  · rw [sqrt_of_isNaN d hn]
    exact nanExactly_quietNaN (Or.inl hn)
  · cases hs : sign a
    · rw [sqrt_of_isInf d hi hs]
      exact nanExactly_of_isNaN_eq_false (isNaN_of_isInf hi) (by simp [isNaN_of_isInf hi])
    · rw [sqrt_of_sign d (isNaN_of_isInf hi) (isZero_of_isInf hi) hs]
      exact nanExactly_quietNaN (Or.inr ⟨rfl, isZero_of_isInf hi⟩)
  · have hn := isNaN_of_isFinite hf
    cases hz : isZero a
    · cases hs : sign a
      · rw [sqrt_finite d hf hz hs]
        exact nanExactly_of_isNaN_eq_false (isNaN_round _ _ _) (by simp [hn])
      · rw [sqrt_of_sign d hn hz hs]
        exact nanExactly_quietNaN (Or.inr ⟨rfl, rfl⟩)
    · rw [sqrt_of_isZero d hz]
      exact nanExactly_of_isNaN_eq_false hn (by simp [hn])

/-! ## NaN results (R24) -/

/-- The quiet NaN of the draw is quiet, and unordered in every comparison. -/
theorem nanExactly_unordered {d : Nat} {r : F64} {p : Prop} (h : NanExactly d r p) (hr : isNaN r = true) :
    r = quietNaN d ∧ r.getLsbD 51 = true ∧
      ∀ y : F64, gt r y = false ∧ gt y r = false ∧ eq r y = false ∧ eq y r = false := by
  have hq := h.2 hr
  refine ⟨hq, by rw [hq]; exact getLsbD_quietNaN d, fun y => ⟨?_, ?_, ?_, ?_⟩⟩
  · exact gt_eq_false_of_isNaN (Or.inl hr)
  · exact gt_eq_false_of_isNaN (Or.inr hr)
  · exact eq_eq_false_of_isNaN (Or.inl hr)
  · exact eq_eq_false_of_isNaN (Or.inr hr)

/-- Settles O40: the five operations, class of operands by class. -/
theorem nanResultsExactlyWhenInvalid : Obligations.NanResultsExactlyWhenInvalid := by
  intro d a b
  have hadd := nanExactly_add d a b
  have hsub := nanExactly_sub d a b
  have hmul := nanExactly_mul d a b
  have hdiv := nanExactly_div d a b
  have hsqrt := nanExactly_sqrt d a
  refine ⟨hadd.1, hsub.1, hmul.1, hdiv.1, hsqrt.1, ?_⟩
  simp only [List.forall_mem_cons]
  exact ⟨nanExactly_unordered hadd, nanExactly_unordered hsub, nanExactly_unordered hmul, nanExactly_unordered hdiv,
    nanExactly_unordered hsqrt, by simp⟩

end Sys2Proof.F64
end

section
/-! PROOFS. Newton's iteration finds the integer square root, and its rounding is the binary64 value nearest to the exact root (R26):
a root halfway between two values would need more bits than the operand has. -/

namespace Sys2Proof.F64

/-! ## The integer square root -/

/-- A guess at or above the root stays there (the mean of `g` and `m / g` is at least their geometric mean). -/
theorem sqrt_le_newton {m g : Nat} (hg : Nat.sqrt m ≤ g) : Nat.sqrt m ≤ (g + m / g) / 2 := by
  have hsq := Nat.sqrt_le' m
  generalize Nat.sqrt m = s at *
  rcases Nat.eq_zero_or_pos g with rfl | hg0
  · omega
  · have hdiv : 2 * s - g ≤ m / g := by
      rw [Nat.le_div_iff_mul_le hg0]
      refine le_trans ?_ hsq
      obtain ⟨t, rfl⟩ := Nat.exists_eq_add_of_le hg
      rw [show 2 * s - (s + t) = s - t by omega, sq, mul_comm, ← Nat.mul_self_sub_mul_self_eq]
      exact Nat.sub_le _ _
    omega

/-- A guess above the root loses at least half of its excess. -/
theorem newton_le_mean {m g : Nat} (hg : Nat.sqrt m < g) : (g + m / g) / 2 ≤ (g + Nat.sqrt m) / 2 := by
  have hm : m / g ≤ Nat.sqrt m := by
    rw [← Nat.lt_succ_iff, Nat.div_lt_iff_lt_mul (by omega)]
    exact lt_of_lt_of_le (Nat.lt_succ_sqrt m) (Nat.mul_le_mul_left _ hg)
  omega

/-- Enough fuel for the excess of the guess reaches the root. -/
theorem isqrtFrom_eq_sqrt {fuel m g : Nat} (hg : Nat.sqrt m ≤ g) (hfuel : g < Nat.sqrt m + 2 ^ fuel) :
    isqrtFrom fuel m g = Nat.sqrt m := by
  induction fuel generalizing g with
  | zero => rw [isqrtFrom]; omega
  | succ fuel ih =>
    have hge := sqrt_le_newton hg
    rw [pow_succ] at hfuel
    simp only [isqrtFrom]
    rcases hg.eq_or_lt with rfl | hlt
    · split
      · omega
      · rfl
    · have hle := newton_le_mean hlt
      rw [if_pos (by omega)]
      exact ih hge (by omega)

theorem isqrt_eq_sqrt (m : Nat) : isqrt m = Nat.sqrt m := by
  have hlt : Nat.sqrt m < 2 ^ (m.log2 / 2 + 1) := by
    rw [Nat.sqrt_lt', ← pow_mul]
    exact lt_of_lt_of_le Nat.lt_log2_self (Nat.pow_le_pow_right (by decide) (by omega))
  have hfuel : 2 ^ (m.log2 / 2 + 1) < 2 ^ (m.log2 + 2) := Nat.pow_lt_pow_right (by decide) (by omega)
  exact isqrtFrom_eq_sqrt hlt.le (Nat.lt_add_left _ hfuel)

/-! ## The sticky bit -/

/-- With the sticky bit the doubled root compares with every even number as the exact root does. -/
theorem rootSticky_le_iff (m c : Nat) : rootSticky m ≤ 2 * c ↔ m ≤ c ^ 2 := by
  have hsq := Nat.sqrt_le' m
  unfold rootSticky
  rw [isqrt_eq_sqrt, ← sq]
  split
  · next h =>
    have hroot : Nat.sqrt m ^ 2 ≤ c ^ 2 ↔ Nat.sqrt m ≤ c := Nat.pow_le_pow_iff_left (by decide)
    omega
  · next h =>
    have hroot : Nat.sqrt m < c ↔ m < c ^ 2 := Nat.sqrt_lt'
    have hne : m ≠ c ^ 2 := by rintro rfl; exact h (by rw [Nat.sqrt_eq'])
    omega

theorem le_rootSticky_iff (m c : Nat) : 2 * c ≤ rootSticky m ↔ c ^ 2 ≤ m := by
  unfold rootSticky
  rw [isqrt_eq_sqrt, ← Nat.le_sqrt']
  split <;> omega

/-! ## No root is halfway between two values -/

/-- If twice the exact root is an integer `M`, the root has a short significand and is rounded to itself. -/
theorem round_exact_root {x : F64} {M : Nat} (hz : isZero x = false) (hM : M ^ 2 = 4 * (units x * 2 ^ 1074)) :
    unitsOf (roundBits (4 * M) 3) * 2 ^ 3 = 4 * M := by
  have hu := units_pos hz
  obtain ⟨c, e, hc, he⟩ := exists_short_significand x
  have hM0 : M ≠ 0 := by
    rintro rfl
    have : 0 < 4 * (units x * 2 ^ 1074) := by positivity
    omega
  obtain ⟨f, q, hodd, rfl⟩ := Nat.exists_eq_two_pow_mul_odd hM0
  -- the odd part of the square divides the operand's significand
  have hq2 : q ^ 2 < 2 ^ 53 := by
    have hdvd : q ^ 2 ∣ c * 2 ^ (e + 1076) := by
      have hsplit : c * 2 ^ (e + 1076) = (2 ^ f * q) ^ 2 := by
        rw [hM, he, pow_add, show 1076 = 1074 + 2 from rfl, pow_add]; ring
      rw [hsplit, mul_pow]
      exact Nat.dvd_mul_left _ _
    have hqc : q ^ 2 ∣ c := (Nat.Coprime.pow 2 _ hodd.coprime_two_right).dvd_of_dvd_mul_right hdvd
    have hc0 : 0 < c := by
      rw [Nat.pos_iff_ne_zero]
      rintro rfl
      omega
    exact lt_of_le_of_lt (Nat.le_of_dvd hc0 hqc) hc
  have hq : q < 2 ^ 53 := lt_of_le_of_lt (Nat.le_self_pow (by decide) q) hq2
  -- so the root is far above the finest unit
  have hf : 1 ≤ f := by
    by_contra hf
    obtain rfl : f = 0 := by omega
    have hbig : 2 ^ 53 ≤ 4 * (units x * 2 ^ 1074) := by
      calc 2 ^ 53 ≤ 2 ^ 1074 := Nat.pow_le_pow_right (by decide) (by decide)
        _ ≤ units x * 2 ^ 1074 := Nat.le_mul_of_pos_left _ hu
        _ ≤ 4 * (units x * 2 ^ 1074) := Nat.le_mul_of_pos_left _ (by decide)
    rw [← hM, pow_zero, one_mul] at hbig
    omega
  rw [show 4 * (2 ^ f * q) = q * 2 ^ (f + 2) by rw [pow_add]; ring]
  exact unitsOf_roundBits_of_short hq (by omega)

/-- No magnitude is as near to the root of `m` as the rounded root: `16 * m` is four times as fine, and the sticky bit one bit more. -/
theorem round_root_nearest {m : Nat} (hexact : ∀ M, M ^ 2 = 4 * m → unitsOf (roundBits (4 * M) 3) * 2 ^ 3 = 4 * M)
    {r : Nat} (hr : r = unitsOf (roundBits (rootSticky (16 * m)) 3)) (b : Nat) :
    (r < unitsOf b → 4 * m < (r + unitsOf b) ^ 2) ∧ (unitsOf b < r → (r + unitsOf b) ^ 2 < 4 * m) := by
  have hnear := (roundBits_nearest (rootSticky (16 * m)) 3 false b).1
  simp only [← hr, Bool.false_eq_true, if_false] at hnear
  generalize unitsOf b = u at *
  have hsq : (2 * (r + u)) ^ 2 = 4 * (r + u) ^ 2 := by ring
  have hle := rootSticky_le_iff (16 * m) (2 * (r + u))
  have hge := le_rootSticky_iff (16 * m) (2 * (r + u))
  rw [hsq] at hle hge
  -- a midpoint would itself be rounded exactly
  have hmid : (r + u) ^ 2 = 4 * m → r = u := by
    intro h
    have hM := hexact (r + u) h
    have ht : rootSticky (16 * m) = 4 * (r + u) := by omega
    rw [← ht, ← hr] at hM
    omega
  constructor
  · intro hlt
    have : 16 * m ≤ 4 * (r + u) ^ 2 := hle.mp (by omega)
    omega
  · intro hlt
    have : 4 * (r + u) ^ 2 ≤ 16 * m := hge.mp (by omega)
    omega

/-! ## The square root -/

theorem units_lt_of_isFinite {x : F64} (h : isFinite x = true) : units x < overflowUnits := by
  obtain ⟨e, he⟩ : ∃ e, e = 2044 := ⟨2044, rfl⟩
  rw [isFinite_iff, infMag] at h
  have hle : units x ≤ unitsOf ((e + 1) * 2 ^ 52 + (2 ^ 53 - 1)) := unitsOf_strictMono.monotone (by omega)
  rw [unitsOf_pattern (by decide) (Or.inr (by decide)), Nat.pow_succ] at hle
  have hpos := Nat.two_pow_pos e
  rw [overflowUnits, ← he]
  omega

theorem two_pow_1074_le_overflowUnits : 2 ^ 1074 ≤ overflowUnits := by
  have hpow : 2 ^ 1074 ≤ 2 ^ 2044 := Nat.pow_le_pow_right (by decide) (by decide)
  unfold overflowUnits
  generalize 2 ^ 2044 = p at *
  omega

/-- A root is far below the overflow threshold. -/
theorem roundBits_root_lt {x : F64} (h : isFinite x = true) :
    roundBits (rootSticky (16 * (units x * 2 ^ 1074))) 3 < infMag := by
  have hprod : units x * 2 ^ 1074 < overflowUnits ^ 2 := by
    rw [sq]
    have hu := units_lt_of_isFinite h
    have hw := two_pow_1074_le_overflowUnits
    exact Nat.mul_lt_mul_of_lt_of_le hu hw (Nat.zero_lt_of_lt hu)
  generalize units x * 2 ^ 1074 = m at *
  rw [← not_le, infMag_le_roundBits]
  rw [show overflowUnits * 2 ^ 3 = 2 * (4 * overflowUnits) by omega, le_rootSticky_iff, mul_pow]
  omega

/-- The square root of a positive finite value: in units the operand is `m / 2^1074`, and the root is that of `m`. -/
theorem sqrt_eq_round (d : Nat) {x : F64} (hf : isFinite x = true) (hz : isZero x = false) (hs : sign x = false) :
    sqrt d x = round false (rootSticky (16 * (units x * 2 ^ 1074))) 3 := by
  rw [sqrt_finite d hf hz hs, show 1078 = 1074 + 4 from rfl, pow_add, ← mul_assoc, mul_comm]
  rfl

/-- Settles O39: Newton's root with its sticky bit is rounded to the nearest value, and no midpoint is hit. -/
theorem squareRootIsNearest : Obligations.SquareRootIsNearest := by
  intro d x
  refine ⟨fun hf hz hs => ?_, fun s => sqrt_of_isZero d (by simp), sqrt_of_isInf d (by simp) (sign_inf _),
    fun hn hz hs => by rw [sqrt_of_sign d hn hz hs]; exact isNaN_quietNaN d⟩
  have hlt := roundBits_root_lt hf
  rw [sqrt_eq_round d hf hz hs]
  refine ⟨?_, sign_round _ _ _, fun y _ _ => ?_⟩
  · rw [isFinite_iff, mag_round, if_neg (not_le.mpr hlt)]
    exact hlt
  · rw [units_eq y]
    exact round_root_nearest (fun M => round_exact_root hz) (units_round hlt) (mag y)

end Sys2Proof.F64
end

section
/-! PROOFS. Host writes to the register page: where an access of a register goes (R82), what a write to an operand register does
(R41, R42), and the bits of STATUS and CTRL (R46, R48). -/

namespace Sys2Proof.Machine

/-! ## Accesses of a register -/

theorem offset_mod_eight (r : Reg) : r.offset % 8 = 0 := by cases r <;> rfl

theorem toNat_ofNat_offset (r : Reg) : (BitVec.ofNat 32 r.offset).toNat = r.offset := by cases r <;> rfl

theorem locate_offset (p : Params) (r : Reg) : locate p r.offset = some (.reg r) := by
  have hfind : Reg.all.find? (fun q => q.offset == r.offset) = some r := by cases r <;> decide
  simp only [locate, hfind]

theorem location_of_offset (p : Params) {a : HostAccess} {r : Reg} (hw : a.width = 8) (ha : a.addr.toNat = r.offset) :
    a.location p = .ok (.reg r) := by
  simp [HostAccess.location, hw, ha, offset_mod_eight, locate_offset]

/-- A host write to a register that takes it answers the state after it. -/
theorem performAccess_writeReg {s t : State} {r : Reg} {v : Word} (h : s.writeReg r v = .ok t) :
    performAccess (.write (BitVec.ofNat 32 r.offset) 8 v) s = .next t := by
  have hl := location_of_offset s.params (a := .write (BitVec.ofNat 32 r.offset) 8 v) rfl (toNat_ofNat_offset r)
  simp only [performAccess, hl, State.writeLocation, h]

/-! ## Operand registers (R41, R42) -/

/-- A write to an operand register changes only the operand registers, and of them only the one written. -/
theorem writeReg_operand (s : State) {r : Reg} (v : Word) (hr : r ∈ [Reg.a0, .a1, .a2, .a3, .a4, .f0]) :
    ∃ o : Operands, s.writeReg r v = .ok { s with ops := o } ∧ { s with ops := o }.readReg r = v ∧
      ∀ q : Reg, q ≠ r → { s with ops := o }.readReg q = s.readReg q := by
  simp only [List.mem_cons, List.not_mem_nil, or_false] at hr
  rcases hr with rfl | rfl | rfl | rfl | rfl | rfl
  all_goals
    refine ⟨_, rfl, rfl, fun q hq => ?_⟩
    cases q <;> simp [State.readReg, State.ctrlWord, State.statusWord, State.irq, State.busy] at hq ⊢

/-- Settles O50: only the operand registers change, and a running command takes its operands from its latch. -/
theorem operandRegistersReadBack : Obligations.OperandRegistersReadBack := by
  intro s r v hr
  obtain ⟨o, hw, hread, hframe⟩ := writeReg_operand s v hr
  refine ⟨_, performAccess_writeReg hw, hread, hframe, rfl, fun b => by cases b <;> rfl, fun hrun => ?_⟩
  obtain ⟨l, hl⟩ := Option.isSome_iff_exists.mp hrun
  rw [operands_of_running hl]
  exact operands_of_running hl

/-! ## STATUS and CTRL (R46, R48, R265) -/

/-- Settles O52: the bits are those of the concatenation, and the write takes the flags' clearing and nothing else. -/
theorem statusReadsAndClears : Obligations.StatusReadsAndClears := by
  intro s v
  refine ⟨?_, ?_, ?_, ?_, ?_, ?_, rfl, fun b hb => ?_, performAccess_writeReg (r := .status) rfl⟩
  all_goals simp only [State.readReg, State.statusWord, BitVec.getLsbD_append, State.busy]
  case refine_7 =>
    iterate 6 rw [if_neg (by omega)]
    exact BitVec.getLsbD_zero
  all_goals simp

/-- Settles O54: bit 0 clear is no soft reset, so the write stores IRQ_EN; CTRL is read as a concatenation around it. -/
theorem ctrlWriteSetsIrqEnable : Obligations.CtrlWriteSetsIrqEnable := by
  intro s v hv
  have hw : s.writeReg .ctrl v = .ok { s with irqEn := v.getLsbD 1 } := by
    simp only [State.writeReg, State.writeCtrl, hv, Bool.false_eq_true, if_false]
  refine ⟨performAccess_writeReg (r := .ctrl) hw, fun b => ?_⟩
  simp only [State.readReg, State.ctrlWord, BitVec.getLsbD_append]
  rcases b with _ | _ | b
  all_goals simp

end Sys2Proof.Machine
end

section
/-! PROOFS. The twiddle ROMs (R57): the tabulated entries, and every entry against the real cosine and sine. -/

namespace Sys2Proof.Rom

open Sys2Proof.F64 Sys2Proof.Claims

/-- Settles O45: the entries are computed. -/
theorem twiddleRomEntries : Obligations.TwiddleRomEntries := by
  unfold Obligations.TwiddleRomEntries
  decide +kernel

/-- A number within `2^-400` of one of magnitude at most 1 rounds to a finite value. -/
theorem isFinite_nearest_of_close {v : Int} {c : ℝ} (hc : |c| ≤ 1) (hv : |(v : ℝ) / 2 ^ 1074 - c| ≤ 1 / 2 ^ 400) :
    isFinite (nearest v) = true := by
  rcases nearest_isRounded v with ⟨hbig, -⟩ | ⟨-, hf, -⟩
  · exfalso
    have habs : |(v : ℝ) / 2 ^ 1074| ≤ 2 := by
      have h1 : (1 : ℝ) / 2 ^ 400 ≤ 1 := by
        rw [div_le_one (by positivity)]
        exact one_le_pow₀ (by norm_num)
      have := abs_sub_abs_le_abs_sub ((v : ℝ) / 2 ^ 1074) c
      linarith
    have hU : (0 : ℝ) < 2 ^ 1074 := by positivity
    rw [abs_div, abs_of_pos hU, div_le_iff₀ hU] at habs
    have hle : v.natAbs ≤ 2 * 2 ^ 1074 := by
      have : ((v.natAbs : Nat) : ℝ) ≤ 2 * 2 ^ 1074 := by rwa [Nat.cast_natAbs, Int.cast_abs]
      exact_mod_cast this
    have hlt : 2 * 2 ^ 1074 < overflowUnits := by decide +kernel
    omega
  · exact hf

/-- The real angle of entry `k`: the magnitude of `ang_k`, with its sign. -/
theorem value_angle {k : Nat} (h1 : 1 ≤ k) (hk : k < 2 ^ 53) :
    (value (angle k) : ℝ) / 2 ^ 1074 = -((units (angle k) : ℝ) / 2 ^ 1074) := by
  have hs := (angle_close h1 hk).1
  simp [value, hs, neg_div]

/-- The numbers that are rounded to the entries are within `2^-400` of the real cosine and sine of the angle. -/
theorem series_angle_close {k : Nat} (h1 : 1 ≤ k) (hk : k < 2 ^ 53) :
    let ang : ℝ := (value (angle k) : ℝ) / 2 ^ 1074
    |(cosUnits (units (angle k)) : ℝ) / 2 ^ 1074 - Real.cos ang| ≤ 1 / 2 ^ 400 ∧
      |((-sinUnits (units (angle k)) : Int) : ℝ) / 2 ^ 1074 - Real.sin ang| ≤ 1 / 2 ^ 400 := by
  have hu := (angle_close h1 hk).2
  simp only [value_angle h1 hk, Real.cos_neg, Real.sin_neg]
  refine ⟨cosUnits_close hu, ?_⟩
  rw [Int.cast_neg, neg_div, ← neg_sub', abs_neg]
  exact sinUnits_close hu

/-- Across a gap a rounding is the nearest value to every number of magnitude at most 1 within `2^-400`. -/
theorem isNearest_of_hasGap {v : Int} {c : ℝ} (hgap : hasGap (nearest v) v = true) (hc : |c| ≤ 1)
    (hv : |(v : ℝ) / 2 ^ 1074 - c| ≤ 1 / 2 ^ 400) : IsNearest c (nearest v) :=
  ⟨isFinite_nearest_of_close hc hv, fun _ _ hy => nearest_of_hasGap hgap hv hy⟩

/-- Settles O46: the series is close (log 11) and rounded once; at the powers of two it lies across a gap from every midpoint. -/
theorem twiddleRomRoundsCosineAndSine : Obligations.TwiddleRomRoundsCosineAndSine := by
  intro k h1 hk ang
  obtain ⟨hcos, hsin⟩ := series_angle_close h1 (hk.trans (by decide))
  have hk0 : k ≠ 0 := by omega
  have hc : twcos k = nearest (cosUnits (units (angle k))) := if_neg hk0
  have hs : twsin k = nearest (-sinUnits (units (angle k))) := if_neg hk0
  refine ⟨⟨_, hcos, hc ▸ nearest_isRounded _⟩, ⟨_, hsin, hs ▸ nearest_isRounded _⟩, fun t ht => ?_⟩
  subst ht
  have ht : t < 17 := (Nat.pow_lt_pow_iff_right (by decide)).mp hk
  have hgaps := List.all_eq_true.mp twiddles_haveGaps t (List.mem_range.mpr ht)
  obtain ⟨hgapc, hgaps⟩ : hasGap _ _ = true ∧ hasGap _ _ = true := by rwa [Bool.and_eq_true, hc, hs] at hgaps
  rw [hc, hs]
  exact ⟨isNearest_of_hasGap hgapc (Real.abs_cos_le_one _) hcos,
    isNearest_of_hasGap hgaps (Real.abs_sin_le_one _) hsin⟩

end Sys2Proof.Rom
end

section
/-! PROOFS. Every command as its checks and its effect, what each effect can answer (R69), and from that what commands leave
unchanged. -/

namespace Sys2Proof.Machine

/-! ## Checks and effects -/

/-- The checks of a command after decode, in the order of its rule (R141). -/
def checksOf : Instr → State → List (Bool × CmdError)
  | .nop, _ | .rstpk, _ => []
  | .cfg, s => cfgChecks s
  | .fwd, s => fwdChecks s
  | .inv, s => invChecks false false s
  | .invXR, s => invChecks true false s
  | .invXI, s => invChecks false true s
  | .invXRXI, s => invChecks true true s
  | .spec, s => [configuredCheck s]
  | .bandf, s => bandfChecks s
  | .metric, s => metricChecks s
  | .invert, s => invertChecks s
  | .intlv, s => intlvChecks s
  | .deintlvLeft, s | .deintlvRight, s | .deintlvMix, s => deintlvChecks s
  | .mix, s | .mixNeg, s => mixChecks s
  | .rms, s => rmsChecks s
  | .peakdet, s => peakdetChecks s

/-- RSTPK's effect (R165). -/
def rstpkEffect (s : State) : Except Fault State := .ok { s with peak := F64.zeroPos, peakBand := 0 }

/-- BANDF's effect (R168). -/
def bandfEffect (s : State) : Except Fault State :=
  .ok { s with
    result0 := bandFrequency s.draws s.bandwidth s.operands.a0.toNat
    draws := s.draws + 3 }

/-- RMS's effect (R220). -/
def rmsEffect (s : State) : Except Fault State := do
  let xs ← readRange .dmem s.dmem s.operands.a0.toNat s.operands.a1.toNat
  .ok { s with
    result0 := rootMeanSquare s.draws xs
    draws := s.draws + 2 * xs.length + 2 }

/-- PEAKDET's effect (R225). -/
def peakdetEffect (s : State) : Except Fault State := do
  let xs ← readRange .dmem s.dmem s.operands.a0.toNat s.operands.a1.toNat
  .ok { s with result0 := peakFrom F64.zeroPos xs }

/-- The effect of a command whose checks pass (R142). -/
def effectOf : Instr → State → Except Fault State
  | .nop => .ok
  | .cfg => cfgEffect
  | .fwd => fwdEffect
  | .inv => invEffect false false
  | .invXR => invEffect true false
  | .invXI => invEffect false true
  | .invXRXI => invEffect true true
  | .spec => specEffect
  | .rstpk => rstpkEffect
  | .bandf => bandfEffect
  | .metric => metricEffect
  | .invert => invertEffect
  | .intlv => intlvEffect
  | .deintlvLeft => deintlvEffect 0 (fun _ => leftSamples)
  | .deintlvRight => deintlvEffect 0 (fun _ => rightSamples)
  | .deintlvMix => deintlvEffect 2 meanSamples
  | .mix => mixEffect false
  | .mixNeg => mixEffect true
  | .rms => rmsEffect
  | .peakdet => peakdetEffect

/-- Every command runs its checks, then its effect (R141). -/
theorem exec_eq_runCommand (i : Instr) (s : State) :
    exec i s = runCommand (opcodeByte (encode i)) (checksOf i s) (effectOf i) s := by
  cases i <;> rfl

/-- A command that answers a next state failed a check, or passed them all and ran its effect (R142, R144, R256). -/
theorem exec_next {i : Instr} {s t : State} (h : exec i s = .next t) :
    (∃ e, firstError (checksOf i s) = some e ∧ t = s.raise (opcodeByte (encode i)) e) ∨
      (∃ u, firstError (checksOf i s) = none ∧ effectOf i s = .ok u ∧ t = u.complete (opcodeByte (encode i))) :=
  runCommand_next (exec_eq_runCommand i s ▸ h)

/-- A command that faults passed its checks and its effect faulted. -/
theorem exec_fault {i : Instr} {s : State} {f : Fault} (h : exec i s = .fault f) :
    firstError (checksOf i s) = none ∧ effectOf i s = .error f :=
  runCommand_fault (exec_eq_runCommand i s ▸ h)

theorem exec_not_refused (i : Instr) (s : State) (r : Refusal) : exec i s ≠ .refused r :=
  exec_eq_runCommand i s ▸ runCommand_not_refused

/-! ## What each effect answers -/

section

variable {ε α β : Type}

theorem bind_eq_ok {x : Except ε α} {f : α → Except ε β} {r : β} :
    (x >>= f) = .ok r ↔ ∃ a, x = .ok a ∧ f a = .ok r := by
  cases x <;> simp [bind, Except.bind]

theorem bind_eq_error {x : Except ε α} {f : α → Except ε β} {e : ε} :
    (x >>= f) = .error e ↔ x = .error e ∨ ∃ a, x = .ok a ∧ f a = .error e := by
  cases x <;> simp [bind, Except.bind]

/-- A step that only answers adds no error. -/
theorem bind_ok_eq_error {x : Except ε α} {g : α → β} {e : ε} :
    (x >>= fun a => Except.ok (g a)) = .error e ↔ x = .error e := by
  cases x <;> simp [bind, Except.bind]

end

variable {s u : State}

theorem fwdEffect_ok (h : fwdEffect s = .ok u) :
    ∃ x table re, readRange .dmem s.dmem s.operands.a0.toNat s.n.toNat = .ok x ∧
      readRange .bitrev s.bitrev 0 s.n.toNat = .ok table ∧ gather x 0 table = .ok re ∧
      let w := stages s.n.toNat { re := re, im := List.replicate s.n.toNat F64.zeroPos, draw := s.draws }
      u = State.calcSpectrum
        { s with
          real := s.real.writeRange 0 w.re
          imag := s.imag.writeRange 0 w.im
          draws := w.draw } w.re w.im := by
  simp only [fwdEffect, bind_eq_ok, Except.ok.injEq] at h
  obtain ⟨x, hx, table, ht, re, hr, rfl⟩ := h
  exact ⟨x, table, re, hx, ht, hr, rfl⟩

/-- INV's imaginary input (R155). -/
def invImagInput (xi : Bool) (s : State) : Except Fault (List Word) :=
  if xi then readRange .dmem s.dmem s.operands.a2.toNat s.n.toNat else readRange .imag s.imag 0 s.n.toNat

/-- INV's real input (R155). -/
def invRealInput (xr : Bool) (s : State) : Except Fault (List Word) :=
  if xr then readRange .dmem s.dmem s.operands.a0.toNat s.n.toNat else readRange .real s.real 0 s.n.toNat

/-- INV's steps in order (R155); the negation keeps N, the operands and BITREV. -/
theorem invEffect_eq (xr xi : Bool) (s : State) : invEffect xr xi s = (do
    let im ← invImagInput xi s
    let s1 := s.writeImagInput xi (im.map F64.neg)
    let rev ← invRealInput xr s1
    let table ← readRange .bitrev s.bitrev 0 s.n.toNat
    let scrRe ← gather rev 0 table
    let scrIm ← gather (im.map F64.neg) 0 table
    let w := stages s.n.toNat { re := scrRe, im := scrIm, draw := s.draws }
    .ok { s1 with
      dmem := s1.dmem.writeRange s.operands.a4.toNat (scaleFrom s.n.toNat w.draw w.re)
      draws := w.draw + s.n.toNat }) := by
  cases xr <;> cases xi <;> rfl

theorem invEffect_ok {xr xi : Bool} (h : invEffect xr xi s = .ok u) :
    ∃ im rev table re imr, invImagInput xi s = .ok im ∧
      let s1 := s.writeImagInput xi (im.map F64.neg)
      invRealInput xr s1 = .ok rev ∧ readRange .bitrev s.bitrev 0 s.n.toNat = .ok table ∧
      gather rev 0 table = .ok re ∧ gather (im.map F64.neg) 0 table = .ok imr ∧
      let w := stages s.n.toNat { re := re, im := imr, draw := s.draws }
      u = { s1 with
        dmem := s1.dmem.writeRange s.operands.a4.toNat (scaleFrom s.n.toNat w.draw w.re)
        draws := w.draw + s.n.toNat } := by
  simp only [invEffect_eq, bind_eq_ok, Except.ok.injEq] at h
  obtain ⟨im, him, rev, hrev, table, ht, re, hre, imr, himr, rfl⟩ := h
  exact ⟨im, rev, table, re, imr, him, hrev, ht, hre, himr, rfl⟩

theorem specEffect_ok (h : specEffect s = .ok u) :
    ∃ re im, readRange .real s.real 0 s.bins = .ok re ∧ readRange .imag s.imag 0 s.bins = .ok im ∧
      u = s.calcSpectrum re im := by
  simp only [specEffect, bind_eq_ok, Except.ok.injEq] at h
  obtain ⟨re, hre, im, him, rfl⟩ := h
  exact ⟨re, im, hre, him, rfl⟩

theorem metricEffect_ok (h : metricEffect s = .ok u) :
    ∃ xs, readRange .spectrum s.spectrum s.operands.a0.toNat (s.bins - s.operands.a0.toNat) = .ok xs ∧
      u = { s with
        result1 := sumSquaresFrom s.draws F64.zeroPos xs
        result0 := F64.mul (s.draws + 2 * xs.length + 1) F64.ten
          (F64.log10 (F64.mul (s.draws + 2 * xs.length) (sumSquaresFrom s.draws F64.zeroPos xs) s.params.calK))
        draws := s.draws + 2 * xs.length + 2 } := by
  simp only [metricEffect, bind_eq_ok, Except.ok.injEq] at h
  obtain ⟨xs, hx, rfl⟩ := h
  exact ⟨xs, hx, rfl⟩

theorem invertEffect_ok (h : invertEffect s = .ok u) :
    ∃ x, readRange .dmem s.dmem s.operands.a0.toNat s.operands.a1.toNat = .ok x ∧
      u = { s with dmem := s.dmem.writeRange s.operands.a0.toNat (x.map F64.neg) } := by
  simp only [invertEffect, bind_eq_ok, Except.ok.injEq] at h
  obtain ⟨x, hx, rfl⟩ := h
  exact ⟨x, hx, rfl⟩

theorem intlvEffect_ok (h : intlvEffect s = .ok u) :
    ∃ lv rv, readRange .dmem s.dmem s.operands.a0.toNat s.operands.a1.toNat = .ok lv ∧
      readRange .dmem s.dmem s.operands.a2.toNat s.operands.a1.toNat = .ok rv ∧
      u = { s with dmem := s.dmem.writeRange s.operands.a4.toNat (interleave lv rv) } := by
  simp only [intlvEffect, bind_eq_ok, Except.ok.injEq] at h
  obtain ⟨lv, hl, rv, hr, rfl⟩ := h
  exact ⟨lv, rv, hl, hr, rfl⟩

theorem deintlvEffect_ok {used : Nat} {pick : Nat → List F64 → List F64} (h : deintlvEffect used pick s = .ok u) :
    ∃ x, readRange .dmem s.dmem s.operands.a0.toNat s.operands.a1.toNat = .ok x ∧
      u = { s with
        dmem := s.dmem.writeRange s.operands.a4.toNat (pick s.draws x)
        draws := s.draws + used * (s.operands.a1.toNat / 2) } := by
  simp only [deintlvEffect, bind_eq_ok, Except.ok.injEq] at h
  obtain ⟨x, hx, rfl⟩ := h
  exact ⟨x, hx, rfl⟩

theorem mixEffect_ok {negate : Bool} (h : mixEffect negate s = .ok u) :
    ∃ av bv, readRange .dmem s.dmem s.operands.a0.toNat s.operands.a1.toNat = .ok av ∧
      readRange .dmem s.dmem s.operands.a2.toNat s.operands.a1.toNat = .ok bv ∧
      u = { s with
        dmem := s.dmem.writeRange s.operands.a4.toNat (mixSamples negate s.operands.f0 s.draws av bv)
        draws := s.draws + 2 * s.operands.a1.toNat } := by
  simp only [mixEffect, bind_eq_ok, Except.ok.injEq] at h
  obtain ⟨av, ha, bv, hb, rfl⟩ := h
  exact ⟨av, bv, ha, hb, rfl⟩

theorem rmsEffect_ok (h : rmsEffect s = .ok u) :
    ∃ xs, readRange .dmem s.dmem s.operands.a0.toNat s.operands.a1.toNat = .ok xs ∧
      u = { s with
        result0 := rootMeanSquare s.draws xs
        draws := s.draws + 2 * xs.length + 2 } := by
  simp only [rmsEffect, bind_eq_ok, Except.ok.injEq] at h
  obtain ⟨xs, hx, rfl⟩ := h
  exact ⟨xs, hx, rfl⟩

theorem peakdetEffect_ok (h : peakdetEffect s = .ok u) :
    ∃ xs, readRange .dmem s.dmem s.operands.a0.toNat s.operands.a1.toNat = .ok xs ∧
      u = { s with result0 := peakFrom F64.zeroPos xs } := by
  simp only [peakdetEffect, bind_eq_ok, Except.ok.injEq] at h
  obtain ⟨xs, hx, rfl⟩ := h
  exact ⟨xs, hx, rfl⟩

/-! ## Frames -/

/-- What no command writes (R41, R42, R46, R60) is as in `s`. -/
def KeepsHostState (s t : State) : Prop :=
  t.ops = s.ops ∧ t.irqEn = s.irqEn ∧ t.cmd = s.cmd ∧ t.params = s.params ∧ t.held = s.held ∧
    t.inputs = s.inputs ∧ t.reads = s.reads

/-- What the command `i` does not write (R69) is as in `s`. -/
def WritesOnlyItsState (i : Instr) (s t : State) : Prop :=
  (i ≠ .cfg → t.n = s.n ∧ t.log2n = s.log2n ∧ t.sampleRate = s.sampleRate ∧ t.bandwidth = s.bandwidth ∧
    t.flags.configured = s.flags.configured ∧ t.bitrev = s.bitrev) ∧
  (i ∉ [Instr.cfg, .fwd] → t.real = s.real) ∧
  (i ∉ [Instr.cfg, .fwd, .inv, .invXR] → t.imag = s.imag) ∧
  (i ∉ [Instr.cfg, .fwd, .spec] → t.spectrum = s.spectrum) ∧
  (i ∉ [Instr.cfg, .fwd, .spec, .rstpk] → t.peak = s.peak ∧ t.peakBand = s.peakBand) ∧
  (i ∉ [Instr.inv, .invXR, .invXI, .invXRXI, .invert, .intlv, .deintlvLeft, .deintlvRight, .deintlvMix, .mix, .mixNeg] →
    t.dmem = s.dmem) ∧
  (i ∉ [Instr.bandf, .metric, .rms, .peakdet] → t.result0 = s.result0) ∧
  (i ≠ .metric → t.result1 = s.result1)

theorem effectOf_frame {i : Instr} (h : effectOf i s = .ok u) : KeepsHostState s u ∧ WritesOnlyItsState i s u := by
  cases i
  all_goals simp only [effectOf] at h
  case' nop | cfg | rstpk | bandf => cases h
  case' fwd => obtain ⟨_, _, _, -, -, -, rfl⟩ := fwdEffect_ok h
  case' inv | invXR | invXI | invXRXI => obtain ⟨_, _, _, _, _, -, -, -, -, -, rfl⟩ := invEffect_ok h
  case' spec => obtain ⟨_, _, -, -, rfl⟩ := specEffect_ok h
  case' metric => obtain ⟨_, -, rfl⟩ := metricEffect_ok h
  case' invert => obtain ⟨_, -, rfl⟩ := invertEffect_ok h
  case' intlv => obtain ⟨_, _, -, -, rfl⟩ := intlvEffect_ok h
  case' deintlvLeft | deintlvRight | deintlvMix => obtain ⟨_, -, rfl⟩ := deintlvEffect_ok h
  case' mix | mixNeg => obtain ⟨_, _, -, -, rfl⟩ := mixEffect_ok h
  case' rms => obtain ⟨_, -, rfl⟩ := rmsEffect_ok h
  case' peakdet => obtain ⟨_, -, rfl⟩ := peakdetEffect_ok h
  all_goals simp [KeepsHostState, WritesOnlyItsState]

/-- Neither completion adds to what an effect writes (R144, R256). -/
theorem exec_frame {i : Instr} {s t : State} (h : exec i s = .next t) : KeepsHostState s t ∧ WritesOnlyItsState i s t := by
  rcases exec_next h with ⟨e, -, rfl⟩ | ⟨u, -, hu, rfl⟩
  · simp [KeepsHostState, WritesOnlyItsState]
  · have hf := effectOf_frame hu
    exact hf

/-- Settles O8: no effect writes these, and neither does a completion. -/
theorem commandsLeaveHostRegisters : Obligations.CommandsLeaveHostRegisters := fun _ _ _ h => (exec_frame h).1

/-- Settles O9: each effect writes its own state only, and a completion none of it. -/
theorem commandsWriteOnlyTheirState : Obligations.CommandsWriteOnlyTheirState := fun _ _ _ h => (exec_frame h).2

end Sys2Proof.Machine
end

section
/-! PROOFS. What the invariant needs of the arithmetic: results that are never negative (R161), results that take no draw (R24), and
sizes that are powers of two (R146). -/

namespace Sys2Proof.F64

open Sys2Proof.Machine

/-! ## Signs -/

/-- A product's sign is that of its operands, unless it is a NaN. -/
theorem isNaN_or_sign_mul (d : Nat) (a b : F64) : isNaN (mul d a b) = true ∨ sign (mul d a b) = (sign a != sign b) := by
  unfold mul
  simp only
  split_ifs
  all_goals simp

/-- A quotient's sign is that of its operands, unless it is a NaN. -/
theorem isNaN_or_sign_div (d : Nat) (a b : F64) : isNaN (div d a b) = true ∨ sign (div d a b) = (sign a != sign b) := by
  unfold div
  simp only
  split_ifs
  all_goals simp

theorem mul_nonNegativeOrNaN (d : Nat) {a b : F64} (ha : nonNegativeOrNaN a) (hb : nonNegativeOrNaN b) :
    nonNegativeOrNaN (mul d a b) := by
  by_cases hn : isNaN a = true ∨ isNaN b = true
  · rw [mul_of_isNaN d hn]; exact .inl (isNaN_quietNaN d)
  · have h := isNaN_or_sign_mul d a b
    rwa [ha.resolve_left fun h => hn (.inl h), hb.resolve_left fun h => hn (.inr h)] at h

theorem mul_self_nonNegativeOrNaN (d : Nat) (a : F64) : nonNegativeOrNaN (mul d a a) := by
  have h := isNaN_or_sign_mul d a a
  rwa [bne_self_eq_false] at h

theorem div_nonNegativeOrNaN (d : Nat) {a b : F64} (ha : sign a = false) (hb : sign b = false) :
    nonNegativeOrNaN (div d a b) := by
  have h := isNaN_or_sign_div d a b
  rwa [ha, hb] at h

theorem value_nonneg {x : F64} (h : sign x = false) : 0 ≤ value x := by
  rw [value_eq_units h]
  exact Int.natCast_nonneg _

theorem add_nonNegativeOrNaN (d : Nat) {a b : F64} (ha : nonNegativeOrNaN a) (hb : nonNegativeOrNaN b) :
    nonNegativeOrNaN (add d a b) := by
  by_cases hn : isNaN a = true ∨ isNaN b = true
  · rw [add_of_isNaN d hn]; exact .inl (isNaN_quietNaN d)
  replace ha := ha.resolve_left fun h => hn (.inl h)
  replace hb := hb.resolve_left fun h => hn (.inr h)
  right
  rcases operand_cases a b with h | ⟨ia, ib⟩ | ⟨ia, fb⟩ | ⟨fa, ib⟩ | ⟨fa, fb⟩
  · exact absurd h hn
  · rw [add_inf_inf d ia ib, ha, hb, if_pos rfl, sign_inf]
  · rw [add_inf_finite d ia fb, sign_inf, ha]
  · rw [add_finite_inf d fa ib, sign_inf, hb]
  · have hva := value_nonneg ha
    have hvb := value_nonneg hb
    rw [add_finite d fa fb]
    split
    · rw [sign_zero, ha, Bool.false_and]
    · rw [Rom.nearest, sign_round, decide_eq_false_iff_not]
      omega

theorem sqrt_nonNegativeOrNaN (d : Nat) {x : F64} (h : nonNegativeOrNaN x) : nonNegativeOrNaN (sqrt d x) := by
  rcases h with h | h
  · rw [sqrt_of_isNaN d h]; exact .inl (isNaN_quietNaN d)
  · rcases isNaN_or_isInf_or_isFinite x with hn | hi | hf
    · rw [sqrt_of_isNaN d hn]; exact .inl (isNaN_quietNaN d)
    · rw [sqrt_of_isInf d hi h]; exact .inr h
    · cases hz : isZero x
      · rw [sqrt_finite d hf hz h]; exact .inr (sign_round _ _ _)
      · rw [sqrt_of_isZero d hz]; exact .inr h

@[simp] theorem sign_ofNat (n : Nat) : sign (ofNat n) = false := sign_round _ _ _

/-! ## Results that take no draw -/

/-- A product that is not a NaN does not depend on the draw (R24). -/
theorem mul_draw {d : Nat} {a b : F64} (h : isNaN (mul d a b) = false) (d' : Nat) : mul d' a b = mul d a b := by
  have hcases : mul d a b = quietNaN d ∨ mul d' a b = mul d a b := by
    unfold mul
    simp only
    split_ifs
    all_goals simp only [true_or, or_true]
  refine hcases.resolve_left fun hq => ?_
  rw [hq, isNaN_quietNaN] at h
  exact absurd h (by decide)

/-- A quotient that is not a NaN does not depend on the draw (R24). -/
theorem div_draw {d : Nat} {a b : F64} (h : isNaN (div d a b) = false) (d' : Nat) : div d' a b = div d a b := by
  have hcases : div d a b = quietNaN d ∨ div d' a b = div d a b := by
    unfold div
    simp only
    split_ifs
    all_goals simp only [true_or, or_true]
  refine hcases.resolve_left fun hq => ?_
  rw [hq, isNaN_quietNaN] at h
  exact absurd h (by decide)

/-- `to_f64` of a size is finite and not zero (R27). -/
theorem ofNat_size {n : Nat} (h0 : 0 < n) (hn : n < 2 ^ 53) : isFinite (ofNat n) = true ∧ isZero (ofNat n) = false := by
  obtain ⟨hf, hu⟩ := units_ofNat hn
  refine ⟨hf, ?_⟩
  rw [isZero_eq_false_iff]
  intro hm
  rw [units_eq, hm, unitsOf_zero] at hu
  have := Nat.mul_pos h0 (Nat.two_pow_pos 1074)
  omega

theorem isNaN_div_eq_false {a b : F64} (d : Nat) (ha : isNaN a = false) (hb : isFinite b = true) (hz : isZero b = false) :
    isNaN (div d a b) = false := by
  rw [Bool.eq_false_iff, Ne, (nanExactly_div d a b).1, ha, hz, isNaN_of_isFinite hb, isInf_of_isFinite hb]
  simp

theorem isNaN_mul_eq_false {a b : F64} (d : Nat) (ha : isNaN a = false) (hb : isFinite b = true) (hz : isZero b = false) :
    isNaN (mul d a b) = false := by
  rw [Bool.eq_false_iff, Ne, (nanExactly_mul d a b).1, ha, hz, isNaN_of_isFinite hb, isInf_of_isFinite hb]
  simp

/-- Nothing that is greater than a value is a NaN (R25). -/
theorem isNaN_of_gt {x y : F64} (h : gt x y = true) : isNaN x = false := by
  by_contra hn
  rw [gt_eq_false_of_isNaN (.inl (by simpa using hn))] at h
  exact absurd h (by decide)

/-- A sample rate that CFG's third check accepts (R146) is finite and greater than zero. -/
theorem validRate_of_gt {x : F64} (hg : gt x zeroPos = true) (he : eq x (inf false) = false) : validRate x := by
  have hn := isNaN_of_gt hg
  rw [gt_iff hn (by decide), decide_eq_true_iff, show key zeroPos = 0 by decide] at hg
  rw [eq_iff hn (isNaN_inf _), key_inf, decide_eq_false_iff_not] at he
  have hs : sign x = false := by
    by_contra h
    rw [key, if_pos (by simpa using h)] at hg
    omega
  simp only [key, hs, Bool.false_eq_true, if_false] at hg he
  have hle := (isNaN_eq_false_iff x).mp hn
  refine ⟨(isFinite_iff x).mpr ?_, hs, (isZero_eq_false_iff x).mpr ?_⟩ <;> omega

end Sys2Proof.F64

namespace Sys2Proof.Machine

open F64

/-- The bandwidth of a valid context is never a NaN on the way, so it depends on no draw (R148). -/
theorem bandwidthOf_draw (d : Nat) {n : Nat} {rate : F64} (h0 : 0 < n) (hn : n < 2 ^ 53) (hr : validRate rate) :
    bandwidthOf d n rate = bandwidthOf 0 n rate := by
  obtain ⟨hf, -, hz⟩ := hr
  obtain ⟨hnf, hnz⟩ := ofNat_size h0 hn
  have hq := isNaN_div_eq_false 0 (show isNaN two = false by decide) hnf hnz
  have hm := isNaN_mul_eq_false 1 hq hf hz
  have hb := isNaN_div_eq_false 2 hm (show isFinite two = true by decide) (show isZero two = false by decide)
  unfold bandwidthOf
  rw [div_draw hq d, mul_draw hm (d + 1), div_draw hb (d + 2)]

/-- A word that passes CFG's first check (R146) is a power of two. -/
theorem toNat_eq_two_pow {w : Word} (h0 : w ≠ 0) (h : w &&& (w - 1) = 0) : w.toNat = 2 ^ w.toNat.log2 := by
  have h0' : w.toNat ≠ 0 := fun hw => h0 (BitVec.eq_of_toNat_eq hw)
  have hand : w.toNat &&& (w.toNat - 1) = 0 := by
    have hsub : (w - 1).toNat = w.toNat - 1 := by bv_omega
    rw [← hsub, ← BitVec.toNat_and, h]
    rfl
  obtain ⟨k, hk⟩ := (Nat.and_sub_one_eq_zero_iff_isPowerOfTwo h0').mp hand
  rw [hk, Nat.log2_two_pow]

end Sys2Proof.Machine
end

section
/-! PROOFS. The parts of the invariant (R54, R55, R61 to R65, R68, R70, R161, R251), one lemma per kind of update. -/

namespace Sys2Proof.Machine

variable {s : State}

/-! ## Memories (R61 to R65, R70) -/

theorem writeRange_fits {m : Memory} {size base : Nat} {vs : List Word} (h : m.wf ∧ m.within size)
    (hb : base + vs.length ≤ size) : (m.writeRange base vs).wf ∧ (m.writeRange base vs).within size :=
  ⟨writeRange_wf h.1 base vs, writeRange_within h.2 hb⟩

theorem sublist_fits {m m' : Memory} {size : Nat} (hs : m'.Sublist m) (h : m.wf ∧ m.within size) :
    m'.wf ∧ m'.within size :=
  ⟨h.1.sublist hs, fun c hc => h.2 c (hs.subset hc)⟩

/-- A write leaves every written word written. -/
theorem isSome_read_writeRange {m : Memory} {i : Nat} (base : Nat) (vs : List Word) (h : (m.read i).isSome = true) :
    ((m.writeRange base vs).read i).isSome = true := by
  rw [read_writeRange]
  split
  · rw [List.getElem?_eq_getElem (by omega)]; rfl
  · exact h

/-- A write from the start makes its words written. -/
theorem isSome_read_writeRange_zero {m : Memory} {i : Nat} {vs : List Word} (h : i < vs.length) :
    ((m.writeRange 0 vs).read i).isSome = true := by
  rw [read_writeRange, if_pos (by omega), List.getElem?_eq_getElem (by omega)]
  rfl

/-- A write of a whole bank leaves only what it wrote. -/
theorem writeRange_whole {m : Memory} {vs : List Word} (h : m.within vs.length) :
    m.writeRange 0 vs = Memory.cells 0 vs := by
  have hlow : m.filter (fun c => decide (c.1 < 0)) = [] := by simp
  have hhigh : m.filter (fun c => decide (0 + vs.length ≤ c.1)) = [] := by
    refine List.filter_eq_nil_iff.mpr fun c hc => ?_
    have := h c hc
    simp only [decide_eq_true_iff]
    omega
  rw [Memory.writeRange, hlow, hhigh, List.nil_append, List.append_nil]

/-! ## ERROR (R251) -/

theorem errorPair_mem (e : CmdError) : (e.code, e.detail) ∈ errorPairs := by
  cases e
  case illegal e => cases e <;> decide
  case addressRange r => cases r <;> decide
  all_goals decide

theorem errorWord_code (op detail code : Byte) : (errorWord op detail code).extractLsb' 0 8 = code := by
  refine BitVec.eq_of_getLsbD_eq fun k hk => ?_
  rw [errorWord, BitVec.getLsbD_extractLsb', BitVec.getLsbD_append]
  simp [hk]

theorem errorWord_detail (op detail code : Byte) : (errorWord op detail code).extractLsb' 8 8 = detail := by
  refine BitVec.eq_of_getLsbD_eq fun k hk => ?_
  rw [errorWord, BitVec.getLsbD_extractLsb', BitVec.getLsbD_append, BitVec.getLsbD_append]
  simp [hk]

theorem errorWord_upper (op detail code : Byte) : (errorWord op detail code).extractLsb' 24 40 = 0 := by
  refine BitVec.eq_of_getLsbD_eq fun k hk => ?_
  rw [errorWord, BitVec.getLsbD_extractLsb', BitVec.getLsbD_append, BitVec.getLsbD_append, BitVec.getLsbD_append,
    if_neg (by omega), if_neg (by omega), if_neg (by omega)]
  simp

theorem legalError_errorWord (op : Byte) {detail code : Byte} (h : (code, detail) ∈ errorPairs) :
    legalError (errorWord op detail code) :=
  ⟨errorWord_upper op detail code, by rwa [errorWord_code, errorWord_detail]⟩

/-! ## SPECTRUM and PEAK (R54, R55, R161) -/

theorem magnitude_nonNegativeOrNaN (d : Nat) {bsi : F64} (rv iv : F64) (hb : nonNegativeOrNaN bsi) :
    nonNegativeOrNaN (magnitude d bsi rv iv) :=
  F64.mul_nonNegativeOrNaN _ hb (F64.sqrt_nonNegativeOrNaN _
    (F64.add_nonNegativeOrNaN _ (F64.mul_self_nonNegativeOrNaN _ _) (F64.mul_self_nonNegativeOrNaN _ _)))

/-- What R54 and R55 ask of the running peak, for `bins` live bins. -/
def PeakAcc.wf (bins : Nat) (p : PeakAcc) : Prop :=
  F64.isNaN p.peak = false ∧ F64.sign p.peak = false ∧ (p.band = 0 ∨ p.band.toNat < bins)

theorem PeakAcc.raise_wf {bins i : Nat} {p : PeakAcc} {m : F64} (hp : p.wf bins) (hm : nonNegativeOrNaN m)
    (hi : i < bins) (hb : bins ≤ 2 ^ 64) : (p.raise i m).wf bins := by
  cases hg : F64.gt m p.peak
  · simpa [PeakAcc.wf, PeakAcc.raise, hg] using hp
  · have hn := F64.isNaN_of_gt hg
    have hs : F64.sign m = false := hm.resolve_left (by rw [hn]; decide)
    refine ⟨?_, ?_, .inr ?_⟩
    · simpa only [PeakAcc.raise, hg, if_true] using hn
    · simpa only [PeakAcc.raise, hg, if_true] using hs
    · simpa only [PeakAcc.raise, hg, if_true, BitVec.toNat_ofNat, Nat.mod_eq_of_lt (show i < 2 ^ 64 by omega)] using hi

/-- CalcSpectrum's loop keeps the peak's rule and writes no negative magnitude (R161). -/
theorem spectrumFrom_wf {bins : Nat} {bsi : F64} (hbsi : nonNegativeOrNaN bsi) (hb : bins ≤ 2 ^ 64) (i : Nat)
    (re im : List F64) {p : PeakAcc} (hlen : i + re.length ≤ bins) (hp : p.wf bins) :
    (∀ m ∈ (spectrumFrom bsi i re im p).1, nonNegativeOrNaN m) ∧ (spectrumFrom bsi i re im p).2.wf bins := by
  induction re generalizing i im p with
  | nil => simpa using hp
  | cons rv re ih =>
    cases im with
    | nil => simpa using hp
    | cons iv im =>
      rw [List.length_cons] at hlen
      have hm := magnitude_nonNegativeOrNaN p.draw rv iv hbsi
      obtain ⟨h1, h2⟩ := ih (i + 1) im (by omega) (PeakAcc.raise_wf hp hm (show i < bins by omega) hb)
      rw [spectrumFrom_cons]
      exact ⟨List.forall_mem_cons.mpr ⟨hm, h1⟩, h2⟩

end Sys2Proof.Machine
end

section
/-! PROOFS. The block's invariant is kept: by each kind of update, by every command, by every access and reset, and so by every
step. -/

namespace Sys2Proof.Machine

variable {s : State}

/-! ## Updates of one part of the state -/

theorem nmax_le_of_wf {p : Params} (h : p.wf = true) : p.nmax ≤ 2 ^ 17 := by
  simp only [Params.wf, Bool.and_eq_true, decide_eq_true_eq] at h
  obtain ⟨⟨⟨⟨hlog, -⟩, -⟩, -⟩, -⟩ := h
  exact Nat.pow_le_pow_right (by decide) hlog

/-- N is never above N_MAX: R68 when configured, 0 when not. -/
theorem n_le_nmax (h : s.contextWf) : s.n.toNat ≤ s.params.nmax := by
  unfold State.contextWf at h
  split at h
  · obtain ⟨-, hle, -⟩ := h
    exact hle
  · obtain ⟨hzero, -⟩ := h
    rw [hzero]
    exact Nat.zero_le _

theorem contextWf_of_inv (h : s.Inv) : s.contextWf := by
  obtain ⟨-, -, -, -, -, -, hctx, -⟩ := h
  exact hctx

/-- What R68, R64 and R70 say of a configured block. -/
theorem context_of_configured (h : s.Inv) (hc : s.flags.configured = true) :
    s.n.toNat = 2 ^ s.log2n.toNat ∧ s.n.toNat ≤ s.params.nmax ∧ validRate s.sampleRate ∧
      s.bandwidth = bandwidthOf 0 s.n.toNat s.sampleRate ∧
      s.bitrev = Memory.cells 0 (bitrevEntries s.n.toNat s.params.nmax) ∧
      (∀ i < s.params.nmax, (s.real.read i).isSome = true ∧ (s.imag.read i).isSome = true) ∧
      ∀ i < s.params.nmax / 2, (s.spectrum.read i).isSome = true := by
  have hctx := contextWf_of_inv h
  unfold State.contextWf at hctx
  rwa [if_pos hc] at hctx

/-- The draw counter is the model's own; no rule speaks of it. -/
theorem inv_draws (h : s.Inv) (d : Nat) : { s with draws := d }.Inv := h

/-- The context's rules ask of REAL, IMAG and SPECTRUM only that words are written (R70). -/
theorem contextWf_of_written {re im sp : Memory} (h : s.contextWf)
    (hre : ∀ i, (s.real.read i).isSome = true → (re.read i).isSome = true)
    (him : ∀ i, (s.imag.read i).isSome = true → (im.read i).isSome = true)
    (hsp : ∀ i, (s.spectrum.read i).isSome = true → (sp.read i).isSome = true) :
    { s with real := re, imag := im, spectrum := sp }.contextWf := by
  unfold State.contextWf at h ⊢
  split at h
  · next hc =>
    obtain ⟨hn, hle, hrate, hband, htable, hbanks, hspec⟩ := h
    rw [if_pos hc]
    exact ⟨hn, hle, hrate, hband, htable, fun i hi => ⟨hre i (hbanks i hi).1, him i (hbanks i hi).2⟩,
      fun i hi => hsp i (hspec i hi)⟩
  · next hc => rwa [if_neg hc]

theorem inv_writeDmem (h : s.Inv) {base : Nat} {vs : List Word} (hb : base + vs.length ≤ s.params.dmemWords) :
    { s with dmem := s.dmem.writeRange base vs }.Inv := by
  obtain ⟨hp, ⟨hreal, himag, hspec, hbit, hdmem⟩, hrest⟩ := h
  exact ⟨hp, ⟨hreal, himag, hspec, hbit, writeRange_fits hdmem hb⟩, hrest⟩

theorem inv_writeReal (h : s.Inv) {base : Nat} {vs : List Word} (hb : base + vs.length ≤ s.params.nmax) :
    { s with real := s.real.writeRange base vs }.Inv := by
  obtain ⟨hp, ⟨hreal, himag, hspec, hbit, hdmem⟩, htab, hneg, hpk, herr, hctx, hheld⟩ := h
  have hctx' := contextWf_of_written hctx (fun _ => isSome_read_writeRange base vs) (fun _ => id) (fun _ => id)
  exact ⟨hp, ⟨writeRange_fits hreal hb, himag, hspec, hbit, hdmem⟩, htab, hneg, hpk, herr, hctx', hheld⟩

theorem inv_writeImag (h : s.Inv) {base : Nat} {vs : List Word} (hb : base + vs.length ≤ s.params.nmax) :
    { s with imag := s.imag.writeRange base vs }.Inv := by
  obtain ⟨hp, ⟨hreal, himag, hspec, hbit, hdmem⟩, htab, hneg, hpk, herr, hctx, hheld⟩ := h
  have hctx' := contextWf_of_written hctx (fun _ => id) (fun _ => isSome_read_writeRange base vs) (fun _ => id)
  exact ⟨hp, ⟨hreal, writeRange_fits himag hb, hspec, hbit, hdmem⟩, htab, hneg, hpk, herr, hctx', hheld⟩

theorem inv_calcSpectrum (h : s.Inv) (re im : List F64) : (s.calcSpectrum re im).Inv := by
  obtain ⟨hp, ⟨hreal, himag, hspec, hbit, hdmem⟩, htab, hneg, hpk, herr, hctx, hheld⟩ := h
  have hn := n_le_nmax hctx
  have hbins : s.bins ≤ s.params.nmax / 2 := Nat.div_le_div_right hn
  have hmax := nmax_le_of_wf hp
  have hbsi : nonNegativeOrNaN (F64.div s.draws F64.two (F64.ofNat s.n.toNat)) :=
    F64.div_nonNegativeOrNaN _ (by decide) (F64.sign_ofNat _)
  obtain ⟨hnew, hacc⟩ := spectrumFrom_wf hbsi (show s.bins ≤ 2 ^ 64 by omega) 0 (re.take s.bins) (im.take s.bins)
    (p := { peak := s.peak, band := s.peakBand, draw := s.draws + 1 }) (by rw [List.length_take]; omega) hpk
  refine ⟨hp, ⟨hreal, himag, writeRange_fits hspec ?_, hbit, hdmem⟩, htab, fun c hc => ?_, hacc, herr,
    contextWf_of_written hctx (fun _ => id) (fun _ => id) (fun _ => isSome_read_writeRange _ _), hheld⟩
  · rw [calcSpectrum_params, spectrumFrom_length, List.length_take]
    omega
  · rcases mem_writeRange hc with hc | ⟨-, -, hc⟩
    · exact hneg c hc
    · exact hnew _ hc

theorem zeroPos_nonNegative : F64.isNaN F64.zeroPos = false ∧ F64.sign F64.zeroPos = false := by decide

theorem inv_resetPeak (h : s.Inv) : { s with peak := F64.zeroPos, peakBand := 0 }.Inv := by
  obtain ⟨hp, hmem, htab, hneg, -, hrest⟩ := h
  exact ⟨hp, hmem, htab, hneg, ⟨zeroPos_nonNegative.1, zeroPos_nonNegative.2, .inl rfl⟩, hrest⟩

theorem inv_complete (h : s.Inv) (op : Byte) : (s.complete op).Inv := by
  obtain ⟨hp, hmem, htab, hneg, hpk, -, hrest⟩ := h
  exact ⟨hp, hmem, htab, hneg, hpk, legalError_errorWord op (by decide), hrest⟩

theorem inv_raise (h : s.Inv) (op : Byte) (e : CmdError) : (s.raise op e).Inv := by
  obtain ⟨hp, hmem, htab, hneg, hpk, -, hrest⟩ := h
  exact ⟨hp, hmem, htab, hneg, hpk, legalError_errorWord op (errorPair_mem e), hrest⟩

/-! ## Commands -/

/-- A range check that passed says that the buffer lies inside DMEM (R88, R142). -/
theorem inRange_of_passed {cs : List (Bool × CmdError)} {r : BaseReg} {base : Word} {length : Nat}
    (h : firstError cs = none) (hm : rangeCheck s.params r base length ∈ cs) :
    base.toNat + length ≤ s.params.dmemWords := by
  simpa [rangeCheck, inRange] using firstError_eq_none.mp h _ hm

/-- What CFG's checks establish (R146). -/
theorem cfgChecks_passed (h : firstError (cfgChecks s) = none) :
    s.operands.a0.toNat = 2 ^ s.operands.a0.toNat.log2 ∧ s.operands.a0.toNat ≤ s.params.nmax ∧
      validRate s.operands.f0 := by
  simp only [firstError_eq_none, cfgChecks, List.forall_mem_cons, decide_eq_false_iff_not, not_or, ne_eq, not_not, not_lt,
    Bool.not_eq_false', Bool.and_eq_true, Bool.not_eq_true'] at h
  obtain ⟨⟨hnz, hpow⟩, hle, ⟨hgt, hfin⟩, -⟩ := h
  exact ⟨toNat_eq_two_pow hnz hpow, hle, F64.validRate_of_gt hgt hfin⟩

/-- The entries that CFG writes to BITREV are LOG2_NMAX bits wide (R64). -/
theorem bitrevEntries_lt {k nmax : Nat} (hk : 2 ^ k ≤ nmax) {w : Word} (h : w ∈ bitrevEntries (2 ^ k) nmax) :
    w.toNat < nmax := by
  rcases List.mem_append.mp h with h | h
  · obtain ⟨x, hx, rfl⟩ := List.mem_map.mp h
    have hlt := (bitrevTable_shape k).2 x hx
    rw [BitVec.toNat_ofNat]
    exact lt_of_le_of_lt (Nat.mod_le _ _) (lt_of_lt_of_le hlt hk)
  · rw [(List.mem_replicate.mp h).2]
    exact lt_of_lt_of_le (Nat.two_pow_pos k) hk

/-- CFG leaves a context as R68 describes it. -/
theorem contextWf_cfgEffect {u : State} (hp : s.params.wf = true) (hbit : s.bitrev.within s.params.nmax)
    (hc : firstError (cfgChecks s) = none) (hu : cfgEffect s = .ok u) : u.contextWf := by
  obtain ⟨hpow, hle, hrate⟩ := cfgChecks_passed hc
  have hmax := nmax_le_of_wf hp
  have hpos : 0 < s.operands.a0.toNat := by rw [hpow]; exact Nat.two_pow_pos _
  have hlog : s.operands.a0.toNat.log2 < 2 ^ 64 := lt_of_le_of_lt (Nat.log2_le_self _) s.operands.a0.isLt
  have hlen : (bitrevEntries s.operands.a0.toNat s.params.nmax).length = s.params.nmax := by
    rw [hpow]
    exact bitrevEntries_length (hpow ▸ hle)
  have hzero {len i : Nat} (m : Memory) (hi : i < len) :
      ((m.writeRange 0 (List.replicate len F64.zeroPos)).read i).isSome = true :=
    isSome_read_writeRange_zero (by rwa [List.length_replicate])
  have hband := bandwidthOf_draw s.draws hpos (by omega) hrate
  cases hu
  unfold State.contextWf
  rw [if_pos rfl]
  dsimp only
  refine ⟨?_, hle, hrate, hband, ?_, fun i hi => ⟨hzero _ hi, hzero _ hi⟩, fun i hi => hzero _ hi⟩
  · rw [BitVec.toNat_ofNat, Nat.mod_eq_of_lt hlog]
    exact hpow
  · exact writeRange_whole (by rwa [hlen])

theorem inv_cfgEffect {u : State} (h : s.Inv) (hc : firstError (cfgChecks s) = none) (hu : cfgEffect s = .ok u) :
    u.Inv := by
  obtain ⟨hp, ⟨hreal, himag, hspec, hbit, hdmem⟩, htab, hneg, -, herr, -, hheld⟩ := h
  have hctx := contextWf_cfgEffect hp hbit.2 hc hu
  obtain ⟨hpow, hle, -⟩ := cfgChecks_passed hc
  rw [hpow] at hle
  cases hu
  refine ⟨hp, ⟨writeRange_fits hreal ?_, writeRange_fits himag ?_, writeRange_fits hspec ?_, writeRange_fits hbit ?_, hdmem⟩,
    fun c hmem => ?_, fun c hmem => ?_, ⟨zeroPos_nonNegative.1, zeroPos_nonNegative.2, .inl rfl⟩, herr, hctx, hheld⟩
  · simp
  · simp
  · simp
  · rw [hpow, bitrevEntries_length hle, zero_add]
  · rcases mem_writeRange hmem with hmem | ⟨-, -, hmem⟩
    · exact htab c hmem
    · rw [hpow] at hmem
      exact bitrevEntries_lt hle hmem
  · rcases mem_writeRange hmem with hmem | ⟨-, -, hmem⟩
    · exact hneg c hmem
    · rw [(List.mem_replicate.mp hmem).2]
      exact .inr zeroPos_nonNegative.2

theorem inv_fwdEffect {u : State} (h : s.Inv) (hu : fwdEffect s = .ok u) : u.Inv := by
  obtain ⟨x, table, re, -, htable, hgather, rfl⟩ := fwdEffect_ok hu
  have hn := n_le_nmax (contextWf_of_inv h)
  have hsized : Work.sized s.n.toNat { re := re, im := List.replicate s.n.toNat F64.zeroPos, draw := s.draws } :=
    ⟨(gather_length hgather).trans (readRange_length htable), List.length_replicate ..⟩
  obtain ⟨hre, him⟩ := stages_sized (n := s.n.toNat) hsized
  generalize stages s.n.toNat _ = w at hre him ⊢
  have hreal := inv_writeReal h (base := 0) (vs := w.re) (by omega)
  have hbanks := inv_draws (inv_writeImag hreal (base := 0) (vs := w.im) (show 0 + w.im.length ≤ s.params.nmax by omega)) w.draw
  exact inv_calcSpectrum hbanks w.re w.im

theorem inv_writeImagInput {xi : Bool} {imv : List F64} (h : s.Inv) (hlen : imv.length ≤ s.params.nmax)
    (hxi : xi = true → s.operands.a2.toNat + imv.length ≤ s.params.dmemWords) : (s.writeImagInput xi imv).Inv := by
  cases xi
  · exact inv_writeImag h (by omega)
  · exact inv_writeDmem h (hxi rfl)

theorem invImagInput_length {xi : Bool} {im : List Word} (h : invImagInput xi s = .ok im) : im.length = s.n.toNat := by
  cases xi
  · exact readRange_length (b := .imag) h
  · exact readRange_length (b := .dmem) h

/-- What INV's range checks establish (R155). -/
theorem invChecks_passed {xr xi : Bool} (h : firstError (invChecks xr xi s) = none) :
    s.flags.configured = true ∧ (xi = true → s.operands.a2.toNat + s.n.toNat ≤ s.params.dmemWords) ∧
      s.operands.a4.toNat + s.n.toNat ≤ s.params.dmemWords := by
  have hdst := inRange_of_passed h (show rangeCheck s.params .a4 s.operands.a4 s.n.toNat ∈ _ by simp [invChecks])
  simp only [firstError_eq_none, invChecks, configuredCheck, List.forall_mem_cons, Bool.not_eq_false', inRange,
    Bool.and_eq_false_iff, decide_eq_true_iff] at h
  obtain ⟨hconf, -, -, -, hsrc, -⟩ := h
  exact ⟨hconf, fun hxi => hsrc.resolve_left (by simp [hxi]), hdst⟩

theorem inv_invEffect {xr xi : Bool} {u : State} (h : s.Inv) (hc : firstError (invChecks xr xi s) = none)
    (hu : invEffect xr xi s = .ok u) : u.Inv := by
  obtain ⟨im, rev, table, re, imr, him, -, htable, hgre, hgim, rfl⟩ := invEffect_ok hu
  obtain ⟨-, hsrc, hdst⟩ := invChecks_passed hc
  have hlen : (im.map F64.neg).length = s.n.toNat := (List.length_map _).trans (invImagInput_length him)
  have hn := n_le_nmax (contextWf_of_inv h)
  have hinput := inv_writeImagInput (xi := xi) (imv := im.map F64.neg) h (by omega) (fun hxi => by have := hsrc hxi; omega)
  have hsized : Work.sized s.n.toNat { re := re, im := imr, draw := s.draws } :=
    ⟨(gather_length hgre).trans (readRange_length htable), (gather_length hgim).trans (readRange_length htable)⟩
  have hre := (stages_sized (n := s.n.toNat) hsized).1
  generalize stages s.n.toNat _ = w at hre ⊢
  have hout := inv_writeDmem hinput (base := s.operands.a4.toNat) (vs := scaleFrom s.n.toNat w.draw w.re) (by
    rw [scaleFrom_length, hre, writeImagInput_params]
    exact hdst)
  exact inv_draws hout (w.draw + s.n.toNat)

/-- A command that writes one DMEM range inside the memory keeps the invariant. -/
theorem inv_dmemOutput (h : s.Inv) {base len : Nat} {vs : List Word} (hb : base + len ≤ s.params.dmemWords)
    (hlen : vs.length = len) (d : Nat) : { s with dmem := s.dmem.writeRange base vs, draws := d }.Inv :=
  inv_draws (inv_writeDmem h (by omega)) d

/-- Every command's effect keeps the invariant, once its checks have passed. -/
theorem inv_effectOf {i : Instr} {u : State} (h : s.Inv) (hc : firstError (checksOf i s) = none)
    (hu : effectOf i s = .ok u) : u.Inv := by
  cases i
  all_goals simp only [effectOf, checksOf] at hc hu
  case nop => cases hu; exact h
  case cfg => exact inv_cfgEffect h hc hu
  case fwd => exact inv_fwdEffect h hu
  case inv | invXR | invXI | invXRXI => exact inv_invEffect h hc hu
  case spec =>
    obtain ⟨re, im, -, -, rfl⟩ := specEffect_ok hu
    exact inv_calcSpectrum h re im
  case rstpk => cases hu; exact inv_resetPeak h
  case bandf => cases hu; exact h
  case metric =>
    obtain ⟨_, -, rfl⟩ := metricEffect_ok hu
    exact h
  case invert =>
    obtain ⟨x, hx, rfl⟩ := invertEffect_ok hu
    have hrange := inRange_of_passed hc
      (show rangeCheck s.params .a0 s.operands.a0 s.operands.a1.toNat ∈ _ by simp [invertChecks])
    exact inv_dmemOutput h hrange ((List.length_map _).trans (readRange_length hx)) s.draws
  case intlv =>
    obtain ⟨lv, rv, hl, hr, rfl⟩ := intlvEffect_ok hu
    have hrange := inRange_of_passed hc
      (show rangeCheck s.params .a4 s.operands.a4 (2 * s.operands.a1.toNat) ∈ _ by simp [intlvChecks])
    refine inv_dmemOutput h hrange ?_ s.draws
    rw [interleave_length, readRange_length hl, readRange_length hr, min_self]
  case deintlvLeft | deintlvRight | deintlvMix =>
    obtain ⟨x, hx, rfl⟩ := deintlvEffect_ok hu
    have hrange := inRange_of_passed hc
      (show rangeCheck s.params .a4 s.operands.a4 (s.operands.a1.toNat / 2) ∈ _ by simp [deintlvChecks])
    refine inv_dmemOutput h hrange ?_ _
    simp only [leftSamples_length, rightSamples_length, meanSamples_length, readRange_length hx]
  case mix | mixNeg =>
    obtain ⟨av, bv, ha, hb, rfl⟩ := mixEffect_ok hu
    have hrange := inRange_of_passed hc
      (show rangeCheck s.params .a4 s.operands.a4 s.operands.a1.toNat ∈ _ by simp [mixChecks])
    refine inv_dmemOutput h hrange ?_ _
    rw [mixSamples_length, readRange_length ha, readRange_length hb, min_self]
  case rms =>
    obtain ⟨_, -, rfl⟩ := rmsEffect_ok hu
    exact h
  case peakdet =>
    obtain ⟨_, -, rfl⟩ := peakdetEffect_ok hu
    exact h

/-- A command that answers a next state keeps the invariant. -/
theorem inv_exec {i : Instr} {t : State} (h : s.Inv) (ht : exec i s = .next t) : t.Inv := by
  rcases exec_next ht with ⟨e, -, rfl⟩ | ⟨u, hc, hu, rfl⟩
  · exact inv_raise h _ e
  · exact inv_complete (inv_effectOf h hc hu) _

/-- So does the engine's turn, an illegal word's included. -/
theorem inv_engineTurn {l : Latch} {t : State} (h : s.Inv) (ht : engineTurn l s = .next t) :
    t.Inv ∧ t.params = s.params := by
  rcases hd : decodeWord l.word with e | i
  · rw [engineTurn_error hd] at ht
    cases ht
    exact ⟨inv_raise h _ _, rfl⟩
  · rw [engineTurn_ok hd] at ht
    obtain ⟨-, -, -, hp, -⟩ := (exec_frame ht).1
    exact ⟨inv_exec h ht, hp⟩

/-! ## Resets -/

theorem empty_fits (size : Nat) : Memory.wf [] ∧ Memory.within [] size := ⟨.nil, fun _ hc => absurd hc List.not_mem_nil⟩

theorem inv_powerOn {p : Params} (hp : p.wf = true) : (State.powerOn p).Inv := by
  have hctx : (State.powerOn p).contextWf := by
    unfold State.contextWf
    rw [powerOn_flags, if_neg (show ¬Flags.clear.configured = true by decide)]
    exact ⟨rfl, rfl, rfl, rfl⟩
  exact ⟨hp, ⟨empty_fits _, empty_fits _, empty_fits _, empty_fits _, empty_fits _⟩,
    fun _ hc => absurd hc List.not_mem_nil, fun _ hc => absurd hc List.not_mem_nil,
    ⟨zeroPos_nonNegative.1, zeroPos_nonNegative.2, .inl rfl⟩, show legalError 0 by decide, hctx, rfl⟩

/-- What an aborted command could write becomes unwritten, and every bank keeps its other words (R292). -/
theorem forgetOutputs_sublist (o : Operands) (i : Instr) (b : Bank) :
    ((s.forgetOutputs o i).bank b).Sublist (s.bank b) := by
  cases b
  all_goals
    cases i
    all_goals simp [State.forgetOutputs, State.bank, Memory.forget]

theorem abort_sublist (s : State) (b : Bank) : (s.abort.bank b).Sublist (s.bank b) := by
  unfold State.abort
  split
  · exact List.Sublist.refl _
  · split
    · exact List.Sublist.refl _
    · exact forgetOutputs_sublist _ _ b

theorem inv_powerOnReset (h : s.Inv) : s.powerOnReset.Inv := inv_powerOn h.1

theorem inv_softReset (h : s.Inv) : s.softReset.Inv := by
  obtain ⟨hp, ⟨hreal, himag, hspec, hbit, hdmem⟩, htab, hneg, -, -, -, hheld⟩ := h
  obtain ⟨-, -, -, -, hpk, herr, hctx, -⟩ := inv_powerOn hp
  exact ⟨hp, ⟨sublist_fits (abort_sublist s .real) hreal, sublist_fits (abort_sublist s .imag) himag,
      sublist_fits (abort_sublist s .spectrum) hspec, sublist_fits (abort_sublist s .bitrev) hbit,
      sublist_fits (abort_sublist s .dmem) hdmem⟩,
    fun c hc => htab c ((abort_sublist s .bitrev).subset hc), fun c hc => hneg c ((abort_sublist s .spectrum).subset hc),
    hpk, herr, hctx, hheld⟩

/-! ## Accesses of the host -/

theorem inv_writeReg {r : Reg} {v : Word} {t : State} (h : s.Inv) (ht : s.writeReg r v = .ok t) :
    t.Inv ∧ t.params = s.params := by
  rcases writeReg_ok ht with ⟨-, rfl⟩ | ⟨-, rfl⟩ | ⟨-, rfl⟩ | ⟨o, rfl⟩
  · unfold State.writeCtrl
    split
    · exact ⟨inv_softReset h, rfl⟩
    · exact ⟨h, rfl⟩
  · exact ⟨h, rfl⟩
  · unfold State.writeCmd
    split
    · exact ⟨h, rfl⟩
    · exact ⟨h, rfl⟩
  · exact ⟨h, rfl⟩

theorem inv_writeEntry {w : Window} {i : Nat} {v : Word} {t : State} (h : s.Inv) (hi : i < w.size s.params)
    (ht : s.writeEntry w i v = .ok t) : t.Inv ∧ t.params = s.params := by
  rcases writeEntry_ok ht with ⟨rfl, rfl⟩ | ⟨rfl, rfl⟩ | ⟨rfl, rfl⟩
  · exact ⟨inv_writeReal h hi, rfl⟩
  · exact ⟨inv_writeImag h hi, rfl⟩
  · exact ⟨inv_writeDmem h hi, rfl⟩

theorem inv_performAccess {a : HostAccess} {t : State} (h : s.Inv) (ht : performAccess a s = .next t) :
    t.Inv ∧ t.params = s.params := by
  rcases performAccess_next ht with ⟨l, v, -, -, rfl⟩ | ⟨l, v, hl, hw⟩
  · exact ⟨h, rfl⟩
  · cases l with
    | reg r => exact inv_writeReg h hw
    | entry w i => exact inv_writeEntry h (location_entry hl) hw

theorem inv_acceptAccess {a : HostAccess} {t : State} (h : s.Inv) (ht : acceptAccess a s = .next t) :
    t.Inv ∧ t.params = s.params := by
  rcases acceptAccess_next ht with ⟨-, hwin, rfl⟩ | ht
  · obtain ⟨hp, hmem, htab, hneg, hpk, herr, hctx, -⟩ := h
    exact ⟨⟨hp, hmem, htab, hneg, hpk, herr, hctx, hwin⟩, rfl⟩
  · exact inv_performAccess h ht

/-- A hold that ends leaves no access held. -/
theorem inv_release (h : s.Inv) : { s with held := none }.Inv := by
  obtain ⟨hp, hmem, htab, hneg, hpk, herr, hctx, -⟩ := h
  exact ⟨hp, hmem, htab, hneg, hpk, herr, hctx, rfl⟩

/-- Settles O59: whatever the step is, it keeps the invariant. -/
theorem stepKeepsInvariant : Obligations.StepKeepsInvariant := by
  intro s t h hstep
  rcases step_cases s with ⟨rest, -, hs⟩ | ⟨a, -, -, hs⟩ | ⟨a, rest, -, -, hs⟩ | ⟨l, rest, -, hs⟩ | ⟨rest, -, -, hs⟩
  all_goals rw [hs] at hstep
  · cases hstep
    exact ⟨inv_powerOnReset h, rfl⟩
  · exact inv_performAccess (s := { s with held := none }) (inv_release h) hstep
  · exact inv_acceptAccess (s := { s with inputs := rest }) h hstep
  · exact inv_engineTurn (s := { s with inputs := rest }) h hstep
  · cases hstep
    exact ⟨h, rfl⟩

end Sys2Proof.Machine
end

section
/-! PROOFS. Where a step can fault when the invariant holds (R70, R84): the banks of a configured block are written and BITREV's live
entries are below N (R68), so a command faults on DMEM only. -/

namespace Sys2Proof.Machine

variable {s : State} {f : Fault}

/-! ## Banks of a configured block -/

theorem configured_of_passed {cs : List (Bool × CmdError)} (h : firstError cs = none) (hm : configuredCheck s ∈ cs) :
    s.flags.configured = true := by
  simpa [configuredCheck] using firstError_eq_none.mp h _ hm

theorem readRange_ne_error {b : Bank} {m : Memory} {base n : Nat} (h : ∀ k < n, (m.read (base + k)).isSome = true) :
    readRange b m base n ≠ .error f := by
  obtain ⟨vs, hvs⟩ := readRange_of_written (b := b) h
  rw [hvs]
  exact nofun

/-- What R68 and R70 say of the banks that the transform commands read. -/
theorem banks_written (h : s.Inv) (hc : s.flags.configured = true) :
    (∀ n ≤ s.n.toNat, ∀ f, readRange .real s.real 0 n ≠ .error f ∧ readRange .imag s.imag 0 n ≠ .error f) ∧
      ∀ base n, base + n ≤ s.bins → ∀ f, readRange .spectrum s.spectrum base n ≠ .error f := by
  obtain ⟨-, hle, -, -, -, hbanks, hspec⟩ := context_of_configured h hc
  have hbins : s.bins ≤ s.params.nmax / 2 := Nat.div_le_div_right hle
  refine ⟨fun n hn f => ⟨readRange_ne_error fun k hk => ?_, readRange_ne_error fun k hk => ?_⟩,
    fun base n hn f => readRange_ne_error fun k hk => hspec _ (by omega)⟩
  · exact (hbanks _ (by omega)).1
  · exact (hbanks _ (by omega)).2

/-- The live entries of BITREV are written and below N. -/
theorem readRange_bitrev (h : s.Inv) (hc : s.flags.configured = true) :
    ∃ table, readRange .bitrev s.bitrev 0 s.n.toNat = .ok table ∧ ∀ t ∈ table, t.toNat < s.n.toNat := by
  obtain ⟨hn, -, -, -, htable, -⟩ := context_of_configured h hc
  obtain ⟨hlen, hlt⟩ := bitrevTable_shape s.log2n.toNat
  rw [← hn] at hlen hlt
  have hmap : ((bitrevTable s.n.toNat).map (BitVec.ofNat 64)).length = s.n.toNat := by rw [List.length_map, hlen]
  refine ⟨(bitrevTable s.n.toNat).map (BitVec.ofNat 64), readRange_ok.mpr ⟨hmap, fun k hk => ?_⟩, fun t ht => ?_⟩
  · rw [htable, read_cells, if_pos (Nat.zero_le _), zero_add, Nat.sub_zero, bitrevEntries,
      List.getElem?_append_left (by rwa [hmap])]
  · obtain ⟨x, hx, rfl⟩ := List.mem_map.mp ht
    rw [BitVec.toNat_ofNat]
    exact lt_of_le_of_lt (Nat.mod_le _ _) (hlt x hx)

/-- The gather through BITREV of as many values as N cannot fault. -/
theorem gather_bitrev_ne_error (h : s.Inv) (hc : s.flags.configured = true) {x : List F64} {table : List Word}
    (hx : x.length = s.n.toNat) (ht : readRange .bitrev s.bitrev 0 s.n.toNat = .ok table) :
    gather x 0 table ≠ .error f := by
  obtain ⟨table', ht', hlt⟩ := readRange_bitrev h hc
  rw [ht] at ht'
  cases ht'
  intro hg
  obtain ⟨t, htm, hle⟩ := gather_error hg
  have := hlt t htm
  omega

/-! ## Faults of commands -/

/-- The read of a word of DMEM that nothing has written (R70). -/
def Fault.unwrittenDmem (s : State) (f : Fault) : Prop := ∃ a, f = .unwritten .dmem a ∧ s.dmem.read a = none

theorem readDmem_error {base n : Nat} (h : readRange .dmem s.dmem base n = .error f) : f.unwrittenDmem s := by
  obtain ⟨k, -, hr, hf⟩ := readRange_error h
  exact ⟨_, hf, hr⟩

theorem fwdEffect_error (h : s.Inv) (hc : s.flags.configured = true) (hf : fwdEffect s = .error f) : f.unwrittenDmem s := by
  simp only [fwdEffect, bind_eq_error, reduceCtorEq, and_false, exists_false, or_false] at hf
  rcases hf with hx | ⟨x, hx, ht | ⟨table, ht, hg⟩⟩
  · exact readDmem_error hx
  · obtain ⟨table, ht', -⟩ := readRange_bitrev h hc
    rw [ht'] at ht
    cases ht
  · exact absurd hg (gather_bitrev_ne_error h hc (readRange_length hx) ht)

theorem invImagInput_error {xi : Bool} (h : s.Inv) (hc : s.flags.configured = true) (hf : invImagInput xi s = .error f) :
    f.unwrittenDmem s := by
  cases xi
  · exact absurd hf ((banks_written h hc).1 _ le_rfl f).2
  · exact readDmem_error (s := s) hf

/-- The negation of the imaginary input writes no word unwritten, so the real input faults where it would have before. -/
theorem invRealInput_error {xr xi : Bool} {imv : List F64} (h : s.Inv) (hc : s.flags.configured = true)
    (hf : invRealInput xr (s.writeImagInput xi imv) = .error f) : f.unwrittenDmem s := by
  cases xr
  · simp only [invRealInput, writeImagInput_real, writeImagInput_n] at hf
    exact absurd hf ((banks_written h hc).1 _ le_rfl f).1
  · obtain ⟨a, hfa, hr⟩ := readDmem_error (s := s.writeImagInput xi imv) hf
    refine ⟨a, hfa, ?_⟩
    cases xi
    · exact hr
    · by_contra hsome
      have := isSome_read_writeRange s.operands.a2.toNat imv (Option.ne_none_iff_isSome.mp hsome)
      rw [writeImagInput_dmem_dmem] at hr
      rw [hr] at this
      cases this

theorem invRealInput_length {xr : Bool} {re : List Word} (h : invRealInput xr s = .ok re) : re.length = s.n.toNat := by
  cases xr
  · exact readRange_length (b := .real) h
  · exact readRange_length (b := .dmem) h

theorem invEffect_error {xr xi : Bool} (h : s.Inv) (hc : s.flags.configured = true)
    (hf : invEffect xr xi s = .error f) : f.unwrittenDmem s := by
  simp only [invEffect_eq, bind_eq_error, reduceCtorEq, and_false, exists_false, or_false] at hf
  rcases hf with him | ⟨im, him, hrev | ⟨rev, hrev, ht | ⟨table, ht, hg | ⟨re, -, hg⟩⟩⟩⟩
  · exact invImagInput_error h hc him
  · exact invRealInput_error h hc hrev
  · obtain ⟨table, ht', -⟩ := readRange_bitrev h hc
    rw [ht'] at ht
    cases ht
  · have hlen := (invRealInput_length hrev).trans (congrArg BitVec.toNat (writeImagInput_n s xi _))
    exact absurd hg (gather_bitrev_ne_error h hc hlen ht)
  · exact absurd hg (gather_bitrev_ne_error h hc ((List.length_map _).trans (invImagInput_length him)) ht)

theorem specEffect_error (h : s.Inv) (hc : s.flags.configured = true) : specEffect s ≠ .error f := by
  obtain ⟨hreal, himag⟩ := (banks_written h hc).1 s.bins (Nat.div_le_self _ _) f
  intro hf
  rcases bind_eq_error.mp hf with hf | ⟨re, -, hf⟩
  · exact hreal hf
  · exact himag (bind_ok_eq_error.mp hf)

theorem metricEffect_error (h : s.Inv) (hc : firstError (metricChecks s) = none) : metricEffect s ≠ .error f := by
  have hconf := configured_of_passed hc (.head _)
  simp only [firstError_eq_none, metricChecks, List.forall_mem_cons, decide_eq_false_iff_not, not_le] at hc
  obtain ⟨-, hoffset, -⟩ := hc
  exact fun hf => (banks_written h hconf).2 _ _ (by omega) f (bind_ok_eq_error.mp hf)

/-- Every command that faults reads a word of DMEM that nothing has written. -/
theorem effectOf_error {i : Instr} (h : s.Inv) (hc : firstError (checksOf i s) = none) (hf : effectOf i s = .error f) :
    f.unwrittenDmem s := by
  cases i
  all_goals simp only [effectOf, checksOf] at hc hf
  case nop | cfg | rstpk | bandf => cases hf
  case fwd => exact fwdEffect_error h (configured_of_passed hc (.head _)) hf
  case inv | invXR | invXI | invXRXI => exact invEffect_error h (invChecks_passed hc).1 hf
  case spec => exact absurd hf (specEffect_error h (configured_of_passed hc (.head _)))
  case metric => exact absurd hf (metricEffect_error h hc)
  case invert | deintlvLeft | deintlvRight | deintlvMix | rms | peakdet =>
    exact readDmem_error (bind_ok_eq_error.mp hf)
  case intlv | mix | mixNeg =>
    rcases bind_eq_error.mp hf with hf | ⟨_, -, hf⟩
    · exact readDmem_error hf
    · exact readDmem_error (bind_ok_eq_error.mp hf)

/-- Where the invariant holds, configured or not, a command faults on DMEM only. -/
theorem exec_unwrittenDmem {i : Instr} (h : s.Inv) (hf : exec i s = .fault f) : f.unwrittenDmem s :=
  effectOf_error h (exec_fault hf).1 (exec_fault hf).2

/-! ## Faults and refusals of a step -/

theorem readEntry_error {w : Window} {i : Nat} (h : s.readEntry w i = .error f) : f.fromSpec s := by
  cases w
  case twcos | twsin => cases h
  all_goals
    obtain ⟨hr, rfl⟩ := readWord_error.mp h
    exact hr

theorem performAccess_fromSpec {a : HostAccess} (h : performAccess a s = .fault f) : f.fromSpec s := by
  rcases performAccess_fault h with ⟨e, rfl⟩ | ⟨w, i, -, hr⟩
  · trivial
  · exact readEntry_error hr

theorem engineTurn_fromSpec {l : Latch} (h : s.Inv) (hf : engineTurn l s = .fault f) : f.fromSpec s := by
  rcases hd : decodeWord l.word with e | i
  · rw [engineTurn_error hd] at hf
    cases hf
  · rw [engineTurn_ok hd] at hf
    obtain ⟨a, rfl, hr⟩ := exec_unwrittenDmem h hf
    exact hr

theorem performAccess_not_refused (a : HostAccess) (s : State) (r : Refusal) : performAccess a s ≠ .refused r := by
  unfold performAccess
  repeat' split
  all_goals exact nofun

theorem acceptAccess_not_refused (a : HostAccess) (s : State) (r : Refusal) : acceptAccess a s ≠ .refused r := by
  unfold acceptAccess
  split
  · exact nofun
  · exact performAccess_not_refused a s r

theorem engineTurn_not_refused (l : Latch) (s : State) (r : Refusal) : engineTurn l s ≠ .refused r := by
  unfold engineTurn
  split
  · exact exec_not_refused _ s r
  · exact nofun

theorem step_not_refused (s : State) (r : Refusal) : step s ≠ .refused r := by
  rcases step_cases s with ⟨rest, -, hs⟩ | ⟨a, -, -, hs⟩ | ⟨a, rest, -, -, hs⟩ | ⟨l, rest, -, hs⟩ | ⟨rest, -, -, hs⟩
  all_goals rw [hs]
  · exact nofun
  · exact performAccess_not_refused a _ r
  · exact acceptAccess_not_refused a _ r
  · exact engineTurn_not_refused l _ r
  · exact nofun

theorem step_fromSpec (h : s.Inv) (hf : step s = .fault f) : f.fromSpec s := by
  rcases step_cases s with ⟨rest, -, hs⟩ | ⟨a, -, -, hs⟩ | ⟨a, rest, -, -, hs⟩ | ⟨l, rest, -, hs⟩ | ⟨rest, -, -, hs⟩
  all_goals rw [hs] at hf
  · cases hf
  · exact performAccess_fromSpec (s := { s with held := none }) hf
  · exact performAccess_fromSpec (s := { s with inputs := rest }) (acceptAccess_fault hf)
  · exact engineTurn_fromSpec (s := { s with inputs := rest }) h hf
  · cases hf

/-- Settles O60: a step's faults are those of its access or its command, which are the spec's. -/
theorem faultsOnlyWhereTheSpecSays : Obligations.FaultsOnlyWhereTheSpecSays := fun s h =>
  ⟨step_not_refused s, fun _ => step_fromSpec h, fun _ _ _ => exec_unwrittenDmem h⟩

end Sys2Proof.Machine
end

section
/-! PROOFS. The byte lanes of a word (R87). -/

namespace Sys2Proof

theorem getLsbD_laneOf (w : Word) (k : Nat) {b : Nat} (hb : b < 8) : (laneOf w k).getLsbD b = w.getLsbD (8 * k + b) := by
  simp [laneOf, hb]

theorem getElem?_lanesOf (w : Word) {k : Nat} (hk : k < 8) : (lanesOf w)[k]? = some (laneOf w k) := by
  simp [lanesOf, List.getElem?_range hk]

/-- Bit `j` of a word is bit `j % 8` of its lane `j / 8`. -/
theorem getLsbD_wordOfLanes (bs : List Byte) {j : Nat} (hj : j < 64) :
    (wordOfLanes bs).getLsbD j = (bs[j / 8]?.getD 0).getLsbD (j % 8) := by
  induction bs generalizing j with
  | nil => simp [wordOfLanes]
  | cons b bs ih =>
    have hcons : wordOfLanes (b :: bs) = (wordOfLanes bs <<< 8) ||| b.setWidth 64 := rfl
    rw [hcons, BitVec.getLsbD_or, BitVec.getLsbD_shiftLeft, BitVec.getLsbD_setWidth]
    by_cases h8 : j < 8
    · simp [h8, hj, Nat.div_eq_of_lt h8, Nat.mod_eq_of_lt h8]
    · have hdiv : j / 8 = (j - 8) / 8 + 1 := by omega
      have hmod : (j - 8) % 8 = j % 8 := by omega
      rw [BitVec.getLsbD_of_ge b j (by omega), ih (by omega), hdiv, hmod, List.getElem?_cons_succ]
      simp [h8, hj]

/-- Settles O49: bit `j` of the word is carried by lane `j / 8`. -/
theorem byteLanesAreLittleEndian : Obligations.ByteLanesAreLittleEndian := by
  intro w
  have hbit : ∀ k < 8, ∀ b < 8, ((lanesOf w)[k]?.getD 0).getLsbD b = w.getLsbD (8 * k + b) := fun k hk b hb => by
    rw [getElem?_lanesOf w hk, Option.getD_some, getLsbD_laneOf w k hb]
  refine ⟨BitVec.eq_of_getLsbD_eq fun j hj => ?_, by simp [lanesOf], hbit⟩
  rw [getLsbD_wordOfLanes _ hj, hbit (j / 8) (by omega) (j % 8) (by omega), Nat.div_add_mod]

end Sys2Proof
end

section
/-! PROOFS. The host address map (R81, R82): what is at an address, what an access of it answers (R84, R90), and the accesses that
are bus errors (R83 to R85). -/

namespace Sys2Proof.Machine

/-! ## Windows of the address map -/

theorem holds_iff {p : Params} {a : Nat} {w : Window} :
    w.holds p a = true ↔ w.base ≤ a ∧ a < w.base + 8 * w.size p := decide_eq_true_iff

theorem base_mod_eight (w : Window) : w.base % 8 = 0 := by cases w <;> rfl

theorem mem_windows (w : Window) : w ∈ Window.all := by cases w <;> decide

theorem offset_lt_base (r : Reg) (w : Window) : r.offset < w.base := by
  have hr : r.offset < 0x1000 := by cases r <;> decide
  have hw : 0x1000 ≤ w.base := by cases w <;> decide
  omega

/-- The bytes of address space that R81 sets aside for a window: 1 MiB, and 16 MiB for DMEM. -/
def Window.room : Window → Nat
  | .dmem => 2 ^ 24
  | _ => 2 ^ 20

/-- R10 and R11 bound the windows to their room. -/
theorem size_le_room {p : Params} (hp : p.wf = true) (w : Window) : 8 * w.size p ≤ w.room := by
  have hn := nmax_le_of_wf hp
  cases w
  case spectrum => exact show 8 * (p.nmax / 2) ≤ 2 ^ 20 by omega
  case dmem =>
    simp only [Params.wf, Bool.and_eq_true, decide_eq_true_eq] at hp
    obtain ⟨⟨⟨⟨-, -⟩, hd⟩, -⟩, -⟩ := hp
    exact show 8 * p.dmemWords ≤ 2 ^ 24 by omega
  all_goals exact show 8 * p.nmax ≤ 2 ^ 20 by omega

theorem base_add_room_le (w : Window) : w.base + w.room ≤ 2 ^ 25 := by cases w <;> decide

/-- The rooms of two windows do not overlap. -/
theorem rooms_apart {w w' : Window} (h : w ≠ w') : w.base + w.room ≤ w'.base ∨ w'.base + w'.room ≤ w.base := by
  have hall : ∀ w ∈ Window.all, ∀ w' ∈ Window.all, w ≠ w' →
      w.base + w.room ≤ w'.base ∨ w'.base + w'.room ≤ w.base := by decide
  exact hall w (mem_windows w) w' (mem_windows w') h

theorem window_unique {p : Params} (hp : p.wf = true) {a : Nat} {w w' : Window} (h : w.holds p a = true)
    (h' : w'.holds p a = true) : w = w' := by
  by_contra hne
  have hw := size_le_room hp w
  have hw' := size_le_room hp w'
  have hapart := rooms_apart hne
  rw [holds_iff] at h h'
  omega

theorem findWindow_of_holds {p : Params} (hp : p.wf = true) {a : Nat} {w : Window} (h : w.holds p a = true) :
    Window.all.find? (Window.holds p a) = some w := by
  obtain ⟨w', hw'⟩ := Option.isSome_iff_exists.mp (List.find?_isSome.mpr ⟨w, mem_windows w, h⟩)
  rw [hw', window_unique hp (List.find?_some hw') h]

/-! ## Locations (R81, R82) -/

theorem locate_entry_address {p : Params} (hp : p.wf = true) {w : Window} {i : Nat} (hi : i < w.size p) :
    locate p (w.base + 8 * i) = some (.entry w i) := by
  have hreg : Reg.all.find? (fun r => r.offset == w.base + 8 * i) = none := by
    refine List.find?_eq_none.mpr fun r _ => ?_
    have := offset_lt_base r w
    simp only [beq_iff_eq]
    omega
  have hholds : w.holds p (w.base + 8 * i) = true := holds_iff.mpr ⟨by omega, by omega⟩
  have hidx : (w.base + 8 * i - w.base) / 8 = i := by omega
  simp only [locate, hreg, findWindow_of_holds hp hholds, hidx]

theorem offset_of_locate_reg {p : Params} {a : Nat} {r : Reg} (h : locate p a = some (.reg r)) : r.offset = a := by
  unfold locate at h
  split at h
  · next q hq =>
    cases h
    simpa using List.find?_some hq
  · split at h <;> cases h

theorem address_of_locate_entry {p : Params} {a : Nat} {w : Window} {i : Nat} (ha : a % 8 = 0)
    (h : locate p a = some (.entry w i)) : i < w.size p ∧ w.base + 8 * i = a := by
  obtain ⟨hle, rfl, hi⟩ := locate_entry h
  have := base_mod_eight w
  exact ⟨hi, by omega⟩

/-- Nothing but the registers and the windows' entries is mapped. -/
theorem locate_eq_none {p : Params} {a : Nat} (ha : a % 8 = 0) (hreg : ∀ r : Reg, r.offset ≠ a)
    (hentry : ∀ (w : Window) (i : Nat), i < w.size p → w.base + 8 * i ≠ a) : locate p a = none := by
  rcases h : locate p a with _ | r | ⟨w, i⟩
  · rfl
  · exact absurd (offset_of_locate_reg h) (hreg r)
  · obtain ⟨hi, hai⟩ := address_of_locate_entry ha h
    exact absurd hai (hentry w i hi)

theorem location_of_entry_address {p : Params} (hp : p.wf = true) {a : HostAccess} {w : Window} {i : Nat}
    (hi : i < w.size p) (hw : a.width = 8) (ha : a.addr = BitVec.ofNat 32 (w.base + 8 * i)) :
    a.location p = .ok (.entry w i) := by
  have hsize := size_le_room hp w
  have hroom := base_add_room_le w
  have hmod := base_mod_eight w
  have haddr : a.addr.toNat = w.base + 8 * i := by
    rw [ha, BitVec.toNat_ofNat, Nat.mod_eq_of_lt (by omega)]
  have halign : (w.base + 8 * i) % 8 = 0 := by omega
  simp [HostAccess.location, hw, haddr, halign, locate_entry_address hp hi]

theorem location_of_width {p : Params} {a : HostAccess} (h : a.width ≠ 8) : a.location p = .error .width := if_pos h

theorem location_of_misaligned {p : Params} {a : HostAccess} (hw : a.width = 8) (h : a.addr.toNat % 8 ≠ 0) :
    a.location p = .error .alignment := by
  simp [HostAccess.location, hw, h]

theorem location_of_unmapped {p : Params} {a : HostAccess} (hw : a.width = 8) (ha : a.addr.toNat % 8 = 0)
    (h : locate p a.addr.toNat = none) : a.location p = .error .unmapped := by
  simp [HostAccess.location, hw, ha, h]

theorem location_of_locate {p : Params} {a : HostAccess} {l : Location} (hw : a.width = 8) (ha : a.addr.toNat % 8 = 0)
    (h : locate p a.addr.toNat = some l) : a.location p = .ok l := by
  simp [HostAccess.location, hw, ha, h]

/-! ## What an access answers (R84, R90) -/

section

variable {s t : State} {a : HostAccess} {addr : BitVec 32} {width : Nat} {v : Word} {l : Location} {f : Fault}

theorem performAccess_busError {e : BusError} (h : a.location s.params = .error e) :
    performAccess a s = .fault (.busError e) := by
  simp only [performAccess, h]

theorem performAccess_read (hl : (HostAccess.read addr width).location s.params = .ok l) (hv : s.readLocation l = .ok v) :
    performAccess (.read addr width) s = .next { s with reads := v :: s.reads } := by
  simp only [performAccess, hl, hv]

theorem performAccess_read_error (hl : (HostAccess.read addr width).location s.params = .ok l)
    (hf : s.readLocation l = .error f) : performAccess (.read addr width) s = .fault f := by
  simp only [performAccess, hl, hf]

theorem performAccess_write (hl : (HostAccess.write addr width v).location s.params = .ok l)
    (ht : s.writeLocation l v = .ok t) : performAccess (.write addr width v) s = .next t := by
  simp only [performAccess, hl, ht]

theorem performAccess_write_error (hl : (HostAccess.write addr width v).location s.params = .ok l)
    (hf : s.writeLocation l v = .error f) : performAccess (.write addr width v) s = .fault f := by
  simp only [performAccess, hl, hf]

/-- A read of an entry without a value is the fault of R70. -/
theorem unwritten_of_readEntry {w : Window} {i : Nat} (h : s.readEntry w i = .error f) : ∃ b, f = .unwritten b i := by
  cases w
  case twcos | twsin => cases h
  all_goals exact ⟨_, (readWord_error.mp h).2⟩

end

/-- Settles O47: an access goes to the location of its address, and a read answers what is there. -/
theorem addressMap : Obligations.AddressMap := by
  refine ⟨fun p hp => ⟨locate_offset p, fun _ _ hi => locate_entry_address hp hi, fun _ ha => locate_eq_none ha⟩,
    fun s r => ?_, fun s w i hp hi => ?_, fun s => ⟨?_, ?_, fun _ => ⟨rfl, rfl⟩⟩⟩
  · exact performAccess_read (location_of_offset s.params rfl (toNat_ofNat_offset r)) rfl
  · have hl : (HostAccess.read (BitVec.ofNat 32 (w.base + 8 * i)) 8).location s.params = .ok (.entry w i) :=
      location_of_entry_address hp hi rfl rfl
    exact ⟨fun v hv => performAccess_read hl hv,
      fun f hf => ⟨performAccess_read_error hl hf, unwritten_of_readEntry hf⟩⟩
  · simp [State.readReg, idWord, capsWord]
  · simp [State.readEntry, readWord_ok]

/-! ## Bus errors (R83 to R85) -/

theorem writeReg_readOnly (s : State) {r : Reg} (v : Word)
    (hr : r ∈ [Reg.id, .caps, .error, .cmdCount, .n, .log2n, .sampleRate, .bandwidth, .peak, .peakBand, .calk, .result0,
      .result1]) : s.writeReg r v = .error (.busError .readOnly) := by
  fin_cases hr <;> rfl

theorem writeReg_writable (s : State) {r : Reg} (v : Word)
    (hr : r ∈ [Reg.ctrl, .status, .cmd, .a0, .a1, .a2, .a3, .a4, .f0]) : ∃ t, s.writeReg r v = .ok t := by
  fin_cases hr <;> exact ⟨_, rfl⟩

theorem writeEntry_readOnly (s : State) {w : Window} (i : Nat) (v : Word)
    (hw : w ∈ [Window.spectrum, .bitrev, .twcos, .twsin]) : s.writeEntry w i v = .error (.busError .readOnly) := by
  fin_cases hw <;> rfl

/-- Settles O48: the checks of an access in their order (R83, R84), then what its location takes (R85). -/
theorem busErrorsFault : Obligations.BusErrorsFault := by
  intro s addr v
  refine ⟨fun width hw => ⟨?_, ?_⟩, fun ha => ⟨?_, ?_⟩, fun ha hn => ⟨?_, ?_⟩, fun r hr ha => ?_, fun w hw i ha hl => ?_,
    fun r hr ha => ?_⟩
  · exact performAccess_busError (location_of_width hw)
  · exact performAccess_busError (location_of_width hw)
  · exact performAccess_busError (location_of_misaligned rfl ha)
  · exact performAccess_busError (location_of_misaligned rfl ha)
  · exact performAccess_busError (location_of_unmapped rfl ha hn)
  · exact performAccess_busError (location_of_unmapped rfl ha hn)
  · exact performAccess_write_error (location_of_offset s.params rfl ha) (writeReg_readOnly s v hr)
  · exact performAccess_write_error (location_of_locate rfl ha hl) (writeEntry_readOnly s i v hw)
  · obtain ⟨t, ht⟩ := writeReg_writable s v hr
    exact ⟨t, performAccess_write (location_of_offset s.params rfl ha) ht⟩

end Sys2Proof.Machine
end

section
/-! PROOFS. Host writes to the windows (R61, R62, R65, R81), and accesses that the port holds while a command runs (R86). -/

namespace Sys2Proof.Machine

/-! ## A write to an entry of a window -/

theorem readWord_write (b : Bank) (m : Memory) (i : Nat) (v : Word) : readWord b (m.write i v) i = .ok v := by
  rw [readWord_ok, read_write, if_pos rfl]

theorem readWord_write_of_ne (b : Bank) (m : Memory) {i j : Nat} (v : Word) (h : j ≠ i) :
    readWord b (m.write i v) j = readWord b m j := by
  unfold readWord
  rw [read_write, if_neg h]

section

variable {s t : State} {w : Window} {i : Nat} {v : Word}

theorem writeEntry_writable (s : State) (i : Nat) (v : Word) (hw : w ∈ [Window.real, .imag, .dmem]) :
    ∃ t, s.writeEntry w i v = .ok t := by
  fin_cases hw <;> exact ⟨_, rfl⟩

theorem readEntry_writeEntry (h : s.writeEntry w i v = .ok t) : t.readEntry w i = .ok v := by
  rcases writeEntry_ok h with ⟨rfl, rfl⟩ | ⟨rfl, rfl⟩ | ⟨rfl, rfl⟩
  all_goals exact readWord_write _ _ i v

theorem readEntry_writeEntry_of_ne {w' : Window} {j : Nat} (h : s.writeEntry w i v = .ok t) (hne : (w', j) ≠ (w, i)) :
    t.readEntry w' j = s.readEntry w' j := by
  have hj : w' = w → j ≠ i := fun hw hj => hne (by rw [hw, hj])
  rcases writeEntry_ok h with ⟨rfl, rfl⟩ | ⟨rfl, rfl⟩ | ⟨rfl, rfl⟩
  · cases w' with
    | real => exact readWord_write_of_ne .real s.real v (hj rfl)
    | _ => rfl
  · cases w' with
    | imag => exact readWord_write_of_ne .imag s.imag v (hj rfl)
    | _ => rfl
  · cases w' with
    | dmem => exact readWord_write_of_ne .dmem s.dmem v (hj rfl)
    | _ => rfl

theorem readReg_writeEntry (h : s.writeEntry w i v = .ok t) (r : Reg) : t.readReg r = s.readReg r := by
  rcases writeEntry_ok h with ⟨-, rfl⟩ | ⟨-, rfl⟩ | ⟨-, rfl⟩
  all_goals cases r <;> rfl

theorem writeEntry_frame (h : s.writeEntry w i v = .ok t) : t.params = s.params ∧ t.running = s.running := by
  rcases writeEntry_ok h with ⟨-, rfl⟩ | ⟨-, rfl⟩ | ⟨-, rfl⟩
  all_goals exact ⟨rfl, rfl⟩

end

/-- Settles O51: the write goes to one entry of one array, which is what a read of that entry answers. -/
theorem windowWritesReadBack : Obligations.WindowWritesReadBack := by
  intro s w i v hp hw hi
  obtain ⟨t, ht⟩ := writeEntry_writable s i v hw
  obtain ⟨hparams, hrunning⟩ := writeEntry_frame ht
  have hl : ∀ a : HostAccess, a.width = 8 → a.addr = BitVec.ofNat 32 (w.base + 8 * i) → a.location s.params = .ok (.entry w i) :=
    fun _ => location_of_entry_address hp hi
  exact ⟨t, performAccess_write (hl _ rfl rfl) ht,
    performAccess_read (l := .entry w i) (hparams ▸ hl _ rfl rfl) (readEntry_writeEntry ht),
    fun _ _ => readEntry_writeEntry_of_ne ht, readReg_writeEntry ht, hrunning⟩

/-! ## Held accesses (R86) -/

section

variable {s : State} {a b : HostAccess} {l : Latch} {rest : List Input}

theorem acceptAccess_window (hb : s.running.isSome = true) (hw : a.toWindow s.params = true) :
    acceptAccess a s = .next { s with held := some a } := by
  simp [acceptAccess, State.busy, hb, hw]

theorem acceptAccess_reg {r : Reg} (h : a.location s.params = .ok (.reg r)) : acceptAccess a s = performAccess a s := by
  simp [acceptAccess, HostAccess.toWindow, h]

theorem step_access (hh : s.held = none) (hi : s.inputs = .access a :: rest) :
    step s = acceptAccess a { s with inputs := rest } := by
  simp only [step, hi, hh]

/-- An access behind a held one stays where it is: the engine takes its turn. -/
theorem step_behind_held (hh : s.held = some a) (hr : s.running = some l) (hi : s.inputs = .access b :: rest) :
    step s = engineTurn l s := by
  cases s
  dsimp only at hh hr hi
  subst hh hr hi
  rfl

/-- A hold ends as soon as no command runs, whatever comes next but a power-on reset. -/
theorem step_release (hh : s.held = some a) (hr : s.running = none) (hi : ∀ rest, s.inputs ≠ .powerOnReset :: rest) :
    step s = performAccess a { s with held := none } := by
  unfold step
  rw [hh, hr]
  rcases hs : s.inputs with _ | ⟨_ | _ | _, rest⟩
  case cons.powerOnReset => exact absurd hs (hi rest)
  all_goals rfl

theorem step_powerOnReset (hi : s.inputs = .powerOnReset :: rest) :
    step s = .next { s with inputs := rest }.powerOnReset := by
  simp only [step, hi]

end

/-- Settles O56: each clause is one row of the step, and a register is not a window. -/
theorem windowAccessIsHeld : Obligations.WindowAccessIsHeld := by
  refine ⟨fun s a rest hb hw hh hi => ?_, fun s a b l rest hh hr hi => step_behind_held hh hr hi,
    fun s a b rest hh hr hi => step_release hh hr fun rest' h => ?_, fun s rest hi => ?_, fun s a r rest hh hi hl => ?_⟩
  · rw [step_access hh hi]
    exact acceptAccess_window (s := { s with inputs := rest }) hb hw
  · rcases hi with hi | hi | hi
    all_goals exact absurd (hi.symm.trans h) nofun
  · exact ⟨_, step_powerOnReset hi, rfl, rfl, rfl, rfl⟩
  · rw [step_access hh hi]
    exact acceptAccess_reg (s := { s with inputs := rest }) hl

end Sys2Proof.Machine
end

section
/-! PROOFS. The fields of a command word (R110), the decoder's three checks (R118) and the words of the opcode table (R119). -/

namespace Sys2Proof

/-! ## The fields of a word -/

theorem getLsbD_eq_of_extractLsb'_eq {w v : Word} {start len j : Nat} (h : w.extractLsb' start len = v.extractLsb' start len)
    (hlo : start ≤ j) (hhi : j < start + len) : w.getLsbD j = v.getLsbD j := by
  have hbit := congrArg (·.getLsbD (j - start)) h
  simpa [BitVec.getLsbD_extractLsb', show j - start < len by omega, Nat.add_sub_cancel' hlo] using hbit

/-- The fields of R110 drop no bit of the word. -/
theorem fieldsOf_injective : Function.Injective fieldsOf := by
  intro w v h
  obtain ⟨hop, hch, hneg, hxr, hxi, hlow, hhigh⟩ := CmdFields.mk.inj h
  refine BitVec.eq_of_getLsbD_eq fun j hj => ?_
  obtain hj | hj | rfl | rfl | rfl | hj | hj :
      j < 8 ∨ 8 ≤ j ∧ j < 10 ∨ j = 10 ∨ j = 11 ∨ j = 12 ∨ 13 ≤ j ∧ j < 32 ∨ 32 ≤ j ∧ j < 64 := by omega
  · exact getLsbD_eq_of_extractLsb'_eq hop (by omega) (by omega)
  · exact getLsbD_eq_of_extractLsb'_eq hch (by omega) (by omega)
  · exact hneg
  · exact hxr
  · exact hxi
  · exact getLsbD_eq_of_extractLsb'_eq hlow (by omega) (by omega)
  · exact getLsbD_eq_of_extractLsb'_eq hhigh (by omega) (by omega)

theorem fieldsOf_and (w v : Word) :
    fieldsOf (w &&& v) =
      { opcode := (fieldsOf w).opcode &&& (fieldsOf v).opcode
        ch := (fieldsOf w).ch &&& (fieldsOf v).ch
        neg := (fieldsOf w).neg && (fieldsOf v).neg
        xr := (fieldsOf w).xr && (fieldsOf v).xr
        xi := (fieldsOf w).xi && (fieldsOf v).xi
        reservedLow := (fieldsOf w).reservedLow &&& (fieldsOf v).reservedLow
        reservedHigh := (fieldsOf w).reservedHigh &&& (fieldsOf v).reservedHigh } := by
  simp [fieldsOf, opcodeByte, BitVec.extractLsb'_and]

/-! ## The opcode map (R119) -/

/-- The opcode byte of each command (R119). -/
def Opcode.byte : Opcode → Byte
  | .nop => 0x00
  | .cfg => 0x01
  | .fwd => 0x02
  | .inv => 0x03
  | .spec => 0x04
  | .rstpk => 0x05
  | .bandf => 0x06
  | .metric => 0x07
  | .invert => 0x10
  | .intlv => 0x11
  | .deintlv => 0x12
  | .mix => 0x13
  | .rms => 0x14
  | .peakdet => 0x15

theorem eq_byte_of_ofByte {b : Byte} {op : Opcode} (h : Opcode.ofByte b = some op) : b = op.byte := by
  unfold Opcode.ofByte at h
  split at h
  all_goals cases h
  all_goals exact BitVec.eq_of_toNat_eq ‹_›

/-! ## The second check: flags -/

/-- What the mask of the second check leaves of each field: all of it, but for the opcode and the flags the opcode allows. -/
theorem fieldsOf_flagMask (op : Opcode) :
    fieldsOf (~~~(0xFF : Word) &&& ~~~allowedFlags op) =
      { opcode := 0#8
        ch := if op.byte = 0x12 then 0#2 else BitVec.allOnes 2
        neg := op.byte != 0x13
        xr := op.byte != 0x03
        xi := op.byte != 0x03
        reservedLow := BitVec.allOnes 19
        reservedHigh := BitVec.allOnes 32 } := by
  cases op <;> decide

theorem flagsAllowed_iff {w : Word} {op : Opcode} (hop : opcodeByte w = op.byte) :
    (fieldsOf w).flagsAllowed = true ↔ w &&& ~~~(0xFF : Word) &&& ~~~allowedFlags op = 0 := by
  have hopcode : (fieldsOf w).opcode = op.byte := hop
  have hzero : fieldsOf 0 = .plain 0 := by decide
  rw [BitVec.and_assoc, ← fieldsOf_injective.eq_iff, fieldsOf_and, fieldsOf_flagMask, hzero]
  simp only [CmdFields.flagsAllowed, CmdFields.plain, hopcode, CmdFields.mk.injEq, BitVec.and_allOnes, BitVec.and_zero,
    BitVec.ofNat_eq_ofNat, Bool.and_eq_true, Bool.or_eq_true, Bool.and_eq_false_iff, Bool.not_eq_true', bne_eq_false_iff_eq,
    beq_iff_eq]
  by_cases h12 : op.byte = 0x12#8
  · simp only [if_pos h12, BitVec.and_zero]
    tauto
  · simp only [if_neg h12, BitVec.and_allOnes]
    tauto

/-! ## The three checks in order -/

section

variable {w : Word} {op : Opcode}

theorem decodeWord_of_reserved (h : (fieldsOf w).opcodeDefined = false) : decodeWord w = .error .reservedOpcode := by
  have hnone : Opcode.ofByte (opcodeByte w) = none := by
    simpa [CmdFields.opcodeDefined, fieldsOf] using h
  simp [decodeWord, hnone]

theorem decodeWord_of_ofByte (h : Opcode.ofByte (opcodeByte w) = some op) :
    decodeWord w = if (fieldsOf w).flagsAllowed then selectCommand op w else .error .flagNotAllowed := by
  simp only [decodeWord, h, flagsAllowed_iff (eq_byte_of_ofByte h), ne_eq, ite_not]

theorem channelDefined_eq_false_iff (hop : opcodeByte w = op.byte) :
    (fieldsOf w).channelDefined = false ↔ op = .deintlv ∧ w.extractLsb' 8 2 = 3 := by
  have hbyte : op.byte = 0x12 ↔ op = .deintlv := by cases op <;> decide
  simp [CmdFields.channelDefined, fieldsOf, hop, ← hbyte]

theorem selectCommand_of_reservedChannel (hop : opcodeByte w = op.byte) (h : (fieldsOf w).channelDefined = false) :
    selectCommand op w = .error .reservedChannel := by
  obtain ⟨rfl, hch⟩ := (channelDefined_eq_false_iff hop).mp h
  rw [selectCommand, hch]
  rfl

/-- With no flag but its own, a word is told by its opcode and the flags that opcode allows. -/
theorem fieldsOf_eq_of_flagsAllowed (hop : opcodeByte w = op.byte) (hf : (fieldsOf w).flagsAllowed = true) :
    fieldsOf w =
      { CmdFields.plain op.byte with
        ch := if op.byte = 0x12 then w.extractLsb' 8 2 else 0
        neg := op.byte == 0x13 && w.getLsbD 10
        xr := op.byte == 0x03 && w.getLsbD 11
        xi := op.byte == 0x03 && w.getLsbD 12 } := by
  simp only [CmdFields.flagsAllowed, fieldsOf, hop, Bool.and_eq_true, Bool.or_eq_true, beq_iff_eq] at hf
  obtain ⟨⟨⟨⟨hlow, hhigh⟩, hch⟩, hneg⟩, hx⟩ := hf
  simp only [fieldsOf, hop, hlow, hhigh, CmdFields.plain, CmdFields.mk.injEq]
  grind

theorem selectCommand_of_wf (hop : opcodeByte w = op.byte) (hf : (fieldsOf w).flagsAllowed = true)
    (hc : (fieldsOf w).channelDefined = true) : ∃ i, selectCommand op w = .ok i ∧ i.fields = fieldsOf w := by
  rw [fieldsOf_eq_of_flagsAllowed hop hf]
  cases op
  case inv =>
    simp only [selectCommand]
    cases w.getLsbD 11 <;> cases w.getLsbD 12 <;> exact ⟨_, rfl, rfl⟩
  case mix =>
    simp only [selectCommand]
    cases w.getLsbD 10 <;> exact ⟨_, rfl, rfl⟩
  case deintlv =>
    have hne : w.extractLsb' 8 2 ≠ 3 := fun h =>
      nomatch hc.symm.trans ((channelDefined_eq_false_iff hop).mpr ⟨rfl, h⟩)
    have hlt : ∀ ch : BitVec 2, ch ≠ 3 → ch = 0 ∨ ch = 1 ∨ ch = 2 := by decide
    rcases hlt _ hne with hch | hch | hch
    all_goals
      rw [selectCommand, hch]
      exact ⟨_, rfl, rfl⟩
  all_goals exact ⟨_, rfl, rfl⟩

end

theorem exists_opcode_of_opcodeDefined {w : Word} (h : (fieldsOf w).opcodeDefined = true) :
    ∃ op, Opcode.ofByte (opcodeByte w) = some op ∧ opcodeByte w = op.byte := by
  obtain ⟨op, hop⟩ := Option.isSome_iff_exists.mp h
  exact ⟨op, hop, eq_byte_of_ofByte hop⟩

theorem decodeWord_of_wf {w : Word} (h : (fieldsOf w).wf = true) : ∃ i, decodeWord w = .ok i ∧ i.fields = fieldsOf w := by
  obtain ⟨⟨ho, hf⟩, hc⟩ : (_ ∧ _) ∧ _ := by simpa only [CmdFields.wf, Bool.and_eq_true] using h
  obtain ⟨op, hop, hbyte⟩ := exists_opcode_of_opcodeDefined ho
  rw [decodeWord_of_ofByte hop, if_pos hf]
  exact selectCommand_of_wf hbyte hf hc

/-- Settles O2: each check turns on the field it names, and the command chosen has the fields the checks leave free. -/
theorem decodeChecksInOrder : Obligations.DecodeChecksInOrder := by
  refine fun w => ⟨decodeWord_of_reserved, fun ho hf => ?_, fun ho hf hc => ?_, decodeWord_of_wf, rfl, rfl, rfl, fun _ => rfl⟩
  · obtain ⟨op, hop, -⟩ := exists_opcode_of_opcodeDefined ho
    simp [decodeWord_of_ofByte hop, hf]
  · obtain ⟨op, hop, hbyte⟩ := exists_opcode_of_opcodeDefined ho
    rw [decodeWord_of_ofByte hop, if_pos hf, selectCommand_of_reservedChannel hbyte hc]

/-! ## Decode and encode -/

/-- Every row of the opcode table is legal, has its row's fields, and is read back (R118, R119). -/
theorem roundTrip : ∀ i : Instr, Laws.RoundTrip.Statement i
  | .nop => Laws.RoundTrip.nop
  | .cfg => Laws.RoundTrip.cfg
  | .fwd => Laws.RoundTrip.fwd
  | .inv => Laws.RoundTrip.inv
  | .invXR => Laws.RoundTrip.invXR
  | .invXI => Laws.RoundTrip.invXI
  | .invXRXI => Laws.RoundTrip.invXRXI
  | .spec => Laws.RoundTrip.spec
  | .rstpk => Laws.RoundTrip.rstpk
  | .bandf => Laws.RoundTrip.bandf
  | .metric => Laws.RoundTrip.metric
  | .invert => Laws.RoundTrip.invert
  | .intlv => Laws.RoundTrip.intlv
  | .deintlvLeft => Laws.RoundTrip.deintlvLeft
  | .deintlvRight => Laws.RoundTrip.deintlvRight
  | .deintlvMix => Laws.RoundTrip.deintlvMix
  | .mix => Laws.RoundTrip.mix
  | .mixNeg => Laws.RoundTrip.mixNeg
  | .rms => Laws.RoundTrip.rms
  | .peakdet => Laws.RoundTrip.peakdet

theorem fieldsOf_encode (i : Instr) : fieldsOf (encode i) = i.fields := by
  obtain ⟨-, hfields, -⟩ := roundTrip i
  exact hfields

theorem decodeWord_encode (i : Instr) : decodeWord (encode i) = .ok i := by
  obtain ⟨-, -, hdecode, -⟩ := roundTrip i
  exact hdecode

/-- A word that decodes has passed all three checks. -/
theorem wf_of_decodeWord_ok {i : Instr} {w : Word} (h : decodeWord w = .ok i) : (fieldsOf w).wf = true := by
  obtain ⟨hreserved, hflags, hchannel, -⟩ := decodeChecksInOrder w
  have ho : (fieldsOf w).opcodeDefined = true :=
    Bool.of_not_eq_false fun hn => nomatch h.symm.trans (hreserved hn)
  have hf : (fieldsOf w).flagsAllowed = true :=
    Bool.of_not_eq_false fun hn => nomatch h.symm.trans (hflags ho hn)
  have hc : (fieldsOf w).channelDefined = true :=
    Bool.of_not_eq_false fun hn => nomatch h.symm.trans (hchannel ho hf hn)
  simp [CmdFields.wf, ho, hf, hc]

theorem fieldsOf_of_decodeWord_ok {i : Instr} {w : Word} (h : decodeWord w = .ok i) : fieldsOf w = i.fields := by
  obtain ⟨j, hj, hfields⟩ := decodeWord_of_wf (wf_of_decodeWord_ok h)
  cases h.symm.trans hj
  exact hfields.symm

/-- Settles O1: a word that decodes to `i` has the fields of `i`'s word, and the fields are the word. -/
theorem decodeEncodeAgree : Obligations.DecodeEncodeAgree := by
  intro i w
  constructor
  · intro h
    exact fieldsOf_injective ((fieldsOf_of_decodeWord_ok h).trans (fieldsOf_encode i).symm)
  · rintro rfl
    exact decodeWord_encode i

/-- Settles O3: the legal words are the table's, and each of the others fails one of the checks. -/
theorem sampleWordsDecode : Obligations.SampleWordsDecode :=
  ⟨decodeWord_encode .cfg, decodeWord_encode .invXRXI, decodeWord_encode .deintlvRight, decodeWord_encode .mixNeg,
    decodeWord_encode .peakdet, by decide⟩

end Sys2Proof

namespace Sys2Proof.Machine

/-! ## An illegal word (R120, R256) -/

/-- With a command latched, an engine input is the engine's turn, whether or not an access is held. -/
theorem step_engine {s : State} {l : Latch} {rest : List Input} (hr : s.running = some l) (hi : s.inputs = .engine :: rest) :
    step s = engineTurn l { s with inputs := rest } := by
  unfold step
  rw [hr, hi]
  cases s.held <;> rfl

/-- Settles O5: the engine's turn raises ILLEGAL_COMMAND, which is the error completion with code 8. -/
theorem illegalWordCompletesWithError : Obligations.IllegalWordCompletesWithError := by
  intro s l e rest hr hd hi
  rw [step_engine hr hi, engineTurn_error hd]
  rfl

end Sys2Proof.Machine
end

section
/-! PROOFS. How every command completes (R144, R145, R256) and when the engine takes its turn (R140, R141): the commands' checks and
effects against the two completions. -/

namespace Sys2Proof.Machine

open Sys2Proof.Claims

/-! ## The two ways a command completes -/

/-- A command whose first failing check reports `e` gives R256's completion. -/
theorem exec_error {i : Instr} {s : State} {e : CmdError} (h : firstError (checksOf i s) = some e) :
    exec i s = .next (errorCompletion (opcodeByte (encode i)) e.code e.detail s) := by
  rw [exec_eq_runCommand]
  exact runCommand_error h

/-- A command whose checks pass runs its effect and completes (R144). -/
theorem exec_ok {i : Instr} {s u : State} (hc : firstError (checksOf i s) = none) (hu : effectOf i s = .ok u) :
    exec i s = .next (u.complete (opcodeByte (encode i))) := by
  rw [exec_eq_runCommand]
  exact runCommand_ok hc hu

theorem code_ne_zero (e : CmdError) : e.code ≠ 0 := by cases e <;> simp [CmdError.code]

@[simp] theorem errorCode_complete (s : State) (op : Byte) : errorCode (s.complete op) = 0 := errorWord_code op 0 0

@[simp] theorem errorCode_raise (s : State) (op : Byte) (e : CmdError) : errorCode (s.raise op e) = e.code :=
  errorWord_code op e.detail e.code

/-- A command that reports code 0 passed its checks, ran its effect and completed. -/
theorem exec_next_of_errorCode_zero {i : Instr} {s t : State} (h : exec i s = .next t) (h0 : errorCode t = 0) :
    ∃ u, firstError (checksOf i s) = none ∧ effectOf i s = .ok u ∧ t = u.complete (opcodeByte (encode i)) := by
  rcases exec_next h with ⟨e, -, rfl⟩ | hu
  · exact absurd ((errorCode_raise ..).symm.trans h0) (code_ne_zero e)
  · exact hu

theorem errorWord_opcode (op detail code : Byte) : (errorWord op detail code).extractLsb' 16 8 = op := by
  refine BitVec.eq_of_getLsbD_eq fun k hk => ?_
  rw [errorWord, BitVec.getLsbD_extractLsb', BitVec.getLsbD_append, BitVec.getLsbD_append, BitVec.getLsbD_append]
  simp [hk, show ¬16 + k < 8 by omega, show ¬16 + k - 8 < 8 by omega, show 16 + k - 8 - 8 = k by omega]

/-- No effect touches what the completions write: of STATUS it can change CONFIGURED only. -/
theorem effectOf_completion_frame {i : Instr} {s u : State} (h : effectOf i s = .ok u) :
    u.flags.err = s.flags.err ∧ u.flags.overrun = s.flags.overrun ∧ u.cmdCount = s.cmdCount := by
  cases i
  all_goals simp only [effectOf] at h
  case' nop | cfg | rstpk | bandf => cases h
  case' fwd => obtain ⟨_, _, _, -, -, -, rfl⟩ := fwdEffect_ok h
  case' inv | invXR | invXI | invXRXI => obtain ⟨_, _, _, _, _, -, -, -, -, -, rfl⟩ := invEffect_ok h
  case' spec => obtain ⟨_, _, -, -, rfl⟩ := specEffect_ok h
  case' metric => obtain ⟨_, -, rfl⟩ := metricEffect_ok h
  case' invert => obtain ⟨_, -, rfl⟩ := invertEffect_ok h
  case' intlv => obtain ⟨_, _, -, -, rfl⟩ := intlvEffect_ok h
  case' deintlvLeft | deintlvRight | deintlvMix => obtain ⟨_, -, rfl⟩ := deintlvEffect_ok h
  case' mix | mixNeg => obtain ⟨_, _, -, -, rfl⟩ := mixEffect_ok h
  case' rms => obtain ⟨_, -, rfl⟩ := rmsEffect_ok h
  case' peakdet => obtain ⟨_, -, rfl⟩ := peakdetEffect_ok h
  all_goals simp

/-- Settles O6: each of the two completions writes these, and no effect does. -/
theorem everyCompletionRecords : Obligations.EveryCompletionRecords := by
  intro i s t h
  rcases exec_next h with ⟨e, -, rfl⟩ | ⟨u, -, hu, rfl⟩
  · refine ⟨rfl, rfl, rfl, rfl, errorWord_opcode .., legalError_errorWord _ (errorPair_mem e), fun h0 => ?_, fun _ => rfl⟩
    exact absurd ((errorCode_raise ..).symm.trans h0) (code_ne_zero e)
  · obtain ⟨herr, hover, hcount⟩ := effectOf_completion_frame hu
    refine ⟨rfl, rfl, hover, congrArg (· + 1) hcount, errorWord_opcode .., legalError_errorWord _ (by decide),
      fun _ => ⟨rfl, herr⟩, fun h0 => ?_⟩
    exact absurd (errorCode_complete ..) h0

/-! ## The configuration gate (R145) -/

/-- The gate is the first check of the commands that need a configured engine. -/
theorem exists_checksOf_eq_gate_cons {i : Instr} (s : State) (h : needsConfiguration i = true) :
    ∃ cs, checksOf i s = configuredCheck s :: cs := by
  cases i
  case fwd | inv | invXR | invXI | invXRXI | spec | bandf | metric => exact ⟨_, rfl⟩
  all_goals cases h

theorem code_ne_notConfigured {i : Instr} {s : State} (h : needsConfiguration i = false) :
    ∀ c ∈ checksOf i s, c.2.code ≠ 9 := by
  cases i
  case fwd | inv | invXR | invXI | invXRXI | spec | bandf | metric => cases h
  all_goals
    simp [checksOf, cfgChecks, invertChecks, intlvChecks, deintlvChecks, mixChecks, rmsChecks, peakdetChecks, rangeCheck,
      CmdError.code]

/-- Settles O10: the gate is the first check of the transform commands, and no other command has it. -/
theorem notConfiguredGate : Obligations.NotConfiguredGate := by
  refine ⟨fun i s hi hc => ?_, fun i s t hi h => ?_⟩
  · obtain ⟨cs, hcs⟩ := exists_checksOf_eq_gate_cons s hi
    exact exec_error (e := .notConfigured) (by simp [hcs, configuredCheck, hc])
  · rcases exec_next h with ⟨e, he, rfl⟩ | ⟨u, -, -, rfl⟩
    · rw [errorCode_raise]
      exact code_ne_notConfigured hi _ (mem_of_firstError he)
    · rw [errorCode_complete]
      decide

/-- Settles O11: neither command has a check, and NOP has no effect. -/
theorem nopAndRstpkComplete : Obligations.NopAndRstpkComplete :=
  fun _ => ⟨exec_ok (i := .nop) rfl rfl, exec_ok (i := .rstpk) rfl rfl⟩

/-! ## The engine's turn and the issue (R140, R141, R262) -/

/-- With no input left a latched command takes its turn, whether or not an access is held. -/
theorem step_exhausted {s : State} {l : Latch} (hr : s.running = some l) (hi : s.inputs = []) : step s = engineTurn l s := by
  cases s
  dsimp only at hr hi
  subst hr hi
  rename_i held reads draws
  cases held <;> rfl

/-- The eight lanes of an opcode-table word are decoded as the word. -/
theorem decodeWord_of_decodeTableWord {nbits w : Nat} {i : Instr} (h : decodeTableWord nbits w = some i) :
    decodeWord (tableWord nbits w) = .ok i := by
  obtain ⟨hword, hlen, -⟩ := byteLanesAreLittleEndian (tableWord nbits w)
  rw [decodeTableWord, decodeBytes, if_neg (by omega), List.take_of_length_le (by omega), hword] at h
  rcases hd : decodeWord (tableWord nbits w) with e | j
  · rw [hd] at h; cases h
  · rw [hd] at h; cases h; rfl

/-- Settles O4: each clause is one row of the step, and a turn with a legal word latched is `exec`. -/
theorem stepRunsLatchedCommand : Obligations.StepRunsLatchedCommand := by
  refine ⟨fun s l i hr hd => ⟨fun rest hi => ?_, fun hi => ?_, fun a b rest hh hi => ?_⟩, fun s nbits w i hd => ?_⟩
  · rw [step_engine hr hi, engineTurn_ok hd]
  · rw [step_exhausted hr hi, engineTurn_ok hd]
  · rw [step_behind_held hh hr hi, engineTurn_ok hd]
  · have hd' := decodeWord_of_decodeTableWord hd
    rw [step_engine (s := s.withFetchWord nbits w) (issueNext_running s _) (issueNext_inputs s _), engineTurn_ok hd']
    rfl

/-- Settles O53: a CMD write is an issue exactly while no command is latched. -/
theorem cmdWriteIssuesOrOverruns : Obligations.CmdWriteIssuesOrOverruns := by
  refine fun s w => ⟨fun hr => performAccess_writeReg (r := .cmd) ?_, fun hr => performAccess_writeReg (r := .cmd) ?_⟩
  · simp [State.writeReg, State.writeCmd, State.busy, State.issue, hr]
  · simp [State.writeReg, State.writeCmd, State.busy, hr]

end Sys2Proof.Machine
end

section
/-! PROOFS. CFG (R146): its checks, what it constructs, and that BITREV is the bit reversal (R147, R149). -/

namespace Sys2Proof.F64

theorem isNaN_ofNat (n : Nat) : isNaN (ofNat n) = false := isNaN_round _ _ _

end Sys2Proof.F64

namespace Sys2Proof.Machine

open Sys2Proof.Claims

/-! ## CFG's checks -/

/-- CFG's first check fails exactly for what is not a power of two. -/
theorem sizeCheck_iff (w : Word) : (w = 0 ∨ w &&& (w - 1) ≠ 0) ↔ ¬∃ k : Nat, w.toNat = 2 ^ k := by
  rw [iff_not_comm]
  push Not
  constructor
  · rintro ⟨k, hk⟩
    have hpos := Nat.two_pow_pos k
    have hsub : (w - 1).toNat = w.toNat - 1 := by bv_omega
    refine ⟨fun h0 => ?_, BitVec.eq_of_toNat_eq ?_⟩
    · rw [h0] at hk
      exact hpos.ne hk
    · rw [BitVec.toNat_and, hsub]
      exact (Nat.and_sub_one_eq_zero_iff_isPowerOfTwo (by omega)).mpr ⟨k, hk⟩
  · exact fun ⟨h0, hand⟩ => ⟨_, toNat_eq_two_pow h0 hand⟩

/-- CFG's third check passes exactly for a rate that is finite and above zero. -/
theorem rateCheck_iff (x : F64) : (F64.gt x F64.zeroPos && !F64.eq x (F64.inf false)) = true ↔ validRate x := by
  rw [Bool.and_eq_true, Bool.not_eq_true']
  refine ⟨fun ⟨hg, he⟩ => F64.validRate_of_gt hg he, fun ⟨hf, hs, hz⟩ => ?_⟩
  have hn := F64.isNaN_of_isFinite hf
  rw [F64.gt_iff hn (by decide), F64.eq_iff hn (F64.isNaN_inf _), decide_eq_true_iff, decide_eq_false_iff_not, F64.key_inf,
    show F64.key F64.zeroPos = 0 by decide, F64.key, if_neg (by simp [hs])]
  rw [F64.isFinite_iff] at hf
  rw [F64.isZero_eq_false_iff] at hz
  simp only [Bool.false_eq_true, if_false]
  omega

/-- Settles O13: the three checks in turn. -/
theorem cfgRejectsInOrder : Obligations.CfgRejectsInOrder := by
  intro s
  refine ⟨fun h => exec_error (e := .sizeNotPowerOfTwo) ?_, fun k hk hmax => exec_error (e := .sizeTooLarge) ?_,
    fun k hk hmax hrate => exec_error (e := .sampleRate) ?_⟩
  · have hsize := (sizeCheck_iff _).mpr h
    simp only [checksOf, cfgChecks, hsize, decide_true, firstError_cons_true]
  · have hsize := mt (sizeCheck_iff _).mp (not_not_intro ⟨k, hk⟩)
    rw [← hk] at hmax
    simp only [checksOf, cfgChecks, hsize, hmax, decide_true, decide_false, firstError_cons_true, firstError_cons_false]
  · have hsize := mt (sizeCheck_iff _).mp (not_not_intro ⟨k, hk⟩)
    have hbad : ¬validRate s.operands.f0 := by
      rintro ⟨hf, hs, hz⟩
      rw [F64.isNaN_of_isFinite hf, F64.isInf_of_isFinite hf, hs, hz] at hrate
      simp at hrate
    have hcheck := Bool.eq_false_iff.mpr (mt (rateCheck_iff _).mp hbad)
    rw [← hk, ← not_lt] at hmax
    simp only [checksOf, cfgChecks, hsize, hmax, hcheck, decide_false, Bool.not_false, firstError_cons_true,
      firstError_cons_false]

/-! ## What CFG constructs -/

/-- CFG of a valid size and rate passes its checks. -/
theorem cfgChecks_pass {s : State} {k : Nat} (hk : s.operands.a0.toNat = 2 ^ k) (hmax : 2 ^ k ≤ s.params.nmax)
    (hrate : validRate s.operands.f0) : firstError (cfgChecks s) = none := by
  have hsize := mt (sizeCheck_iff _).mp (not_not_intro ⟨k, hk⟩)
  have hcheck := (rateCheck_iff _).mpr hrate
  rw [← hk, ← not_lt] at hmax
  simp only [cfgChecks, hsize, hmax, hcheck, decide_false, Bool.not_true, firstError_cons_false, firstError_nil]

/-- No step of the bandwidth's formula is a NaN, whatever the size, so it depends on no draw (R148). -/
theorem bandwidth_of_any_draws (d d1 d2 d3 n : Nat) {rate : F64} (hr : validRate rate) :
    bandwidthOf d n rate = F64.div d1 (F64.mul d2 (F64.div d3 F64.two (F64.ofNat n)) rate) F64.two := by
  obtain ⟨hf, -, hz⟩ := hr
  have hq : F64.isNaN (F64.div d3 F64.two (F64.ofNat n)) = false := by
    rw [Bool.eq_false_iff, Ne, (F64.nanExactly_div d3 _ _).1, show F64.isNaN F64.two = false by decide,
      show F64.isZero F64.two = false by decide, show F64.isInf F64.two = false by decide, F64.isNaN_ofNat]
    simp
  have hm := F64.isNaN_mul_eq_false d2 hq hf hz
  have hb := F64.isNaN_div_eq_false d1 hm (show F64.isFinite F64.two = true by decide)
    (show F64.isZero F64.two = false by decide)
  rw [bandwidthOf, F64.div_draw hq d, F64.mul_draw hm (d + 1), F64.div_draw hb (d + 2)]

theorem read_writeRange_replicate (m : Memory) (n : Nat) (v : Word) (i : Nat) :
    (m.writeRange 0 (List.replicate n v)).read i = if i < n then some v else m.read i := by
  rw [read_writeRange]
  simp only [List.length_replicate, zero_add, Nat.zero_le, true_and, Nat.sub_zero]
  split
  · next h => rw [List.getElem?_replicate, if_pos h]
  · rfl

/-- From N on BITREV's entries are zeros (R147). -/
theorem bitrevEntries_getElem?_of_le {k nmax i : Nat} (hk : 2 ^ k ≤ i) (hi : i < nmax) :
    (bitrevEntries (2 ^ k) nmax)[i]? = some 0 := by
  have hlen : ((bitrevTable (2 ^ k)).map (BitVec.ofNat 64)).length = 2 ^ k := by
    rw [List.length_map, (bitrevTable_shape k).1]
  rw [bitrevEntries, List.getElem?_append_right (by omega), List.getElem?_replicate, if_pos (by omega)]

/-- Settles O12: the checks pass, and each bank is read after its write. -/
theorem cfgConstructs : Obligations.CfgConstructs := by
  intro s k hk hmax hrate
  have hlen := bitrevEntries_length hmax
  have hexec := exec_ok (i := .cfg) (cfgChecks_pass hk hmax hrate) rfl
  rw [hk, Nat.log2_two_pow] at hexec
  refine ⟨_, _, _, _, _, _, hexec, fun d1 d2 d3 => bandwidth_of_any_draws _ d1 d2 d3 _ hrate, fun i hi => ?_, fun i hi => ?_,
    fun i hki hi => ?_, fun i hi => ?_, fun i hi => ?_⟩
  · rw [read_writeRange_replicate, read_writeRange_replicate, if_pos hi, if_pos hi]
    exact ⟨rfl, rfl⟩
  · rw [read_writeRange_replicate, if_pos hi]
    rfl
  · rw [read_writeRange, if_pos (by omega)]
    exact bitrevEntries_getElem?_of_le hki hi
  · rw [read_writeRange_replicate, read_writeRange_replicate, if_neg (by omega), if_neg (by omega)]
    exact ⟨rfl, rfl, read_writeRange_outside (by omega)⟩
  · rw [read_writeRange_replicate, if_neg (by omega)]

/-! ## Bit reversal -/

/-- The number whose `k` low bits are those of `i` in reverse order (R149). -/
def bitReverse (k i : Nat) : Nat := (BitVec.ofNat k i).reverse.toNat

theorem bitReverse_lt (k i : Nat) : bitReverse k i < 2 ^ k := BitVec.isLt _

theorem testBit_bitReverse (k i b : Nat) : (bitReverse k i).testBit b = (decide (b < k) && i.testBit (k - 1 - b)) := by
  rw [bitReverse, BitVec.testBit_toNat, BitVec.getLsbD_reverse, BitVec.getMsbD_eq_getLsbD, BitVec.getLsbD_ofNat]
  by_cases hb : b < k
  · simp [hb, show k - 1 - b < k by omega]
  · simp [hb]

@[simp] theorem bitReverse_bitReverse {k i : Nat} (hi : i < 2 ^ k) : bitReverse k (bitReverse k i) = i := by
  rw [bitReverse, bitReverse, BitVec.ofNat_toNat, BitVec.setWidth_eq, BitVec.reverse_reverse_eq, BitVec.toNat_ofNat,
    Nat.mod_eq_of_lt hi]

/-- A power of two is added without a carry to a number with no bit at or below it. -/
theorem add_two_pow_eq_or {x e : Nat} (h : ∀ b ≤ e, x.testBit b = false) : x + 2 ^ e = x ||| 2 ^ e := by
  have hmod : x % 2 ^ (e + 1) = 0 := Nat.eq_of_testBit_eq fun b => by
    rw [Nat.testBit_mod_two_pow, Nat.zero_testBit]
    by_cases hb : b ≤ e
    · rw [h b hb, Bool.and_false]
    · rw [decide_eq_false (by omega), Bool.false_and]
  obtain ⟨q, rfl⟩ := Nat.dvd_of_mod_eq_zero hmod
  exact Nat.two_pow_add_eq_or_of_lt (Nat.pow_lt_pow_right (by decide) (Nat.lt_succ_self e)) q

/-- Reversing `k` bits takes bit `t` to bit `k - 1 - t`. -/
theorem bitReverse_two_pow_add {k t i : Nat} (ht : t < k) (hi : i < 2 ^ t) :
    bitReverse k (2 ^ t + i) = bitReverse k i + 2 ^ (k - 1 - t) := by
  have hhigh {j : Nat} (hj : t ≤ j) : i.testBit j = false :=
    Nat.testBit_lt_two_pow (lt_of_lt_of_le hi (Nat.pow_le_pow_right (by decide) hj))
  rw [add_two_pow_eq_or fun b hb => by rw [testBit_bitReverse, hhigh (by omega), Bool.and_false]]
  have hor : 2 ^ t + i = 2 ^ t ||| i := by simpa using Nat.two_pow_add_eq_or_of_lt hi 1
  refine Nat.eq_of_testBit_eq fun b => ?_
  simp only [testBit_bitReverse, hor, Nat.testBit_or, Nat.testBit_two_pow]
  by_cases hb : b < k
  · simp only [hb, decide_true, Bool.true_and, Bool.or_comm, show (t = k - 1 - b) = (k - 1 - t = b) by rw [eq_iff_iff]; omega]
  · simp only [hb, decide_false, Bool.false_and, Bool.false_or, show ¬k - 1 - t = b by omega]

/-- One doubling stage of R147 extends the table of reversed indices by one bit. -/
theorem bitrevStages_bitReverse (k fuel t : Nat) (ht : t ≤ k) (hf : k ≤ fuel + t) :
    bitrevStages fuel (2 ^ k) (2 ^ t) t ((List.range (2 ^ t)).map (bitReverse k)) =
      (List.range (2 ^ k)).map (bitReverse k) := by
  induction fuel generalizing t with
  | zero => rw [bitrevStages, show t = k by omega]
  | succ fuel ih =>
    rcases ht.eq_or_lt with rfl | hlt
    · rw [bitrevStages, if_neg (lt_irrefl _)]
    · have hshift : (2 ^ k / 2) >>> t = 2 ^ (k - 1 - t) := by
        rw [Nat.shiftRight_eq_div_pow, Nat.div_div_eq_div_mul, ← pow_succ', Nat.pow_div hlt (by decide), Nat.sub_sub,
          Nat.add_comm]
      have hdouble : (List.range (2 ^ t)).map (bitReverse k) ++
          ((List.range (2 ^ t)).map (bitReverse k)).map (fun x => x + (2 ^ k / 2) >>> t) =
            (List.range (2 ^ (t + 1))).map (bitReverse k) := by
        rw [pow_succ, mul_two, List.range_add, List.map_append, List.map_map, List.map_map, hshift]
        congr 1
        refine List.map_congr_left fun i hi => ?_
        exact (bitReverse_two_pow_add hlt (List.mem_range.mp hi)).symm
      rw [bitrevStages, if_pos (Nat.pow_lt_pow_right (by decide) hlt), hdouble, ← pow_succ']
      exact ih (t + 1) hlt (by omega)

/-- BuildBitRev writes the reversed indices (R149). -/
theorem bitrevTable_eq (k : Nat) : bitrevTable (2 ^ k) = (List.range (2 ^ k)).map (bitReverse k) := by
  have h0 : bitReverse k 0 = 0 := Nat.eq_of_testBit_eq fun b => by simp [testBit_bitReverse]
  have := bitrevStages_bitReverse k (2 ^ k) 0 (Nat.zero_le k) Nat.lt_two_pow_self.le
  rwa [pow_zero, List.range_one, List.map_singleton, h0] at this

theorem bitrevEntries_getElem? {k nmax i : Nat} (hi : i < 2 ^ k) :
    (bitrevEntries (2 ^ k) nmax)[i]? = some (BitVec.ofNat 64 (bitReverse k i)) := by
  rw [bitrevEntries, bitrevTable_eq, List.getElem?_append_left (by simpa using hi)]
  simp [hi]

/-- What a successful CFG leaves in N, LOG2N and the live entries of BITREV. -/
theorem cfg_bitrev {s t : State} (h : exec .cfg s = .next t) (h0 : errorCode t = 0) :
    t.n.toNat = 2 ^ t.log2n.toNat ∧
      ∀ i < t.n.toNat, t.bitrev.read i = some (BitVec.ofNat 64 (bitReverse t.log2n.toNat i)) := by
  obtain ⟨u, hc, hu, rfl⟩ := exec_next_of_errorCode_zero h h0
  obtain ⟨hpow, hle, -⟩ := cfgChecks_passed hc
  cases hu
  have hlog : (BitVec.ofNat 64 s.operands.a0.toNat.log2).toNat = s.operands.a0.toNat.log2 :=
    Nat.mod_eq_of_lt (lt_of_le_of_lt (Nat.log2_le_self _) s.operands.a0.isLt)
  simp only [complete_n, complete_log2n, complete_bitrev, hlog]
  generalize s.operands.a0.toNat.log2 = k at hpow
  rw [hpow] at hle ⊢
  refine ⟨rfl, fun i hi => ?_⟩
  rw [read_writeRange, if_pos (by rw [bitrevEntries_length hle]; omega)]
  exact bitrevEntries_getElem? hi

/-- Settles O14: the table is the reversal of LOG2N bits, which undoes itself. -/
theorem bitReversalAfterCfg : Obligations.BitReversalAfterCfg := by
  intro s t h h0
  obtain ⟨hn, hread⟩ := cfg_bitrev h h0
  have hmax := t.n.isLt
  rw [hn] at hread hmax ⊢
  generalize t.log2n.toNat = k at hread hmax ⊢
  have hword {j : Nat} (hj : j < 2 ^ k) : (BitVec.ofNat 64 j).toNat = j := Nat.mod_eq_of_lt (hj.trans hmax)
  have hrev (i : Nat) := bitReverse_lt k i
  refine ⟨rfl, fun i hi => ⟨_, hread i hi, ?_, fun b hb => ?_, ?_⟩, fun j hj => ⟨bitReverse k j, hrev j, ?_, fun i hi hij => ?_⟩⟩
  · rw [hword (hrev i)]
    exact hrev i
  · rw [hword (hrev i), testBit_bitReverse, decide_eq_true hb, Bool.true_and]
  · rw [hword (hrev i), hread _ (hrev i), bitReverse_bitReverse hi]
  · rw [hread _ (hrev j), bitReverse_bitReverse hj]
  · have hjv := congrArg BitVec.toNat (Option.some.inj ((hread i hi).symm.trans hij))
    rw [hword (hrev i), hword hj] at hjv
    rw [← hjv, bitReverse_bitReverse hi]

end Sys2Proof.Machine
end

section
/-! PROOFS. The checks of FWD, INV, BANDF and METRIC after the gate (R152, R155, R168, R172), and what BANDF and METRIC compute. -/

namespace Sys2Proof.Machine

open Sys2Proof.Claims

/-! ## Checks after the gate -/

/-- The four INV words are one command with two flags (R119, R155). -/
theorem inv_of_invFlags {i : Instr} {xr xi : Bool} (h : invFlags i = some (xr, xi)) (s : State) :
    checksOf i s = invChecks xr xi s ∧ effectOf i s = invEffect xr xi s ∧ opcodeByte (encode i) = 0x03 := by
  cases i
  case inv | invXR | invXI | invXRXI => cases h; exact ⟨rfl, rfl, rfl⟩
  all_goals cases h

theorem exec_inv_error {i : Instr} {xr xi : Bool} {s : State} {e : CmdError} (h : invFlags i = some (xr, xi))
    (he : firstError (invChecks xr xi s) = some e) : exec i s = .next (errorCompletion 0x03 e.code e.detail s) := by
  obtain ⟨hchecks, -, hop⟩ := inv_of_invFlags h s
  rw [← hop]
  exact exec_error (hchecks ▸ he)

theorem firstError_gate_cons {s : State} (hc : s.flags.configured = true) (cs : List (Bool × CmdError)) :
    firstError (configuredCheck s :: cs) = firstError cs := by
  simp [configuredCheck, hc]

theorem firstError_rangeCheck_cons (p : Params) (r : BaseReg) (base : Word) (len : Nat) (cs : List (Bool × CmdError)) :
    firstError (rangeCheck p r base len :: cs) =
      if p.dmemWords < base.toNat + len then some (.addressRange r) else firstError cs := by
  simp [rangeCheck, inRange, firstError_cons]

/-- INV's checks after the gate as conditions, in order (R155). -/
theorem firstError_invChecks {s : State} (hc : s.flags.configured = true) (xr xi : Bool) :
    firstError (invChecks xr xi s) =
      if xr = true ∧ s.operands.a1 ≠ s.n then some .inverseRealLength
      else if xi = true ∧ s.operands.a3 ≠ s.n then some .inverseImagLength
      else if xr = true ∧ s.params.dmemWords < s.operands.a0.toNat + s.n.toNat then some (.addressRange .a0)
      else if xi = true ∧ s.params.dmemWords < s.operands.a2.toNat + s.n.toNat then some (.addressRange .a2)
      else if s.params.dmemWords < s.operands.a4.toNat + s.n.toNat then some (.addressRange .a4)
      else none := by
  rw [invChecks, firstError_gate_cons hc]
  simp [firstError_cons, firstError_rangeCheck_cons, inRange]

/-- FWD's checks after the gate as conditions, in order (R152). -/
theorem firstError_fwdChecks {s : State} (hc : s.flags.configured = true) :
    firstError (fwdChecks s) =
      if s.operands.a1 ≠ s.n then some .forwardLength
      else if s.params.dmemWords < s.operands.a0.toNat + s.operands.a1.toNat then some (.addressRange .a0)
      else none := by
  rw [fwdChecks, firstError_gate_cons hc]
  simp [firstError_cons, firstError_rangeCheck_cons]

theorem firstError_bandfChecks {s : State} (hc : s.flags.configured = true) :
    firstError (bandfChecks s) = if s.n.toNat / 2 ≤ s.operands.a0.toNat then some .bandIndex else none := by
  rw [bandfChecks, firstError_gate_cons hc, firstError_cons]
  exact if_congr decide_eq_true_iff rfl rfl

theorem firstError_metricChecks {s : State} (hc : s.flags.configured = true) :
    firstError (metricChecks s) = if s.n.toNat / 2 ≤ s.operands.a0.toNat then some .metricOffset else none := by
  rw [metricChecks, firstError_gate_cons hc, firstError_cons]
  exact if_congr decide_eq_true_iff rfl rfl

/-- Settles O20: the first condition that fails in each list. -/
theorem transformChecksInOrder : Obligations.TransformChecksInOrder := by
  intro s hc o n outside
  refine ⟨fun hlen => exec_error (e := .forwardLength) ?_, fun hlen hout => exec_error (e := .addressRange .a0) ?_,
    fun i xr xi hi => ?_, fun hband => ⟨exec_error (e := .bandIndex) ?_, exec_error (e := .metricOffset) ?_⟩⟩
  · exact (firstError_fwdChecks hc).trans (if_pos hlen)
  · refine (firstError_fwdChecks hc).trans ?_
    rw [if_neg (not_not_intro hlen), if_pos (hlen ▸ hout)]
  · have hchecks := firstError_invChecks hc xr xi
    refine ⟨fun hxr hlen => exec_inv_error (e := .inverseRealLength) hi ?_,
      fun hre hxi hlen => exec_inv_error (e := .inverseImagLength) hi ?_,
      fun hre him hxr hout => exec_inv_error (e := .addressRange .a0) hi ?_,
      fun hre him hxi hout => exec_inv_error (e := .addressRange .a2) hi ?_,
      fun hre him hout => exec_inv_error (e := .addressRange .a4) hi ?_⟩
    · rw [hchecks, if_pos ⟨hxr, hlen⟩]
    · rw [hchecks, if_neg fun h => h.2 (hre h.1), if_pos ⟨hxi, hlen⟩]
    · rw [hchecks, if_neg fun h => h.2 (hre h.1), if_neg fun h => h.2 (him h.1), if_pos ⟨hxr, hout⟩]
    · rw [hchecks, if_neg fun h => h.2 (hre h.1).1, if_neg fun h => h.2 (him h.1), if_neg fun h => (hre h.1).2 h.2,
        if_pos ⟨hxi, hout⟩]
    · rw [hchecks, if_neg fun h => h.2 (hre h.1).1, if_neg fun h => h.2 (him h.1).1, if_neg fun h => (hre h.1).2 h.2,
        if_neg fun h => (him h.1).2 h.2, if_pos hout]
  · exact (firstError_bandfChecks hc).trans (if_pos hband)
  · exact (firstError_metricChecks hc).trans (if_pos hband)

/-! ## BANDF and METRIC -/

/-- Settles O18: the check passes, and the effect is the formula. -/
theorem bandfGivesCentreFrequency : Obligations.BandfGivesCentreFrequency := fun s hc hband =>
  ⟨s.draws + 2, s.draws, s.draws + 1, s.draws + 3,
    exec_ok (i := .bandf) ((firstError_bandfChecks hc).trans (if_neg (not_le.mpr hband))) rfl⟩

/-- The model's sum is R172's, with the draws it takes. -/
theorem sumOfSquares_sumSquaresFrom (d : Nat) (t : F64) (xs : List F64) :
    F64.SumOfSquares t xs (sumSquaresFrom d t xs) := by
  induction xs generalizing d t with
  | nil => rfl
  | cons x xs ih => exact ⟨d, d + 1, ih _ _⟩

/-- Settles O19: the words from the offset are read, and the effect is the formula. -/
theorem metricMeasuresSpectrum : Obligations.MetricMeasuresSpectrum := by
  intro s hc hoffset hwritten
  obtain ⟨xs, hxs⟩ := readRange_of_written (b := .spectrum) hwritten
  obtain ⟨hlen, hread⟩ := readRange_ok.mp hxs
  have hchecks := (firstError_metricChecks hc).trans (if_neg (not_le.mpr hoffset))
  exact ⟨xs, _, _, _, _, hlen, fun k hk => hread k (hlen ▸ hk), sumOfSquares_sumSquaresFrom s.draws _ xs,
    exec_ok (i := .metric) hchecks (bind_eq_ok.mpr ⟨xs, hxs, rfl⟩)⟩

end Sys2Proof.Machine
end

section
/-! PROOFS. The butterfly stages (R150, R151): how many there are, and that a stage applies one butterfly to each pair. -/

namespace Sys2Proof.Machine

/-! ## The sequence of stages -/

/-- From half-size `2^t` on the stages are those of `2^t`, ..., `2^(k-1)`. -/
theorem stagesFrom_two_pow (k fuel t : Nat) (ht : t ≤ k) (hf : k ≤ fuel + t) (w : Work) :
    stagesFrom fuel (2 ^ k) (2 ^ t) w = (List.range' t (k - t)).foldl (fun v t => stage (2 ^ k) (2 ^ t) v) w := by
  induction fuel generalizing t w with
  | zero => rw [stagesFrom, show k - t = 0 by omega, List.range'_zero, List.foldl_nil]
  | succ fuel ih =>
    rcases ht.eq_or_lt with rfl | hlt
    · rw [stagesFrom, if_neg (lt_irrefl _), Nat.sub_self, List.range'_zero, List.foldl_nil]
    · rw [stagesFrom, if_pos (Nat.pow_lt_pow_right (by decide) hlt), ← pow_succ', ih (t + 1) hlt (by omega),
        show k - t = k - (t + 1) + 1 by omega, List.range'_succ, List.foldl_cons]

/-- Settles O22: the half-sizes double from 1 while they are below `2^k`. -/
theorem stagesRunLog2N : Obligations.StagesRunLog2N := by
  intro k w
  have h := stagesFrom_two_pow k (2 ^ k) 0 (Nat.zero_le k) Nat.lt_two_pow_self.le w
  rwa [pow_zero, Nat.sub_zero, ← List.range_eq_range'] at h

/-! ## One butterfly -/

/-- Both arrays hold the same value at an index. -/
def Work.AgreesAt (v w : Work) (x : Nat) : Prop := v.re[x]? = w.re[x]? ∧ v.im[x]? = w.im[x]?

theorem Work.AgreesAt.trans {u v w : Work} {x : Nat} (h : u.AgreesAt v x) (h' : v.AgreesAt w x) : u.AgreesAt w x :=
  ⟨h.1.trans h'.1, h.2.trans h'.2⟩

/-- The pair at `i` and `i + h` of `v` is one butterfly with the phase `(cr, ci)` on that pair of `w` (R150), whatever NaNs are
drawn. -/
def IsButterfly (cr ci : F64) (h : Nat) (w v : Work) (i : Nat) : Prop :=
  ∀ ri ii ro io : F64, w.re[i]? = some ri → w.im[i]? = some ii → w.re[i + h]? = some ro → w.im[i + h]? = some io →
    ∃ (tr ti : F64) (d1 d2 d3 d4 d5 d6 e1 e2 e3 e4 : Nat),
      tr = F64.sub d1 (F64.mul d2 cr ro) (F64.mul d3 ci io) ∧ ti = F64.add d4 (F64.mul d5 cr io) (F64.mul d6 ci ro) ∧
      v.re[i + h]? = some (F64.sub e1 ri tr) ∧ v.im[i + h]? = some (F64.sub e2 ii ti) ∧
      v.re[i]? = some (F64.add e3 ri tr) ∧ v.im[i]? = some (F64.add e4 ii ti)

/-- A butterfly on a pair is one for arrays that agree on the pair, before and after. -/
theorem IsButterfly.congr {cr ci : F64} {h i : Nat} {w w' v v' : Work} (hb : IsButterfly cr ci h w' v' i)
    (hw : w'.AgreesAt w i) (hwh : w'.AgreesAt w (i + h)) (hv : v.AgreesAt v' i) (hvh : v.AgreesAt v' (i + h)) :
    IsButterfly cr ci h w v i := by
  unfold IsButterfly at hb ⊢
  rwa [hv.1, hv.2, hvh.1, hvh.2, ← hw.1, ← hw.2, ← hwh.1, ← hwh.2]

theorem butterfly_agreesAt {cr ci : F64} {h i x : Nat} (w : Work) (hi : x ≠ i) (hih : x ≠ i + h) :
    (butterfly cr ci h w i).AgreesAt w x := by
  unfold butterfly
  dsimp only
  split
  · simp [Work.AgreesAt, List.getElem?_set_ne hi.symm, List.getElem?_set_ne hih.symm]
  · exact ⟨rfl, rfl⟩

/-- What a butterfly's two updates of an array leave at its two indices. -/
theorem getElem?_set_pair {xs : List F64} {i j : Nat} (hne : i ≠ j) (hi : i < xs.length) (hj : j < xs.length) (a b : F64) :
    ((xs.set j a).set i b)[j]? = some a ∧ ((xs.set j a).set i b)[i]? = some b := by
  rw [List.getElem?_set_ne hne, List.getElem?_set_self hj, List.getElem?_set_self (by rwa [List.length_set])]
  exact ⟨rfl, rfl⟩

theorem butterfly_isButterfly {cr ci : F64} {h i : Nat} (hh : 0 < h) (w : Work) :
    IsButterfly cr ci h w (butterfly cr ci h w i) i := by
  intro ri ii ro io hri hii hro hio
  have hne : i ≠ i + h := by omega
  obtain ⟨hre, -⟩ := List.getElem?_eq_some_iff.mp hri
  obtain ⟨him, -⟩ := List.getElem?_eq_some_iff.mp hii
  obtain ⟨hreh, -⟩ := List.getElem?_eq_some_iff.mp hro
  obtain ⟨himh, -⟩ := List.getElem?_eq_some_iff.mp hio
  unfold butterfly
  simp only [hri, hii, hro, hio, getElem?_set_pair hne hre hreh, getElem?_set_pair hne him himh]
  exact ⟨_, _, _, _, _, _, _, _, _, _, _, _, rfl, rfl, rfl, rfl, rfl, rfl⟩

/-! ## The butterflies of one phase -/

/-- Butterflies on other pairs leave an index alone. -/
theorem foldl_butterfly_agreesAt {cr ci : F64} {h x : Nat} (is : List Nat) (w : Work)
    (hx : ∀ i ∈ is, x ≠ i ∧ x ≠ i + h) : (is.foldl (butterfly cr ci h) w).AgreesAt w x := by
  induction is generalizing w with
  | nil => exact ⟨rfl, rfl⟩
  | cons i is ih =>
    obtain ⟨⟨hi, hih⟩, hrest⟩ := List.forall_mem_cons.mp hx
    exact (ih _ hrest).trans (butterfly_agreesAt w hi hih)

/-- The pairs at `a` and `b` have no index in common. -/
def PairsApart (h a b : Nat) : Prop := a ≠ b ∧ a ≠ b + h ∧ a + h ≠ b

/-- Butterflies on pairs with no index in common: each pair gets its own, from the arrays before. -/
theorem foldl_butterfly_isButterfly {cr ci : F64} {h i : Nat} (hh : 0 < h) (is : List Nat)
    (hapart : is.Pairwise (PairsApart h)) (w : Work) (hi : i ∈ is) :
    IsButterfly cr ci h w (is.foldl (butterfly cr ci h) w) i := by
  induction is generalizing w with
  | nil => cases hi
  | cons a is ih =>
    obtain ⟨ha, hrest⟩ := List.pairwise_cons.mp hapart
    rw [List.foldl_cons]
    rcases List.mem_cons.mp hi with rfl | hi
    · refine (butterfly_isButterfly hh w).congr ⟨rfl, rfl⟩ ⟨rfl, rfl⟩ (foldl_butterfly_agreesAt is _ fun b hb => ?_)
        (foldl_butterfly_agreesAt is _ fun b hb => ?_)
      all_goals obtain ⟨hne, hneh, hhne⟩ := ha b hb
      · exact ⟨hne, hneh⟩
      · exact ⟨hhne, by omega⟩
    · obtain ⟨hne, hneh, hhne⟩ := ha i hi
      refine (ih hrest _ hi).congr ?_ ?_ ⟨rfl, rfl⟩ ⟨rfl, rfl⟩
      · exact butterfly_agreesAt w hne.symm hhne.symm
      · exact butterfly_agreesAt w hneh.symm (by omega)

theorem mem_butterflyIndices {n h j i : Nat} :
    i ∈ butterflyIndices n h j ↔ ∃ m < (n - j + 2 * h - 1) / (2 * h), j + 2 * h * m = i := by
  simp [butterflyIndices]

/-- The loop over `i` reaches every pair below `n` (R151). -/
theorem pair_mem_butterflyIndices {n h j m : Nat} (hj : j < h) (hm : m < n / (2 * h)) :
    j + 2 * h * m ∈ butterflyIndices n h j :=
  mem_butterflyIndices.mpr ⟨m, lt_of_lt_of_le hm (Nat.div_le_div_right (by omega)), rfl⟩

theorem butterflyIndices_apart {n h j : Nat} (hh : 0 < h) : (butterflyIndices n h j).Pairwise (PairsApart h) := by
  refine List.pairwise_map.mpr (List.pairwise_lt_range.imp fun {m m'} hlt => ?_)
  have hmul : 2 * h * m + 2 * h ≤ 2 * h * m' := by
    rw [← Nat.mul_succ]
    exact Nat.mul_le_mul_left _ hlt
  refine ⟨?_, ?_, ?_⟩ <;> omega

/-- Both indices of a pair of phase `j` are `j` modulo `h`. -/
theorem pair_mod {h j : Nat} (hj : j < h) (m : Nat) : (j + 2 * h * m) % h = j ∧ (j + 2 * h * m + h) % h = j := by
  rw [Nat.add_mod_right, Nat.mul_comm 2, Nat.mul_assoc, Nat.add_mul_mod_self_left, Nat.mod_eq_of_lt hj]
  exact ⟨rfl, rfl⟩

/-- The pass for `j` leaves every index of another phase alone. -/
theorem phaseStep_agreesAt {n h j x : Nat} {sr si : F64} (hj : j < h) (p : Phase) (hx : x % h ≠ j) :
    (phaseStep n h sr si p j).work.AgreesAt p.work x := by
  refine foldl_butterfly_agreesAt (butterflyIndices n h j) p.work fun i hi => ?_
  obtain ⟨m, -, rfl⟩ := mem_butterflyIndices.mp hi
  obtain ⟨hmod, hmodh⟩ := pair_mod hj m
  exact ⟨fun h => hx (h ▸ hmod), fun h => hx (h ▸ hmodh)⟩

theorem phaseStep_isButterfly {n h j m : Nat} {sr si : F64} (hj : j < h) (hm : m < n / (2 * h)) (p : Phase) :
    IsButterfly p.cr p.ci h p.work (phaseStep n h sr si p j).work (j + 2 * h * m) :=
  foldl_butterfly_isButterfly (by omega) _ (butterflyIndices_apart (by omega)) p.work (pair_mem_butterflyIndices hj hm)

/-! ## One stage -/

theorem foldl_phaseStep_agreesAt {n h x : Nat} {sr si : F64} (js : List Nat) (p : Phase)
    (hjs : ∀ j ∈ js, j < h ∧ x % h ≠ j) : (js.foldl (phaseStep n h sr si) p).work.AgreesAt p.work x := by
  induction js generalizing p with
  | nil => exact ⟨rfl, rfl⟩
  | cons j js ih =>
    obtain ⟨⟨hj, hx⟩, hrest⟩ := List.forall_mem_cons.mp hjs
    exact (ih _ hrest).trans (phaseStep_agreesAt hj p hx)

/-- The phase and the arrays of a stage before its pass for `j` (R150). -/
def phaseAt (n h : Nat) (w : Work) (j : Nat) : Phase :=
  (List.range j).foldl (phaseStep n h (Rom.twcos h) (Rom.twsin h)) { cr := F64.one, ci := F64.zeroPos, work := w }

theorem stage_eq_phaseAt (n h : Nat) (w : Work) : stage n h w = (phaseAt n h w h).work := rfl

theorem phaseAt_succ (n h : Nat) (w : Work) (j : Nat) :
    phaseAt n h w (j + 1) = phaseStep n h (Rom.twcos h) (Rom.twsin h) (phaseAt n h w j) j := by
  rw [phaseAt, List.range_succ, List.foldl_append]
  rfl

/-- No pass before the one for its own `j` touches an index. -/
theorem phaseAt_agreesAt {n h j x : Nat} (w : Work) (hj : j ≤ h) (hx : j ≤ x % h) : (phaseAt n h w j).work.AgreesAt w x :=
  foldl_phaseStep_agreesAt (List.range j) _ fun j' hj' => by have := List.mem_range.mp hj'; omega

/-- No pass after the one for its own `j` touches an index. -/
theorem stage_agreesAt_phaseAt {n h j x : Nat} (w : Work) (hj : j ≤ h) (hx : x % h < j) :
    (stage n h w).AgreesAt (phaseAt n h w j).work x := by
  obtain ⟨r, rfl⟩ := Nat.exists_eq_add_of_le hj
  rw [stage_eq_phaseAt, phaseAt, List.range_add, List.foldl_append]
  refine foldl_phaseStep_agreesAt _ _ fun j' hj' => ?_
  obtain ⟨q, hq, rfl⟩ := List.mem_map.mp hj'
  have := List.mem_range.mp hq
  omega

/-- Settles O21: the pass for `j` applies the butterfly, and no other pass touches the pair. -/
theorem stageIsOneButterflyPerPair : Obligations.StageIsOneButterflyPerPair := by
  intro t k w ht hre him n h v
  obtain ⟨hvre, hvim⟩ := stage_sized (n := n) (h := h) (show w.sized n from ⟨hre, him⟩)
  refine ⟨fun j => (phaseAt n h w j).cr, fun j => (phaseAt n h w j).ci, rfl, rfl, fun j _ => ?_, hvre, hvim,
    fun j hj m hm => ?_⟩
  · simp only [phaseAt_succ]
    exact ⟨_, _, _, _, _, _, rfl, rfl⟩
  · obtain ⟨hmod, hmodh⟩ := pair_mod hj m
    have hb := phaseStep_isButterfly (sr := Rom.twcos h) (si := Rom.twsin h) hj hm (phaseAt n h w j)
    rw [← phaseAt_succ] at hb
    exact hb.congr (phaseAt_agreesAt w hj.le hmod.ge) (phaseAt_agreesAt w hj.le hmodh.ge)
      (stage_agreesAt_phaseAt w hj (by omega)) (stage_agreesAt_phaseAt w hj (by omega))

end Sys2Proof.Machine
end

section
/-! PROOFS. CalcSpectrum (R159): the magnitudes it writes and the peak it keeps, and so what FWD and SPEC do to SPECTRUM, PEAK and
PEAK_BAND (R54, R55, R161). -/

namespace Sys2Proof.F64

open Sys2Proof.Machine

theorem gt_self (x : F64) : gt x x = false := by simp [gt]

theorem gt_eq_true_iff {x y : F64} : gt x y = true ↔ isNaN x = false ∧ isNaN y = false ∧ key y < key x := by
  rw [gt, Bool.and_eq_true, Bool.and_eq_true, Bool.not_eq_true', Bool.not_eq_true', decide_eq_true_iff, and_assoc]

theorem gt_trans {x y z : F64} (hxy : gt x y = true) (hyz : gt y z = true) : gt x z = true := by
  rw [gt_eq_true_iff] at hxy hyz ⊢
  obtain ⟨hx, -, hlt⟩ := hxy
  obtain ⟨-, hz, hlt'⟩ := hyz
  exact ⟨hx, hz, hlt'.trans hlt⟩

/-- What is not greater than `y` is a NaN or less than everything greater than `y`. -/
theorem isNaN_or_gt_of_not_gt {m x y : F64} (hm : gt m y = false) (hx : gt x y = true) :
    isNaN m = true ∨ gt x m = true := by
  rw [or_iff_not_imp_left, Bool.not_eq_true]
  intro hn
  obtain ⟨hnx, hny, hlt⟩ := gt_eq_true_iff.mp hx
  rw [gt_iff hn hny, decide_eq_false_iff_not] at hm
  exact gt_eq_true_iff.mpr ⟨hnx, hn, by omega⟩

theorem not_gt_of_isNaN_or_gt {m x : F64} (h : isNaN m = true ∨ gt x m = true) : gt m x = false := by
  rcases h with h | h
  · exact gt_eq_false_of_isNaN (.inl h)
  · obtain ⟨hnx, hnm, hlt⟩ := gt_eq_true_iff.mp h
    rw [gt_iff hnm hnx, decide_eq_false_iff_not]
    omega

/-- A value that is not negative and not greater than `+0.0` is `+0.0`. -/
theorem eq_zero_of_not_gt {m : F64} (hneg : nonNegativeOrNaN m) (hn : isNaN m = false)
    (hg : gt m 0x0000000000000000 = false) : m = 0x0000000000000000 := by
  have hs : sign m = false := hneg.resolve_left (by rw [hn]; decide)
  rw [gt_iff hn (by decide), decide_eq_false_iff_not, show key 0x0000000000000000 = 0 by decide, key,
    if_neg (by simp [hs])] at hg
  exact ext_sign_mag hs (show mag m = 0 by omega)

end Sys2Proof.F64

namespace Sys2Proof.Machine

open Sys2Proof.Claims

/-! ## The running peak -/

/-- `q` is the running peak after the magnitudes `ms` of the bins from `i` on, from the peak `p` (R159): none of them is greater, and
it is `p` itself or the first of the greatest. -/
def PeakAcc.After (p : PeakAcc) (i : Nat) (ms : List F64) (q : PeakAcc) : Prop :=
  (∀ m ∈ ms, F64.gt m q.peak = false) ∧
    ((q.peak = p.peak ∧ q.band = p.band) ∨
      (F64.gt q.peak p.peak = true ∧ ∃ k, ms[k]? = some q.peak ∧ q.band = BitVec.ofNat 64 (i + k) ∧
        ∀ m ∈ ms.take k, F64.isNaN m = true ∨ F64.gt q.peak m = true))

theorem PeakAcc.after_nil (p : PeakAcc) (i : Nat) : p.After i [] p := ⟨by simp, .inl ⟨rfl, rfl⟩⟩

theorem PeakAcc.after_cons {p q : PeakAcc} {i : Nat} {m : F64} {ms : List F64} (h : (p.raise i m).After (i + 1) ms q) :
    p.After i (m :: ms) q := by
  obtain ⟨hmax, hq⟩ := h
  cases hg : F64.gt m p.peak
  · simp only [PeakAcc.raise, hg, Bool.false_eq_true, if_false] at hq
    rcases hq with hsame | ⟨hgt, k, hk, hband, hlow⟩
    · exact ⟨List.forall_mem_cons.mpr ⟨hsame.1 ▸ hg, hmax⟩, .inl hsame⟩
    · have hm := F64.isNaN_or_gt_of_not_gt hg hgt
      refine ⟨List.forall_mem_cons.mpr ⟨F64.not_gt_of_isNaN_or_gt hm, hmax⟩,
        .inr ⟨hgt, k + 1, hk, by rw [hband, Nat.add_right_comm, Nat.add_assoc], ?_⟩⟩
      exact List.forall_mem_cons.mpr ⟨hm, hlow⟩
  · simp only [PeakAcc.raise, hg, if_true] at hq
    rcases hq with ⟨hpeak, hband⟩ | ⟨hgt, k, hk, hband, hlow⟩
    · rw [hpeak] at hmax
      refine ⟨?_, .inr ⟨hpeak ▸ hg, 0, by rw [hpeak]; rfl, hband, by simp⟩⟩
      rw [hpeak]
      exact List.forall_mem_cons.mpr ⟨F64.gt_self m, hmax⟩
    · refine ⟨List.forall_mem_cons.mpr ⟨F64.not_gt_of_isNaN_or_gt (.inr hgt), hmax⟩,
        .inr ⟨F64.gt_trans hgt hg, k + 1, hk, by rw [hband, Nat.add_right_comm, Nat.add_assoc], ?_⟩⟩
      exact List.forall_mem_cons.mpr ⟨.inr hgt, hlow⟩

theorem spectrumFrom_after (bsi : F64) (i : Nat) (re im : List F64) (p : PeakAcc) :
    p.After i (spectrumFrom bsi i re im p).1 (spectrumFrom bsi i re im p).2 := by
  induction re generalizing i im p with
  | nil => simpa using p.after_nil i
  | cons rv re ih =>
    cases im with
    | nil => simpa using p.after_nil i
    | cons iv im => exact PeakAcc.after_cons (ih _ _ _)

/-! ## CalcSpectrum -/

/-- The magnitudes that CalcSpectrum writes (R159). -/
def State.magnitudes (s : State) (re im : List F64) : List F64 :=
  (spectrumFrom (F64.div s.draws F64.two (F64.ofNat s.n.toNat)) 0 (re.take s.bins) (im.take s.bins)
    { peak := s.peak, band := s.peakBand, draw := s.draws + 1 }).1

@[simp] theorem calcSpectrum_spectrum (s : State) (re im : List F64) :
    (s.calcSpectrum re im).spectrum = s.spectrum.writeRange 0 (s.magnitudes re im) := rfl

theorem magnitudes_length {s : State} {re im : List F64} (hre : s.bins ≤ re.length) (him : s.bins ≤ im.length) :
    (s.magnitudes re im).length = s.bins := by
  rw [State.magnitudes, spectrumFrom_length, List.length_take_of_le hre, List.length_take_of_le him, min_self]

/-- The magnitude of each live bin is R159's formula. -/
theorem magnitudes_getElem {s : State} {re im : List F64} {k : Nat} {rv iv : F64} (hk : k < s.bins) (hre : re[k]? = some rv)
    (him : im[k]? = some iv) :
    (s.magnitudes re im)[k]? =
      some (magnitude (s.draws + 1 + 5 * k) (F64.div s.draws F64.two (F64.ofNat s.n.toNat)) rv iv) :=
  spectrumFrom_getElem _ _ _ _ _ k (by rwa [List.getElem?_take_of_lt hk]) (by rwa [List.getElem?_take_of_lt hk])

theorem exists_isMagnitude {s : State} {re im : List F64} {k : Nat} {rv iv : F64} (hk : k < s.bins) (hre : re[k]? = some rv)
    (him : im[k]? = some iv) : ∃ m, (s.magnitudes re im)[k]? = some m ∧ IsMagnitude s.n.toNat rv iv m :=
  ⟨_, magnitudes_getElem hk hre him, _, _, _, _, _, _, rfl⟩

/-- No magnitude is negative (R161). -/
theorem magnitudes_nonNegativeOrNaN {s : State} {re im : List F64} (hre : s.bins ≤ re.length) (him : s.bins ≤ im.length) :
    ∀ m ∈ s.magnitudes re im, nonNegativeOrNaN m := by
  intro m hm
  obtain ⟨k, hk, rfl⟩ := List.getElem_of_mem hm
  rw [magnitudes_length hre him] at hk
  have hg := magnitudes_getElem (re := re) (im := im) hk (List.getElem?_eq_getElem (by omega))
    (List.getElem?_eq_getElem (by omega))
  rw [(List.getElem?_eq_some_iff.mp hg).2]
  exact magnitude_nonNegativeOrNaN _ _ _ (F64.div_nonNegativeOrNaN _ (by decide) (F64.sign_ofNat _))

/-- SPECTRUM, PEAK and PEAK_BAND of `t` are those of `s` after CalcSpectrum with the magnitudes `ms` (R159, R161). -/
structure SpectrumUpdate (s t : State) (ms : List F64) : Prop where
  length : ms.length = s.n.toNat / 2
  read : ∀ k < s.n.toNat / 2, t.spectrum.read k = ms[k]?
  frame : ∀ k, s.n.toNat / 2 ≤ k → t.spectrum.read k = s.spectrum.read k
  nonNegative : ∀ m ∈ ms, nonNegativeOrNaN m
  peak : ∃ d d' : Nat, PeakAcc.After { peak := s.peak, band := s.peakBand, draw := d } 0 ms
    { peak := t.peak, band := t.peakBand, draw := d' }

theorem calcSpectrum_update {s : State} {re im : List F64} (hre : s.bins ≤ re.length) (him : s.bins ≤ im.length) :
    SpectrumUpdate s (s.calcSpectrum re im) (s.magnitudes re im) where
  length := magnitudes_length hre him
  read k hk := by
    rw [calcSpectrum_spectrum, read_writeRange, if_pos ⟨Nat.zero_le _, by rwa [magnitudes_length hre him, zero_add]⟩]
    rfl
  frame k hk := by
    rw [calcSpectrum_spectrum, read_writeRange_outside]
    rw [magnitudes_length hre him, zero_add]
    exact .inr hk
  nonNegative := magnitudes_nonNegativeOrNaN hre him
  peak := ⟨_, _, spectrumFrom_after _ _ _ _ _⟩

theorem SpectrumUpdate.complete {s t : State} {ms : List F64} (h : SpectrumUpdate s t ms) (op : Byte) :
    SpectrumUpdate s (t.complete op) ms :=
  ⟨h.length, h.read, h.frame, h.nonNegative, h.peak⟩

/-- REAL and IMAG below N replaced by the arrays that the stages leave (R152). -/
def State.withBanks (s : State) (w : Work) : State :=
  { s with
    real := s.real.writeRange 0 w.re
    imag := s.imag.writeRange 0 w.im
    draws := w.draw }

/-- FWD's last step: CalcSpectrum on what the stages leave. -/
theorem withBanks_update {s : State} {w : Work} (hw : w.sized s.n.toNat) :
    SpectrumUpdate s ((s.withBanks w).calcSpectrum w.re w.im) ((s.withBanks w).magnitudes w.re w.im) := by
  obtain ⟨hre, him⟩ := hw
  have hbins : s.bins ≤ s.n.toNat := Nat.div_le_self _ _
  obtain ⟨hlen, hread, hframe, hneg, hpeak⟩ :=
    calcSpectrum_update (s := s.withBanks w) (hbins.trans_eq hre.symm) (hbins.trans_eq him.symm)
  exact ⟨hlen, hread, hframe, hneg, hpeak⟩

/-- A successful FWD or SPEC updates SPECTRUM, PEAK and PEAK_BAND by CalcSpectrum. -/
theorem exists_spectrumUpdate {i : Instr} {s t : State} (hi : i = .fwd ∨ i = .spec) (h : exec i s = .next t)
    (h0 : errorCode t = 0) : ∃ ms, SpectrumUpdate s t ms := by
  obtain ⟨u, -, hu, rfl⟩ := exec_next_of_errorCode_zero h h0
  rcases hi with rfl | rfl
  · obtain ⟨x, table, re, -, ht, hg, rfl⟩ := fwdEffect_ok hu
    have hsized : Work.sized s.n.toNat { re := re, im := List.replicate s.n.toNat F64.zeroPos, draw := s.draws } :=
      ⟨(gather_length hg).trans (readRange_length ht), List.length_replicate ..⟩
    exact ⟨_, (withBanks_update (stages_sized (n := s.n.toNat) hsized)).complete _⟩
  · obtain ⟨re, im, hre, him, rfl⟩ := specEffect_ok hu
    exact ⟨_, (calcSpectrum_update (readRange_length hre).ge (readRange_length him).ge).complete _⟩

/-- Every live bin holds one of the magnitudes. -/
theorem SpectrumUpdate.exists_read {s t : State} {ms : List F64} (h : SpectrumUpdate s t ms) {k : Nat}
    (hk : k < s.n.toNat / 2) : ∃ m ∈ ms, t.spectrum.read k = some m := by
  have hlt : k < ms.length := h.length ▸ hk
  exact ⟨ms[k], List.getElem_mem hlt, by rw [h.read k hk, List.getElem?_eq_getElem hlt]⟩

/-- Settles O23: no magnitude is negative. -/
theorem spectrumNeverNegative : Obligations.SpectrumNeverNegative := by
  intro i s t hi h h0 k hk
  obtain ⟨ms, hup⟩ := exists_spectrumUpdate hi h h0
  obtain ⟨m, hm, hread⟩ := hup.exists_read hk
  exact ⟨m, hread, hup.nonNegative m hm⟩

/-- The peak of an update, as SPECTRUM shows it: the one before, or a greater one, the first of the greatest bins. -/
theorem SpectrumUpdate.peak_cases {s t : State} {ms : List F64} (h : SpectrumUpdate s t ms) :
    (t.peak = s.peak ∧ t.peakBand = s.peakBand) ∨
      (F64.gt t.peak s.peak = true ∧ t.peakBand.toNat < s.n.toNat / 2 ∧
        t.spectrum.read t.peakBand.toNat = some t.peak ∧
        ∀ k < t.peakBand.toNat, ∃ v : Word, t.spectrum.read k = some v ∧ (F64.isNaN v = true ∨ F64.gt t.peak v = true)) := by
  obtain ⟨d, d', -, hsame | ⟨hgt, k, hk, hband, hlow⟩⟩ := h.peak
  · exact .inl hsame
  · have hlen := h.length
    have hlt : k < ms.length := (List.getElem?_eq_some_iff.mp hk).1
    have hmax := s.n.isLt
    have hb : t.peakBand.toNat = k := by
      rw [show t.peakBand = _ from hband, zero_add, BitVec.toNat_ofNat, Nat.mod_eq_of_lt (by omega)]
    refine .inr ⟨hgt, by omega, ?_, fun j hj => ?_⟩
    · rw [hb, h.read k (by omega), hk]
    · rw [hb] at hj
      have hj' : j < ms.length := by omega
      refine ⟨ms[j], by rw [h.read j (by omega), List.getElem?_eq_getElem hj'], hlow _ ?_⟩
      exact List.mem_take_iff_getElem.mpr ⟨j, by omega, rfl⟩

/-- No live bin is greater than the peak after an update. -/
theorem SpectrumUpdate.not_gt_peak {s t : State} {ms : List F64} (h : SpectrumUpdate s t ms) :
    ∀ m ∈ ms, F64.gt m t.peak = false := by
  obtain ⟨d, d', hmax, -⟩ := h.peak
  exact hmax

/-- Settles O24: only CFG, FWD, SPEC and RSTPK write the peak, a failed command does not, and an update raises it or keeps it. -/
theorem peakOnlyRises : Obligations.PeakOnlyRises := by
  intro i s t hcfg hrstpk h
  by_cases hup : (i = .fwd ∨ i = .spec) ∧ errorCode t = 0
  · obtain ⟨ms, hms⟩ := exists_spectrumUpdate hup.1 h hup.2
    refine ⟨hms.peak_cases, fun _ _ k hk => ?_⟩
    obtain ⟨m, hm, hread⟩ := hms.exists_read hk
    exact ⟨m, hread, hms.not_gt_peak m hm⟩
  · refine ⟨.inl ?_, fun hi h0 => absurd ⟨hi, h0⟩ hup⟩
    rcases exec_next h with ⟨e, -, rfl⟩ | ⟨u, -, -, rfl⟩
    · exact ⟨rfl, rfl⟩
    · obtain ⟨-, -, -, -, hpeak, -⟩ := (exec_frame h).2
      refine hpeak ?_
      simp only [errorCode_complete, and_true, not_or] at hup
      simp [hcfg, hrstpk, hup]

/-- Settles O25: the peak rises from `+0.0`, or every magnitude is `+0.0` and bin 0 is the first of them. -/
theorem peakIsMaximumAfterReset : Obligations.PeakIsMaximumAfterReset := by
  intro i s t hi hpeak hband h h0 hn hnan
  obtain ⟨ms, hup⟩ := exists_spectrumUpdate hi h h0
  have hmax : ∀ k < s.n.toNat / 2, ∀ v : Word, t.spectrum.read k = some v → F64.gt v t.peak = false := by
    intro k hk v hv
    obtain ⟨m, hm, hread⟩ := hup.exists_read hk
    cases hread.symm.trans hv
    exact hup.not_gt_peak _ hm
  rcases hup.peak_cases with ⟨hp, hb⟩ | ⟨-, hlive, hread, hlow⟩
  · rw [hpeak] at hp
    rw [hband] at hb
    obtain ⟨m, hm, hread⟩ := hup.exists_read (k := 0) (by omega)
    have hm0 : m = 0x0000000000000000 :=
      F64.eq_zero_of_not_gt (hup.nonNegative m hm) (hnan 0 (by omega) m hread) (hp ▸ hup.not_gt_peak m hm)
    rw [hm0] at hread
    rw [hp, hb]
    exact ⟨hread, hp ▸ hmax, fun k hk => absurd hk (Nat.not_lt_zero k)⟩
  · refine ⟨hread, hmax, fun k hk v hv => ?_⟩
    obtain ⟨v', hv', hcmp⟩ := hlow k hk
    cases hv'.symm.trans hv
    exact hcmp.resolve_left (by rw [hnan k (hk.trans hlive) v hv]; decide)

end Sys2Proof.Machine
end

section
/-! PROOFS. What FWD, INV and SPEC compute on a configured block that meets the invariant (R152, R155, R159, R160). -/

namespace Sys2Proof.Machine

open Sys2Proof.Claims

/-! ## The inputs -/

/-- The gather through BITREV of as many values as N answers, and takes its `k`-th value from BITREV's `k`-th entry. -/
theorem exists_gather_bitrev {s : State} (h : s.Inv) (hc : s.flags.configured = true) :
    ∃ table, readRange .bitrev s.bitrev 0 s.n.toNat = .ok table ∧
      ∀ x : List F64, x.length = s.n.toNat → ∃ y, gather x 0 table = .ok y ∧ y.length = s.n.toNat ∧
        ∀ k < s.n.toNat, ∃ b : Word, s.bitrev.read k = some b ∧ b.toNat < s.n.toNat ∧ x[b.toNat]? = y[k]? := by
  obtain ⟨table, ht, hlt⟩ := readRange_bitrev h hc
  obtain ⟨htlen, htread⟩ := readRange_ok.mp ht
  refine ⟨table, ht, fun x hx => ?_⟩
  obtain ⟨y, hy⟩ := gather_of_bounded (i := 0) (x := x) fun t hm => hx ▸ hlt t hm
  obtain ⟨hylen, hyget⟩ := gather_ok.mp hy
  refine ⟨y, hy, hylen.trans htlen, fun k hk => ?_⟩
  have hk' : k < table.length := htlen ▸ hk
  have hentry := List.getElem?_eq_getElem hk'
  obtain ⟨hget, hbound⟩ := hyget k table[k] hentry
  exact ⟨table[k], by rw [← hentry, ← htread k hk, zero_add], hx ▸ hbound, hget⟩

/-- The words of a written bank of a configured block, up to N. -/
theorem exists_readRange_banks {s : State} (h : s.Inv) (hc : s.flags.configured = true) {n : Nat} (hn : n ≤ s.n.toNat) :
    (∃ re, readRange .real s.real 0 n = .ok re) ∧ ∃ im, readRange .imag s.imag 0 n = .ok im := by
  obtain ⟨-, hle, -, -, -, hbanks, -⟩ := context_of_configured h hc
  refine ⟨readRange_of_written fun k hk => ?_, readRange_of_written fun k hk => ?_⟩
  · exact (hbanks _ (by omega)).1
  · exact (hbanks _ (by omega)).2

/-! ## SPEC and FWD -/

/-- Settles O17: the banks are read, and CalcSpectrum writes their magnitudes. -/
theorem specRecomputesSpectrum : Obligations.SpecRecomputesSpectrum := by
  intro s h hc
  obtain ⟨⟨re, hre⟩, ⟨im, him⟩⟩ := exists_readRange_banks h hc (n := s.bins) (Nat.div_le_self _ _)
  obtain ⟨hrelen, hreread⟩ := readRange_ok.mp hre
  obtain ⟨himlen, himread⟩ := readRange_ok.mp him
  have hup := calcSpectrum_update hrelen.ge himlen.ge
  have heffect : specEffect s = .ok (s.calcSpectrum re im) :=
    bind_eq_ok.mpr ⟨re, hre, bind_eq_ok.mpr ⟨im, him, rfl⟩⟩
  refine ⟨_, _, _, _, exec_ok (i := .spec) (firstError_gate_cons hc []) heffect, fun k hk => ?_, hup.frame⟩
  have hrv := List.getElem?_eq_getElem (hk.trans_eq hrelen.symm)
  have hiv := List.getElem?_eq_getElem (hk.trans_eq himlen.symm)
  obtain ⟨m, hm, hmag⟩ := exists_isMagnitude hk hrv hiv
  refine ⟨_, _, m, ?_, ?_, (hup.read k hk).trans hm, hmag⟩
  · rw [← hrv, ← hreread k hk, zero_add]
  · rw [← hiv, ← himread k hk, zero_add]

theorem read_writeRange_start {m : Memory} {vs : List Word} {n : Nat} (hvs : vs.length = n) :
    (∀ k < n, (m.writeRange 0 vs).read k = vs[k]?) ∧ ∀ k, n ≤ k → (m.writeRange 0 vs).read k = m.read k := by
  refine ⟨fun k hk => ?_, fun k hk => read_writeRange_outside (by omega)⟩
  rw [read_writeRange, if_pos (by omega), Nat.sub_zero]

/-- Settles O15: the source is read and gathered, and REAL and IMAG take what the stages make of it. -/
theorem fwdTransforms : Obligations.FwdTransforms := by
  intro s h hc hlen hrange hwritten
  obtain ⟨src, hsrc⟩ := readRange_of_written (b := .dmem) hwritten
  obtain ⟨hsrclen, hsrcread⟩ := readRange_ok.mp hsrc
  obtain ⟨table, ht, hgather⟩ := exists_gather_bitrev h hc
  obtain ⟨x, hx, hxlen, hxget⟩ := hgather src hsrclen
  have hchecks : firstError (fwdChecks s) = none := by
    rw [firstError_fwdChecks hc, if_neg (not_not_intro hlen), hlen, if_neg (not_lt.mpr hrange)]
  have hexec := exec_ok (i := .fwd) hchecks
    (bind_eq_ok.mpr ⟨src, hsrc, bind_eq_ok.mpr ⟨table, ht, bind_eq_ok.mpr ⟨x, hx, rfl⟩⟩⟩)
  have hsized := stages_sized (n := s.n.toNat) (n' := s.n.toNat)
    (w := { re := x, im := List.replicate s.n.toNat F64.zeroPos, draw := s.draws }) ⟨hxlen, List.length_replicate ..⟩
  have hup := withBanks_update hsized
  obtain ⟨hre, him⟩ := hsized
  obtain ⟨hreal, hrealframe⟩ := read_writeRange_start (m := s.real) hre
  obtain ⟨himag, himagframe⟩ := read_writeRange_start (m := s.imag) him
  refine ⟨x, _, _, _, _, _, _, hxlen, hre, him, fun k hk => ?_, hexec, fun k hk => ⟨hreal k hk, himag k hk⟩,
    fun k hk => ⟨hrealframe k hk, himagframe k hk⟩, fun k hk => ?_, hup.frame⟩
  · obtain ⟨b, hb, hblt, hget⟩ := hxget k hk
    exact ⟨b, hb, (hsrcread b.toNat hblt).trans hget⟩
  · have hkn : k < s.n.toNat := lt_of_lt_of_le hk (Nat.div_le_self _ _)
    have hrv := List.getElem?_eq_getElem (hre.symm ▸ hkn)
    have hiv := List.getElem?_eq_getElem (him.symm ▸ hkn)
    obtain ⟨m, hm, hmag⟩ := exists_isMagnitude (s := s.withBanks _) hk hrv hiv
    exact ⟨_, _, m, (hreal k hkn).trans hrv, (himag k hkn).trans hiv, (hup.read k hk).trans hm, hmag⟩

/-! ## INV -/

/-- A range of words replaced by their images (R143, R155). -/
theorem read_writeRange_map {b : Bank} {m : Memory} {base n : Nat} {vs : List Word} (h : readRange b m base n = .ok vs)
    (f : Word → Word) (a : Nat) : (m.writeRange base (vs.map f)).read a =
      if base ≤ a ∧ a < base + n then (m.read a).map f else m.read a := by
  obtain ⟨hlen, hread⟩ := readRange_ok.mp h
  rw [read_writeRange, List.length_map, hlen]
  split
  · next hin =>
    rw [List.getElem?_map, ← hread (a - base) (by omega), Nat.add_sub_cancel' hin.1]
  · rfl

/-- INV's imaginary input word `k` (R155). -/
def State.imagIn (s : State) (xi : Bool) (k : Nat) : Option Word :=
  if xi then s.dmem.read (s.operands.a2.toNat + k) else s.imag.read k

/-- DMEM after INV has negated its imaginary input (R155). -/
def State.negatedDmem (s : State) (xi : Bool) (a : Nat) : Option Word :=
  if xi = true ∧ s.operands.a2.toNat ≤ a ∧ a < s.operands.a2.toNat + s.n.toNat then (s.dmem.read a).map F64.neg
  else s.dmem.read a

/-- INV's real input word `k`, read after the negation (R155). -/
def State.realIn (s : State) (xr xi : Bool) (k : Nat) : Option Word :=
  if xr then s.negatedDmem xi (s.operands.a0.toNat + k) else s.real.read k

theorem exists_invImagInput {s : State} {xi : Bool} (h : s.Inv) (hc : s.flags.configured = true)
    (hxi : xi = true → Written s.dmem s.operands.a2.toNat s.n.toNat) :
    ∃ im, invImagInput xi s = .ok im ∧ im.length = s.n.toNat ∧ ∀ k < s.n.toNat, s.imagIn xi k = im[k]? := by
  cases xi
  · obtain ⟨-, im, him⟩ := exists_readRange_banks h hc le_rfl
    obtain ⟨hlen, hread⟩ := readRange_ok.mp him
    exact ⟨im, him, hlen, fun k hk => by rw [← hread k hk, zero_add]; rfl⟩
  · obtain ⟨im, him⟩ := readRange_of_written (b := .dmem) (hxi rfl)
    exact ⟨im, him, readRange_ok.mp him⟩

/-- The negation changes the imaginary input, in DMEM or in IMAG, and nothing else of either. -/
theorem read_writeImagInput {s : State} {xi : Bool} {im : List Word} (h : invImagInput xi s = .ok im) :
    (∀ a, (s.writeImagInput xi (im.map F64.neg)).dmem.read a = s.negatedDmem xi a) ∧
      ∀ k, (s.writeImagInput xi (im.map F64.neg)).imag.read k =
        if xi = false ∧ k < s.n.toNat then (s.imag.read k).map F64.neg else s.imag.read k := by
  cases xi
  · refine ⟨fun a => by simp [State.negatedDmem], fun k => ?_⟩
    rw [writeImagInput_imag_bank, read_writeRange_map (b := .imag) h]
    simp
  · refine ⟨fun a => ?_, fun k => by simp⟩
    rw [writeImagInput_dmem_dmem, read_writeRange_map (b := .dmem) h, State.negatedDmem]
    simp

/-- The negation is an update of IMAG or DMEM. -/
theorem exists_writeImagInput_eq (s : State) (xi : Bool) (imv : List F64) :
    ∃ imag dmem : Memory, s.writeImagInput xi imv = { s with imag := imag, dmem := dmem } := by
  cases xi
  · exact ⟨_, _, rfl⟩
  · exact ⟨_, _, rfl⟩

theorem exists_invRealInput {s : State} {xr xi : Bool} {im : List Word} (h : s.Inv) (hc : s.flags.configured = true)
    (him : invImagInput xi s = .ok im) (hxr : xr = true → Written s.dmem s.operands.a0.toNat s.n.toNat) :
    ∃ re, invRealInput xr (s.writeImagInput xi (im.map F64.neg)) = .ok re ∧ re.length = s.n.toNat ∧
      ∀ k < s.n.toNat, s.realIn xr xi k = re[k]? := by
  obtain ⟨hdmem, -⟩ := read_writeImagInput him
  have hops : (s.writeImagInput xi (im.map F64.neg)).operands = s.operands := by simp [State.operands]
  cases xr
  · obtain ⟨⟨re, hre⟩, -⟩ := exists_readRange_banks h hc le_rfl
    obtain ⟨hlen, hread⟩ := readRange_ok.mp hre
    refine ⟨re, ?_, hlen, fun k hk => by rw [← hread k hk, zero_add]; rfl⟩
    simpa [invRealInput] using hre
  · have hwritten : ∀ k < s.n.toNat,
        ((s.writeImagInput xi (im.map F64.neg)).dmem.read (s.operands.a0.toNat + k)).isSome = true := by
      intro k hk
      rw [hdmem, State.negatedDmem]
      split
      · rw [Option.isSome_map]
        exact hxr rfl k hk
      · exact hxr rfl k hk
    obtain ⟨re, hre⟩ := readRange_of_written (b := .dmem) hwritten
    obtain ⟨hlen, hread⟩ := readRange_ok.mp hre
    refine ⟨re, ?_, hlen, fun k hk => by rw [← hread k hk, hdmem]; rfl⟩
    simpa [invRealInput, hops] using hre

/-- Settles O16: the inputs are read and gathered in the order of the rule, and the scaled output is written last. -/
theorem invTransforms : Obligations.InvTransforms := by
  intro i xr xi s hi h hc o n hxr hxi hout imIn negated reIn
  obtain ⟨hxrlen, hxrrange, hxrwritten⟩ := imp_and.mp hxr |>.imp_right imp_and.mp
  obtain ⟨hxilen, hxirange, hxiwritten⟩ := imp_and.mp hxi |>.imp_right imp_and.mp
  obtain ⟨im, him, himlen, himread⟩ := exists_invImagInput h hc hxiwritten
  obtain ⟨re, hre, hrelen, hreread⟩ := exists_invRealInput h hc him hxrwritten
  obtain ⟨hdmem, himag⟩ := read_writeImagInput him
  obtain ⟨table, ht, hgather⟩ := exists_gather_bitrev h hc
  obtain ⟨x, hx, hxlen, hxget⟩ := hgather re hrelen
  obtain ⟨y, hy, hylen, hyget⟩ := hgather (im.map F64.neg) (by rwa [List.length_map])
  obtain ⟨hwre, -⟩ := stages_sized (n := n) (n' := n) (w := { re := x, im := y, draw := s.draws }) ⟨hxlen, hylen⟩
  obtain ⟨hchecks, heffect, hop⟩ := inv_of_invFlags hi s
  have hpass : firstError (checksOf i s) = none := by
    rw [hchecks, firstError_invChecks hc, if_neg fun hx => hx.2 (hxrlen hx.1), if_neg fun hx => hx.2 (hxilen hx.1),
      if_neg fun hx => not_lt.mpr (hxrrange hx.1) hx.2, if_neg fun hx => not_lt.mpr (hxirange hx.1) hx.2,
      if_neg (not_lt.mpr hout)]
  have hexec := exec_ok hpass (heffect.trans ((invEffect_eq xr xi s).trans (bind_eq_ok.mpr ⟨im, him, bind_eq_ok.mpr ⟨re, hre,
    bind_eq_ok.mpr ⟨table, ht, bind_eq_ok.mpr ⟨x, hx, bind_eq_ok.mpr ⟨y, hy, rfl⟩⟩⟩⟩⟩)))
  obtain ⟨imag, dmem, hs1⟩ := exists_writeImagInput_eq s xi (im.map F64.neg)
  rw [hs1] at hdmem himag hexec
  rw [hop] at hexec
  refine ⟨x, y, _, _, _, hxlen, hylen, hwre, fun k hk => ?_, hexec, himag, fun k hk => ?_, fun a ha => ?_⟩
  · obtain ⟨b, hb, hblt, hbx⟩ := hxget k hk
    obtain ⟨b', hb', -, hby⟩ := hyget k hk
    cases hb.symm.trans hb'
    refine ⟨b, hb, (hreread _ hblt).trans hbx, ?_⟩
    rw [← hby, List.getElem?_map, ← himread _ hblt]
    rfl
  · have hv := List.getElem?_eq_getElem (hwre.symm ▸ hk)
    exact ⟨_, _, hv, (read_writeRange_inside (by rwa [scaleFrom_length, hwre])).trans (scaleFrom_getElem n _ _ k hv)⟩
  · exact (read_writeRange_outside (by rwa [scaleFrom_length, hwre])).trans (hdmem a)

end Sys2Proof.Machine
end

section
/-! PROOFS. Means of equal values (R210, R230), the arithmetic of zeros, and the test for a zero. -/

namespace Sys2Proof.F64

/-! ## The mean of a value and itself -/

/-- A finite value is the rounding of its own magnitude, taken in units `2^k` times as fine. -/
theorem round_units_finer {x : F64} (h : isFinite x = true) (k : Nat) : round (sign x) (units x * 2 ^ k) k = x := by
  obtain ⟨c, e, hc, he⟩ := exists_short_significand x
  have hb : roundBits (units x * 2 ^ k) k = mag x := by
    apply unitsOf_strictMono.injective
    have hexact := unitsOf_roundBits_of_short hc (Nat.le_add_left k e)
    rw [pow_add, ← mul_assoc, ← he] at hexact
    exact Nat.mul_right_cancel (Nat.two_pow_pos k) hexact
  refine ext_sign_mag (sign_round _ _ _) ?_
  rw [mag_round, hb, if_neg (not_le.mpr ((isFinite_iff x).mp h))]

theorem round_zero (s : Bool) (k : Nat) : round s 0 k = zero s := by
  have h := round_units_finer (x := zero s) (isFinite_of_isZero (by simp)) k
  rwa [sign_zero, units_eq, mag_zero, unitsOf_zero, zero_mul] at h

/-- A value added to itself is its doubled magnitude, rounded once. -/
theorem add_self (d : Nat) {a : F64} (h : isFinite a = true) : add d a a = round (sign a) (2 * units a) 0 := by
  have hv : value a + value a = if sign a then -((2 * units a : Nat) : Int) else (2 * units a : Nat) := by
    unfold value
    split <;> push_cast <;> ring
  rw [add_finite d h h, Bool.and_self, hv, Rom.nearest, natAbs_signed]
  rcases Nat.eq_zero_or_pos (2 * units a) with h0 | hpos
  · rw [h0, if_pos (by simp), round_zero]
  · rw [signed_neg_iff _ hpos, if_neg (by split <;> omega)]

/-- Below `2^1023` the doubled magnitude is finite. -/
theorem two_mul_units_lt {a : F64} (h : expBits a < 2046) : 2 * units a < unitsOf infMag := by
  obtain ⟨e, he⟩ : ∃ e, e = 2045 := ⟨2045, rfl⟩
  unfold expBits at h
  have hlt : units a < unitsOf (e * 2 ^ 52 + 2 ^ 52) := unitsOf_strictMono (by omega)
  rw [unitsOf_pattern (by decide) (.inr le_rfl)] at hlt
  rw [show infMag = (e + 1) * 2 ^ 52 + 2 ^ 52 by rw [he]; rfl, unitsOf_pattern (by decide) (.inr le_rfl), Nat.pow_succ]
  omega

/-- Doubling a finite magnitude below `2^1023` is exact. -/
theorem add_self_exact (d : Nat) {a : F64} (hf : isFinite a = true) (he : expBits a < 2046) :
    isFinite (add d a a) = true ∧ sign (add d a a) = sign a ∧ units (add d a a) = 2 * units a := by
  obtain ⟨c, e, hc, hce⟩ := exists_short_significand a
  have hexact : unitsOf (roundBits (2 * units a) 0) = 2 * units a := by
    rw [hce, mul_left_comm, ← Nat.pow_succ']
    exact unitsOf_roundBits_zero_of_short hc
  have hlt : roundBits (2 * units a) 0 < infMag := by
    rw [← unitsOf_strictMono.lt_iff_lt, hexact]
    exact two_mul_units_lt he
  rw [add_self d hf]
  refine ⟨?_, sign_round _ _ _, (units_round hlt).trans hexact⟩
  rwa [isFinite_iff, mag_round, if_neg (not_le.mpr hlt)]

theorem sticky_mul (q : Nat) {d : Nat} (hd : 0 < d) : sticky (q * d) d = 2 * q := by
  simp [sticky, Nat.mul_div_cancel q hd]

theorem units_two : units two = 2 ^ 52 * 2 ^ 1023 := by
  rw [units_eq, show mag two = 1023 * 2 ^ 52 + 2 ^ 52 by decide]
  exact unitsOf_pattern (by decide) (.inr le_rfl)

/-- The half of a finite value has half its magnitude, rounded once. -/
theorem div_two (d : Nat) {b : F64} (h : isFinite b = true) : div d b two = round (sign b) (units b * 2 ^ 2) 3 := by
  have hquot : 4 * (units b * 2 ^ 1074) = 2 * units b * units two := by
    rw [units_two, show 1074 = 51 + 1023 from rfl, pow_add]
    generalize 2 ^ 1023 = p
    ring
  have hsticky : sticky (4 * (units b * 2 ^ 1074)) (units two) = units b * 2 ^ 2 := by
    rw [hquot, sticky_mul (2 * units b) (units_pos (x := two) (by decide))]
    ring
  rw [div_finite d h (by decide) (by decide), hsticky, show sign two = false by decide, Bool.bne_false]

/-- Settles O34: the sum is exact, and so is its half. -/
theorem meanOfEqualsIsTheValue : Obligations.MeanOfEqualsIsTheValue := by
  intro d d' a hn ha
  rcases isNaN_or_isInf_or_isFinite a with h | h | h
  · rw [hn] at h
    exact absurd h Bool.false_ne_true
  · rw [add_inf_inf d h h, if_pos rfl, ← eq_inf_of_isInf h, div_inf_finite d' h (by decide),
      show sign two = false by decide, Bool.bne_false, ← eq_inf_of_isInf h]
  · have he : expBits a < 2046 := ha.resolve_left (by rw [isInf_of_isFinite h]; decide)
    obtain ⟨hf, hs, hu⟩ := add_self_exact d h he
    rw [div_two d' hf, hs, hu, show 2 * units a * 2 ^ 2 = units a * 2 ^ 3 by omega]
    exact round_units_finer h 3

/-! ## Zeros -/

theorem units_of_isZero {x : F64} (h : isZero x = true) : units x = 0 := by
  rw [units_eq, (isZero_iff x).mp h, unitsOf_zero]

theorem abs_of_isZero {x : F64} (h : isZero x = true) : abs x = zeroPos :=
  ext_sign_mag (sign_abs x) ((mag_abs x).trans ((isZero_iff x).mp h))

theorem mul_self_of_isZero (d : Nat) {x : F64} (h : isZero x = true) : mul d x x = zeroPos := by
  rw [mul_finite d (isFinite_of_isZero h) (isFinite_of_isZero h), units_of_isZero h, mul_zero, bne_self_eq_false, round_zero]
  rfl

theorem add_zeroPos_zeroPos (d : Nat) : add d zeroPos zeroPos = zeroPos := add_eq_zero d (by decide) (by decide) (by decide)

theorem div_of_isZero (d : Nat) {a b : F64} (ha : isZero a = true) (hn : isNaN b = false) (hz : isZero b = false) :
    div d a b = zero (sign a != sign b) := by
  have hf := isFinite_of_isZero ha
  rcases isNaN_or_isInf_or_isFinite b with h | h | h
  · rw [hn] at h
    exact absurd h Bool.false_ne_true
  · exact div_finite_inf d hf h
  · have hsticky : sticky (4 * (0 * 2 ^ 1074)) (units b) = 0 := by
      rw [zero_mul]
      simp [sticky]
    rw [div_finite d hf h hz, units_of_isZero ha, hsticky, round_zero]

/-- Nothing from the finest unit up is rounded to zero: the finest unit is nearer. -/
theorem isZero_round {s : Bool} {m : Nat} (h : 0 < m) : isZero (round s m 0) = false := by
  have hnear := (roundBits_nearest m 0 false 1).1
  have hone : unitsOf 1 = 1 := rfl
  have hinf := infMag_pos
  rw [isZero_eq_false_iff, mag_round]
  split
  · omega
  · intro h0
    rw [h0, unitsOf_zero, hone] at hnear
    simp at hnear
    omega

theorem isZero_ofNat {n : Nat} (h : 0 < n) : isZero (ofNat n) = false := isZero_round (Nat.mul_pos h (Nat.two_pow_pos _))

/-- The comparison `x == 0.0` tests for a zero of either sign (R25, R215). -/
theorem eq_zeroPos (x : F64) : eq x zeroPos = isZero x := by
  cases hn : isNaN x
  · rw [eq_iff hn (by decide), show key zeroPos = 0 by decide, key, isZero]
    cases sign x <;> simp
  · rw [eq_eq_false_of_isNaN (.inl hn), isZero_of_isNaN hn]

end Sys2Proof.F64
end

section
/-! PROOFS. The buffer utilities (41_buffer_utils.md): their checks in order, and what each computes on written buffers. -/

namespace Sys2Proof.Machine

open Sys2Proof.Claims

/-! ## Checks -/

/-- INVERT's and PEAKDET's one check as a condition (R200, R225). -/
theorem firstError_invertChecks (s : State) : firstError (invertChecks s) =
    if s.params.dmemWords < s.operands.a0.toNat + s.operands.a1.toNat then some (.addressRange .a0) else none :=
  firstError_rangeCheck_cons ..

/-- RMS's checks as conditions, in order (R220). -/
theorem firstError_rmsChecks (s : State) : firstError (rmsChecks s) =
    if s.operands.a1 = 0 then some .emptyBuffer
    else if s.params.dmemWords < s.operands.a0.toNat + s.operands.a1.toNat then some (.addressRange .a0)
    else none := by
  simp [rmsChecks, firstError_cons, firstError_rangeCheck_cons]

/-- INTLV's checks as conditions, in order (R205). -/
theorem firstError_intlvChecks (s : State) : firstError (intlvChecks s) =
    if s.operands.a1 ≠ s.operands.a3 then some .pairLengths
    else if s.params.dmemWords < s.operands.a0.toNat + s.operands.a1.toNat then some (.addressRange .a0)
    else if s.params.dmemWords < s.operands.a2.toNat + s.operands.a1.toNat then some (.addressRange .a2)
    else if s.params.dmemWords < s.operands.a4.toNat + 2 * s.operands.a1.toNat then some (.addressRange .a4)
    else none := by
  simp [intlvChecks, firstError_cons, firstError_rangeCheck_cons]

/-- DEINTLV's checks as conditions, in order (R210). -/
theorem firstError_deintlvChecks (s : State) : firstError (deintlvChecks s) =
    if s.operands.a1.toNat % 2 = 1 then some .oddLength
    else if s.params.dmemWords < s.operands.a0.toNat + s.operands.a1.toNat then some (.addressRange .a0)
    else if s.params.dmemWords < s.operands.a4.toNat + s.operands.a1.toNat / 2 then some (.addressRange .a4)
    else none := by
  simp [deintlvChecks, firstError_cons, firstError_rangeCheck_cons]

/-- MIX's checks as conditions, in order (R215). -/
theorem firstError_mixChecks (s : State) : firstError (mixChecks s) =
    if s.operands.a1 ≠ s.operands.a3 then some .pairLengths
    else if F64.isZero s.operands.f0 = true then some .zeroVolume
    else if s.params.dmemWords < s.operands.a0.toNat + s.operands.a1.toNat then some (.addressRange .a0)
    else if s.params.dmemWords < s.operands.a2.toNat + s.operands.a1.toNat then some (.addressRange .a2)
    else if s.params.dmemWords < s.operands.a4.toNat + s.operands.a1.toNat then some (.addressRange .a4)
    else none := by
  simp [mixChecks, firstError_cons, firstError_rangeCheck_cons, F64.eq_zeroPos, -F64.isZero_iff]

/-- The two MIX words are one command with a flag (R119, R215). -/
theorem exec_mix (negate : Bool) (s : State) :
    exec (if negate then .mixNeg else .mix) s = runCommand 0x13 (mixChecks s) (mixEffect negate) s := by
  cases negate <;> rfl

/-- Both MIX words have MIX's checks (R215). -/
theorem exec_mix_error {i : Instr} (hi : i = .mix ∨ i = .mixNeg) {s : State} {e : CmdError}
    (h : firstError (mixChecks s) = some e) : exec i s = .next (errorCompletion 0x13 e.code e.detail s) := by
  rcases hi with rfl | rfl
  · exact exec_error (i := .mix) h
  · exact exec_error (i := .mixNeg) h

/-- The three DEINTLV words have DEINTLV's checks (R210). -/
theorem exec_deintlv_error {i : Instr} (hi : i = .deintlvLeft ∨ i = .deintlvRight ∨ i = .deintlvMix) {s : State}
    {e : CmdError} (h : firstError (deintlvChecks s) = some e) :
    exec i s = .next (errorCompletion 0x12 e.code e.detail s) := by
  rcases hi with rfl | rfl | rfl
  · exact exec_error (i := .deintlvLeft) h
  · exact exec_error (i := .deintlvRight) h
  · exact exec_error (i := .deintlvMix) h

/-- Settles O32: the first condition that fails in each list. -/
theorem utilityChecksInOrder : Obligations.UtilityChecksInOrder := by
  intro s o l outside
  have hone := firstError_invertChecks s
  have hrms := firstError_rmsChecks s
  have hintlv := firstError_intlvChecks s
  have hmix := firstError_mixChecks s
  have hdeintlv := firstError_deintlvChecks s
  refine ⟨fun hout => ?_, fun hempty => ?_, fun hlen hout => ?_, fun hpair => ?_, fun hpair => ?_, fun i hi hpair => ?_,
    fun i hi => ?_⟩
  · rw [if_pos hout] at hone
    exact ⟨exec_error (i := .invert) (e := .addressRange .a0) hone, exec_error (i := .peakdet) (e := .addressRange .a0) hone⟩
  · exact exec_error (i := .rms) (e := .emptyBuffer) (hrms.trans (if_pos hempty))
  · rw [if_neg hlen, if_pos hout] at hrms
    exact exec_error (i := .rms) (e := .addressRange .a0) hrms
  · rw [if_pos hpair] at hintlv hmix
    exact ⟨exec_error (i := .intlv) (e := .pairLengths) hintlv, exec_mix_error (e := .pairLengths) (.inl rfl) hmix,
      exec_mix_error (e := .pairLengths) (.inr rfl) hmix⟩
  · rw [if_neg (not_not_intro hpair)] at hintlv
    refine ⟨fun hl => exec_error (i := .intlv) (e := .addressRange .a0) ?_,
      fun hl hr => exec_error (i := .intlv) (e := .addressRange .a2) ?_,
      fun hl hr hout => exec_error (i := .intlv) (e := .addressRange .a4) ?_⟩
    · exact hintlv.trans (if_pos hl)
    · exact hintlv.trans ((if_neg hl).trans (if_pos hr))
    · exact hintlv.trans ((if_neg hl).trans ((if_neg hr).trans (if_pos hout)))
  · rw [if_neg (not_not_intro hpair)] at hmix
    have hvolume (hz : F64.isZero o.f0 = false) := hmix.trans (if_neg (Bool.eq_false_iff.mp hz))
    refine ⟨fun hz => exec_mix_error (e := .zeroVolume) hi (hmix.trans (if_pos hz)),
      fun hz hl => exec_mix_error (e := .addressRange .a0) hi ?_,
      fun hz hl hr => exec_mix_error (e := .addressRange .a2) hi ?_,
      fun hz hl hr hout => exec_mix_error (e := .addressRange .a4) hi ?_⟩
    · exact (hvolume hz).trans (if_pos hl)
    · exact (hvolume hz).trans ((if_neg hl).trans (if_pos hr))
    · exact (hvolume hz).trans ((if_neg hl).trans ((if_neg hr).trans (if_pos hout)))
  · have hlength (heven : l % 2 = 0) := hdeintlv.trans (if_neg (show ¬l % 2 = 1 by omega))
    refine ⟨fun hodd => exec_deintlv_error (e := .oddLength) hi (hdeintlv.trans (if_pos hodd)),
      fun heven hl => exec_deintlv_error (e := .addressRange .a0) hi ?_,
      fun heven hl hout => exec_deintlv_error (e := .addressRange .a4) hi ?_⟩
    · exact (hlength heven).trans (if_pos hl)
    · exact (hlength heven).trans ((if_neg hl).trans (if_pos hout))

end Sys2Proof.Machine
end

section
/-! PROOFS. What the buffer utilities compute on written buffers inside DMEM (R200 to R230). -/

namespace Sys2Proof.F64

theorem neg_involutive : Function.Involutive neg := fun x =>
  ext_sign_mag (by rw [sign_neg, sign_neg, Bool.not_not]) (by rw [mag_neg, mag_neg])

end Sys2Proof.F64

namespace Sys2Proof.Machine

open Sys2Proof.Claims

/-! ## INVERT -/

/-- INVERT of a written buffer inside DMEM completes, and negates exactly the buffer's words (R200). -/
theorem exec_invert {s : State} (hin : s.operands.a0.toNat + s.operands.a1.toNat ≤ s.params.dmemWords)
    (hw : Written s.dmem s.operands.a0.toNat s.operands.a1.toNat) :
    ∃ m : Memory, exec .invert s = .next (State.complete { s with dmem := m } 0x10) ∧
      ∀ a, m.read a = if s.operands.a0.toNat ≤ a ∧ a < s.operands.a0.toNat + s.operands.a1.toNat then
        (s.dmem.read a).map F64.neg else s.dmem.read a := by
  obtain ⟨x, hx⟩ := readRange_of_written (b := .dmem) hw
  have hchecks := (firstError_invertChecks s).trans (if_neg (not_lt.mpr hin))
  exact ⟨_, exec_ok (i := .invert) hchecks (bind_eq_ok.mpr ⟨x, hx, rfl⟩), read_writeRange_map hx F64.neg⟩

/-- Settles O26: each INVERT negates the words of the buffer, and the second negation undoes the first. -/
theorem invertNegatesBuffer : Obligations.InvertNegatesBuffer := by
  intro s hin hw
  obtain ⟨m, hexec, hm⟩ := exec_invert hin hw
  have hw' : Written m s.operands.a0.toNat s.operands.a1.toNat := fun k hk => by
    rw [hm, if_pos (by omega), Option.isSome_map]
    exact hw k hk
  obtain ⟨m', hexec', hm'⟩ :=
    exec_invert (s := { State.complete { s with dmem := m } 0x10 with ops := s.operands }) hin hw'
  refine ⟨m, m', hexec, hm, hexec', fun a => (hm' a).trans ?_⟩
  show (if s.operands.a0.toNat ≤ a ∧ a < s.operands.a0.toNat + s.operands.a1.toNat then (m.read a).map F64.neg
    else m.read a) = s.dmem.read a
  rw [hm]
  split
  · rw [Option.map_map, F64.neg_involutive.comp_self, Option.map_id_apply]
  · rfl

/-! ## INTLV and DEINTLV -/

/-- Settles O27: both inputs are read before the samples are written in turn. -/
theorem intlvInterleaves : Obligations.IntlvInterleaves := by
  intro s o l hpair hleft hright hout hwl hwr
  obtain ⟨lv, hlv⟩ := readRange_of_written (b := .dmem) hwl
  obtain ⟨rv, hrv⟩ := readRange_of_written (b := .dmem) hwr
  obtain ⟨hllen, hlread⟩ := readRange_ok.mp hlv
  obtain ⟨hrlen, hrread⟩ := readRange_ok.mp hrv
  have hchecks : firstError (intlvChecks s) = none := by
    rw [firstError_intlvChecks, if_neg (not_not_intro hpair), if_neg (not_lt.mpr hleft), if_neg (not_lt.mpr hright),
      if_neg (not_lt.mpr hout)]
  have hlen : (interleave lv rv).length = 2 * l := by rw [interleave_length, hllen, hrlen, min_self]
  refine ⟨_, exec_ok (i := .intlv) hchecks (bind_eq_ok.mpr ⟨lv, hlv, bind_eq_ok.mpr ⟨rv, hrv, rfl⟩⟩), fun k hk => ?_,
    fun a ha => read_writeRange_outside (hlen ▸ ha)⟩
  have hl := List.getElem?_eq_getElem (hllen ▸ hk)
  have hr := List.getElem?_eq_getElem (hrlen ▸ hk)
  obtain ⟨heven, hodd⟩ := interleave_getElem lv rv k hl hr
  exact ⟨(read_writeRange_inside (by omega)).trans (heven.trans ((hlread k hk).trans hl).symm),
    (read_writeRange_inside (k := 2 * k + 1) (by omega)).trans (hodd.trans ((hrread k hk).trans hr).symm)⟩

/-- DEINTLV's effect for a channel that takes no draws (R210). -/
theorem deintlvEffect_select {s : State} {x : List Word} (pick : List F64 → List F64)
    (hx : readRange .dmem s.dmem s.operands.a0.toNat s.operands.a1.toNat = .ok x) :
    deintlvEffect 0 (fun _ => pick) s = .ok { s with dmem := s.dmem.writeRange s.operands.a4.toNat (pick x) } :=
  bind_eq_ok.mpr ⟨x, hx, by rw [Nat.zero_mul, Nat.add_zero]⟩

/-- Settles O28: the source is read before the picked samples are written. -/
theorem deintlvExtractsChannel : Obligations.DeintlvExtractsChannel := by
  intro s o l heven hsrc hout hw
  obtain ⟨x, hx⟩ := readRange_of_written (b := .dmem) hw
  obtain ⟨hlen, hread⟩ := readRange_ok.mp hx
  have hchecks : firstError (deintlvChecks s) = none := by
    rw [firstError_deintlvChecks, if_neg (show ¬l % 2 = 1 by omega), if_neg (not_lt.mpr hsrc), if_neg (not_lt.mpr hout)]
  have hleft : (leftSamples x).length = l / 2 := hlen ▸ leftSamples_length x
  have hright : (rightSamples x).length = l / 2 := hlen ▸ rightSamples_length x
  have hmid : (meanSamples s.draws x).length = l / 2 := hlen ▸ meanSamples_length s.draws x
  refine ⟨_, _, _, _, exec_ok (i := .deintlvLeft) hchecks (deintlvEffect_select leftSamples hx),
    exec_ok (i := .deintlvRight) hchecks (deintlvEffect_select rightSamples hx),
    exec_ok (i := .deintlvMix) hchecks (bind_eq_ok.mpr ⟨x, hx, rfl⟩), fun k hk => ?_, fun a ha => ?_⟩
  · have ha := List.getElem?_eq_getElem (show 2 * k < x.length by omega)
    have hb := List.getElem?_eq_getElem (show 2 * k + 1 < x.length by omega)
    have hreada := hread (2 * k) (show 2 * k < l by omega)
    have hreadb := hread (2 * k + 1) (show 2 * k + 1 < l by omega)
    refine ⟨?_, ?_, _, _, s.draws + 2 * k + 1, s.draws + 2 * k, hreada.trans ha, hreadb.trans hb, ?_⟩
    · exact (read_writeRange_inside (hleft ▸ hk)).trans ((leftSamples_getElem x k (by omega)).trans hreada.symm)
    · exact (read_writeRange_inside (hright ▸ hk)).trans ((rightSamples_getElem x k (by omega)).trans hreadb.symm)
    · exact (read_writeRange_inside (hmid ▸ hk)).trans (meanSamples_getElem x s.draws k ha hb)
  · exact ⟨read_writeRange_outside (hleft ▸ ha), read_writeRange_outside (hright ▸ ha),
      read_writeRange_outside (hmid ▸ ha)⟩

/-! ## DEINTLV of an interleaved buffer -/

/-- Picking either channel undoes the interleaving. -/
theorem samples_interleave {ls rs : List F64} (h : ls.length = rs.length) :
    leftSamples (interleave ls rs) = ls ∧ rightSamples (interleave ls rs) = rs := by
  induction ls generalizing rs with
  | nil => exact ⟨rfl, (List.length_eq_zero_iff.mp h.symm).symm⟩
  | cons l ls ih =>
    cases rs with
    | nil => cases h
    | cons r rs => exact (ih (Nat.succ.inj h)).imp (congrArg (l :: ·)) (congrArg (r :: ·))

/-- A range that was written is read back. -/
theorem readRange_writeRange (b : Bank) (m : Memory) (base : Nat) (vs : List Word) :
    readRange b (m.writeRange base vs) base vs.length = .ok vs :=
  readRange_ok.mpr ⟨rfl, fun _ hk => read_writeRange_inside hk⟩

/-- What a DEINTLV word that completes without an error writes (R210). -/
theorem dmem_of_exec_deintlv {i : Instr} {used : Nat} {pick : Nat → List F64 → List F64} {s t : State} {x : List Word}
    (hi : effectOf i = deintlvEffect used pick) (h : exec i s = .next t) (h0 : errorCode t = 0)
    (hx : readRange .dmem s.dmem s.operands.a0.toNat s.operands.a1.toNat = .ok x) :
    t.dmem = s.dmem.writeRange s.operands.a4.toNat (pick s.draws x) := by
  obtain ⟨u, -, hu, rfl⟩ := exec_next_of_errorCode_zero h h0
  obtain ⟨x', hx', rfl⟩ := deintlvEffect_ok (hi ▸ hu)
  rw [hx] at hx'
  cases hx'
  rfl

/-- Settles O33: the interleaved buffer is read back whole, and picking a channel undoes the interleaving. -/
theorem deintlvUndoesIntlv : Obligations.DeintlvUndoesIntlv := by
  intro s t u v o ht ht0 ha0 ha1 hu hv hu0 hv0 k hk
  obtain ⟨t, -, heffect, rfl⟩ := exec_next_of_errorCode_zero ht ht0
  obtain ⟨lv, rv, hlv, hrv, rfl⟩ := intlvEffect_ok heffect
  obtain ⟨hllen, hlread⟩ := readRange_ok.mp hlv
  obtain ⟨hrlen, hrread⟩ := readRange_ok.mp hrv
  have hlen : (interleave lv rv).length = o.a1.toNat := by rw [interleave_length, hllen, hrlen, min_self, ha1]
  have hsrc : readRange .dmem (s.dmem.writeRange s.operands.a4.toNat (interleave lv rv)) o.a0.toNat o.a1.toNat =
      .ok (interleave lv rv) := by
    rw [ha0, ← hlen]
    exact readRange_writeRange ..
  have hleft := dmem_of_exec_deintlv (pick := fun _ => leftSamples) rfl hu hu0 hsrc
  have hright := dmem_of_exec_deintlv (pick := fun _ => rightSamples) rfl hv hv0 hsrc
  obtain ⟨hl, hr⟩ := samples_interleave (hllen.trans hrlen.symm)
  rw [hleft, hright, hl, hr]
  exact ⟨(read_writeRange_inside (hllen ▸ hk)).trans (hlread k hk).symm,
    (read_writeRange_inside (hrlen ▸ hk)).trans (hrread k hk).symm⟩

/-! ## MIX -/

/-- Settles O29: both inputs are read before the sums are written. -/
theorem mixAddsScaledBuffer : Obligations.MixAddsScaledBuffer := by
  intro s negate o l hpair hvolume hfirst hsecond hout hwa hwb
  obtain ⟨av, hav⟩ := readRange_of_written (b := .dmem) hwa
  obtain ⟨bv, hbv⟩ := readRange_of_written (b := .dmem) hwb
  obtain ⟨halen, haread⟩ := readRange_ok.mp hav
  obtain ⟨hblen, hbread⟩ := readRange_ok.mp hbv
  have hchecks : firstError (mixChecks s) = none := by
    rw [firstError_mixChecks, if_neg (not_not_intro hpair), if_neg (Bool.eq_false_iff.mp hvolume),
      if_neg (not_lt.mpr hfirst), if_neg (not_lt.mpr hsecond), if_neg (not_lt.mpr hout)]
  have hlen : (mixSamples negate o.f0 s.draws av bv).length = l := by rw [mixSamples_length, halen, hblen, min_self]
  refine ⟨_, _, (exec_mix negate s).trans
    (runCommand_ok hchecks (bind_eq_ok.mpr ⟨av, hav, bind_eq_ok.mpr ⟨bv, hbv, rfl⟩⟩)), fun k hk => ?_,
    fun a ha => read_writeRange_outside (hlen ▸ ha)⟩
  have ha := List.getElem?_eq_getElem (halen ▸ hk)
  have hb := List.getElem?_eq_getElem (hblen ▸ hk)
  exact ⟨_, _, _, _, (haread k hk).trans ha, (hbread k hk).trans hb,
    (read_writeRange_inside (hlen ▸ hk)).trans (mixSamples_getElem negate o.f0 s.draws av bv k ha hb)⟩

/-! ## RMS and PEAKDET -/

section

variable {s : State} {xs : List Word} (hin : s.operands.a0.toNat + s.operands.a1.toNat ≤ s.params.dmemWords)
  (hx : readRange .dmem s.dmem s.operands.a0.toNat s.operands.a1.toNat = .ok xs)
include hin hx

/-- RMS of a buffer that is not empty (R220). -/
theorem exec_rms (hne : s.operands.a1 ≠ 0) : exec .rms s = .next (State.complete
    { s with result0 := rootMeanSquare s.draws xs, draws := s.draws + 2 * xs.length + 2 } 0x14) := by
  have hchecks : firstError (rmsChecks s) = none := by
    rw [firstError_rmsChecks, if_neg hne, if_neg (not_lt.mpr hin)]
  exact exec_ok (i := .rms) hchecks (bind_eq_ok.mpr ⟨xs, hx, rfl⟩)

/-- PEAKDET of a buffer (R225). -/
theorem exec_peakdet : exec .peakdet s = .next (State.complete { s with result0 := peakFrom F64.zeroPos xs } 0x15) :=
  exec_ok (i := .peakdet) ((firstError_invertChecks s).trans (if_neg (not_lt.mpr hin))) (bind_eq_ok.mpr ⟨xs, hx, rfl⟩)

end

/-- Settles O30: the buffer is read, and the effect is the formula. -/
theorem rmsGivesRootMeanSquare : Obligations.RmsGivesRootMeanSquare := by
  intro s hne hin hw
  obtain ⟨xs, hx⟩ := readRange_of_written (b := .dmem) hw
  obtain ⟨hlen, hread⟩ := readRange_ok.mp hx
  exact ⟨xs, sumSquaresFrom s.draws F64.zeroPos xs, s.draws + 2 * xs.length + 1, s.draws + 2 * xs.length,
    s.draws + 2 * xs.length + 2, hlen, fun k hk => hread k (hlen ▸ hk), sumOfSquares_sumSquaresFrom .., exec_rms hin hx hne⟩

/-- No element's magnitude is greater than the peak, which is the first peak or greater than it and the magnitude of an element
(R225). -/
theorem peakFrom_greatest (p : F64) (xs : List F64) :
    (∀ x ∈ xs, F64.gt (F64.abs x) (peakFrom p xs) = false) ∧
      (peakFrom p xs = p ∨ (F64.gt (peakFrom p xs) p = true ∧ ∃ x ∈ xs, peakFrom p xs = F64.abs x)) := by
  induction xs generalizing p with
  | nil => exact ⟨by simp, .inl rfl⟩
  | cons x xs ih =>
    rw [peakFrom]
    cases hg : F64.gt (F64.abs x) p
    · obtain ⟨hmax, hpeak⟩ := ih p
      rw [if_neg Bool.false_ne_true]
      refine ⟨List.forall_mem_cons.mpr ⟨?_, hmax⟩, hpeak.imp_right fun ⟨hgt, y, hy, he⟩ => ⟨hgt, y, .tail _ hy, he⟩⟩
      rcases hpeak with he | ⟨hgt, -⟩
      · rwa [he]
      · exact F64.not_gt_of_isNaN_or_gt (F64.isNaN_or_gt_of_not_gt hg hgt)
    · obtain ⟨hmax, hpeak⟩ := ih (F64.abs x)
      rw [if_pos rfl]
      rcases hpeak with he | ⟨hgt, y, hy, he⟩
      · rw [he] at hmax ⊢
        exact ⟨List.forall_mem_cons.mpr ⟨F64.gt_self _, hmax⟩, .inr ⟨hg, x, .head _, rfl⟩⟩
      · exact ⟨List.forall_mem_cons.mpr ⟨F64.not_gt_of_isNaN_or_gt (.inr hgt), hmax⟩,
          .inr ⟨F64.gt_trans hgt hg, y, .tail _ hy, he⟩⟩

/-- Settles O31: the buffer is read, and the peak starts from `+0.0`. -/
theorem peakdetGivesGreatestMagnitude : Obligations.PeakdetGivesGreatestMagnitude := by
  intro s hin hw
  obtain ⟨xs, hx⟩ := readRange_of_written (b := .dmem) hw
  obtain ⟨hlen, hread⟩ := readRange_ok.mp hx
  obtain ⟨hmax, hpeak⟩ := peakFrom_greatest F64.zeroPos xs
  refine ⟨_, exec_peakdet hin hx, hpeak.imp_right ?_, fun k hk x hxk => hmax x ?_⟩
  · rintro ⟨hgt, x, hxm, he⟩
    obtain ⟨k, hk⟩ := List.mem_iff_getElem?.mp hxm
    have hlt : k < s.operands.a1.toNat := hlen ▸ (List.getElem?_eq_some_iff.mp hk).1
    exact ⟨k, hlt, x, (hread k hlt).trans hk, by rw [← F64.isNaN_abs, ← he]; exact F64.isNaN_of_gt hgt, he⟩
  · exact List.mem_iff_getElem?.mpr ⟨k, (hread k hk).symm.trans hxk⟩

/-! ## Zeros -/

theorem sumSquaresFrom_zeros (d : Nat) {xs : List F64} (h : ∀ x ∈ xs, F64.isZero x = true) :
    sumSquaresFrom d F64.zeroPos xs = F64.zeroPos := by
  induction xs generalizing d with
  | nil => rfl
  | cons x xs ih =>
    obtain ⟨hx, hxs⟩ := List.forall_mem_cons.mp h
    rw [sumSquaresFrom, F64.mul_self_of_isZero d hx, F64.add_zeroPos_zeroPos]
    exact ih (d + 2) hxs

theorem rootMeanSquare_zeros (d : Nat) {xs : List F64} (h : ∀ x ∈ xs, F64.isZero x = true) (hne : 0 < xs.length) :
    rootMeanSquare d xs = F64.zeroPos := by
  rw [rootMeanSquare, sumSquaresFrom_zeros d h,
    F64.div_of_isZero _ (by decide) (F64.isNaN_ofNat _) (F64.isZero_ofNat hne), F64.sign_ofNat]
  exact F64.sqrt_of_isZero _ (by decide)

theorem peakFrom_zeros {xs : List F64} (h : ∀ x ∈ xs, F64.isZero x = true) : peakFrom F64.zeroPos xs = F64.zeroPos := by
  rcases (peakFrom_greatest F64.zeroPos xs).2 with he | ⟨-, x, hx, he⟩
  · exact he
  · exact he.trans (F64.abs_of_isZero (h x hx))

/-- Settles O35: squares, sums, quotients and roots of zeros are `+0.0`, and so are the magnitudes. -/
theorem zeroBufferMeasuresZero : Obligations.ZeroBufferMeasuresZero := by
  intro s hin hne hz
  obtain ⟨xs, hx⟩ := readRange_of_written (b := .dmem) (m := s.dmem) fun k hk => by
    obtain ⟨x, hxk, -⟩ := hz k hk
    rw [hxk]
    rfl
  obtain ⟨hlen, hread⟩ := readRange_ok.mp hx
  have hzeros : ∀ x ∈ xs, F64.isZero x = true := fun x hxm => by
    obtain ⟨k, hk⟩ := List.mem_iff_getElem?.mp hxm
    have hlt : k < s.operands.a1.toNat := hlen ▸ (List.getElem?_eq_some_iff.mp hk).1
    obtain ⟨y, hyk, hy⟩ := hz k hlt
    cases (hyk.symm.trans (hread k hlt)).trans hk
    exact hy
  have hpos : 0 < xs.length := hlen ▸ Nat.pos_of_ne_zero fun h0 => hne (BitVec.eq_of_toNat_eq h0)
  exact ⟨_, _, exec_rms hin hx hne, exec_peakdet hin hx, errorCode_complete .., errorCode_complete ..,
    rootMeanSquare_zeros _ hzeros hpos, peakFrom_zeros hzeros⟩

end Sys2Proof.Machine
end

section
/-! PROOFS. Failed commands (R256): the error completion is all that they write, and no completion clears STATUS.ERR. -/

namespace Sys2Proof.Machine

open Sys2Proof.Claims

/-- The model's error completion is R256's, field by field. -/
theorem raise_eq_errorCompletion (s : State) (op : Byte) (e : CmdError) :
    s.raise op e = errorCompletion op e.code e.detail s := rfl

/-- A command that reports a nonzero code failed a check, and only the error completion ran (R142, R256). -/
theorem exec_next_of_errorCode_ne_zero {i : Instr} {s t : State} (h : exec i s = .next t) (h0 : errorCode t ≠ 0) :
    ∃ e, firstError (checksOf i s) = some e ∧ t = s.raise (opcodeByte (encode i)) e := by
  rcases exec_next h with he | ⟨u, -, -, rfl⟩
  · exact he
  · exact absurd (errorCode_complete ..) h0

/-- Every completion overwrites ERROR with the command's own opcode (R144, R256). -/
theorem exec_error_eq_errorWord {i : Instr} {s t : State} (h : exec i s = .next t) :
    ∃ code detail : Byte, t.error = errorWord (opcodeByte (encode i)) detail code := by
  rcases exec_next h with ⟨e, -, rfl⟩ | ⟨u, -, -, rfl⟩
  · exact ⟨e.code, e.detail, raise_error ..⟩
  · exact ⟨0, 0, complete_error ..⟩

/-- No command clears STATUS.ERR: an error sets it, and a success keeps it (R144, R256). -/
theorem exec_keeps_err {i : Instr} {s t : State} (h : exec i s = .next t) (herr : s.flags.err = true) :
    t.flags.err = true := by
  rcases exec_next h with ⟨e, -, rfl⟩ | ⟨u, -, hu, rfl⟩
  · simp only [raise_flags]
  · obtain ⟨hkeep, -, -⟩ := effectOf_completion_frame hu
    simpa only [complete_flags] using hkeep.trans herr

/-- Settles O7: a nonzero code comes from a failed check, whose completion, like an illegal word's, is R256's on the old state. -/
theorem failedCommandChangesNothingElse : Obligations.FailedCommandChangesNothingElse := by
  refine ⟨fun i s t h h0 => ?_, fun s l e hd => ?_, fun i s t h => ⟨exec_error_eq_errorWord h, exec_keeps_err h⟩⟩
  · obtain ⟨e, -, rfl⟩ := exec_next_of_errorCode_ne_zero h h0
    exact ⟨e.code, e.detail, errorPair_mem e, raise_eq_errorCompletion ..⟩
  · rw [engineTurn_error hd, raise_eq_errorCompletion]
    rfl

end Sys2Proof.Machine
end

section
/-! PROOFS. What the two resets leave (R290, R292): the register values after power-on, the words that an aborted command could
write, and the invariant at power-on. -/

namespace Sys2Proof.Machine

open Sys2Proof.Claims

/-! ## Power-on reset (R290) -/

theorem ctrlWord_powerOn (p : Params) : (State.powerOn p).ctrlWord = 0 := by
  simp [State.ctrlWord]

theorem statusWord_powerOn (p : Params) : (State.powerOn p).statusWord = 0 := by
  simp [State.statusWord, State.irq, State.busy, Flags.clear]

/-- Every register but the constants of R44, R45 and R56 is zero after power-on. -/
theorem readReg_powerOn (p : Params) {r : Reg} (hr : r ∉ [Reg.id, .caps, .calk]) : (State.powerOn p).readReg r = 0 := by
  cases r
  case id | caps | calk => exact absurd hr (by decide)
  case ctrl => exact ctrlWord_powerOn p
  case status => exact statusWord_powerOn p
  all_goals rfl

theorem readReg_powerOnReset (s : State) (r : Reg) : s.powerOnReset.readReg r = (State.powerOn s.params).readReg r := by
  cases r <;> rfl

theorem read_bank_powerOnReset (s : State) (b : Bank) (a : Nat) : (s.powerOnReset.bank b).read a = none := by
  cases b <;> rfl

/-- An idle block with nothing more from outside keeps its state (R277). -/
theorem step_idle {s : State} (hi : s.inputs = []) (hh : s.held = none) (hr : s.running = none) : step s = .next s := by
  simp only [step, hi, hh, hr]

/-- Settles O57: the step is the reset of the state behind the input, and what the reset leaves is idle. -/
theorem powerOnResetValues : Obligations.PowerOnResetValues := by
  intro s rest hi
  refine ⟨_, step_powerOnReset hi, rfl, rfl, rfl, fun r hr => ?_, read_bank_powerOnReset _, rfl, rfl, rfl,
    fun _ => ⟨rfl, rfl⟩, fun hrest => step_idle hrest rfl rfl⟩
  rw [readReg_powerOnReset]
  exact readReg_powerOn _ hr

/-- Settles O58: the reference parameters of the model's reset state are within their bounds. -/
theorem invariantHoldsAtPowerOn : Obligations.InvariantHoldsAtPowerOn :=
  ⟨fun _ hp => inv_powerOn hp, inv_powerOn (by decide)⟩

/-! ## Soft reset (R292) -/

theorem readReg_softReset (s : State) (r : Reg) : s.softReset.readReg r = (State.powerOn s.params).readReg r := by
  cases r <;> rfl

theorem bank_softReset (s : State) (b : Bank) : s.softReset.bank b = s.abort.bank b := by
  cases b <;> rfl

theorem abort_of_idle {s : State} (h : s.running = none) : s.abort = s := by
  simp only [State.abort, h]

theorem abort_of_illegal {s : State} {l : Latch} {e : DecodeError} (h : s.running = some l)
    (hd : decodeWord l.word = .error e) : s.abort = s := by
  simp only [State.abort, h, hd]

theorem abort_of_legal {s : State} {l : Latch} {i : Instr} (h : s.running = some l) (hd : decodeWord l.word = .ok i) :
    s.abort = s.forgetOutputs l.ops i := by
  simp only [State.abort, h, hd]

theorem read_forget_eq_some {m : Memory} {lo hi i : Nat} {v : Word} :
    (m.forget lo hi).read i = some v ↔ ¬(lo ≤ i ∧ i < hi) ∧ m.read i = some v := by
  rw [read_forget, Option.ite_none_left_eq_some]

/-- The words that an abort leaves written are those that the command's rule could not write, bank by bank. -/
theorem read_forgetOutputs_eq_some {s : State} {o : Operands} {i : Instr} {b : Bank} {a : Nat} {v : Word} :
    ((s.forgetOutputs o i).bank b).read a = some v ↔ ¬couldWrite s o i b a ∧ (s.bank b).read a = some v := by
  cases b
  all_goals
    cases i
    all_goals
      simp [State.forgetOutputs, State.bank, State.bins, couldWrite, couldWriteDmem, read_forget_eq_some, and_comm, and_assoc]

theorem read_forgetOutputs_of_couldWrite {s : State} {o : Operands} {i : Instr} {b : Bank} {a : Nat}
    (h : couldWrite s o i b a) : ((s.forgetOutputs o i).bank b).read a = none :=
  Option.eq_none_iff_forall_ne_some.mpr fun _ hv => (read_forgetOutputs_eq_some.mp hv).1 h

theorem read_forgetOutputs_of_not_couldWrite {s : State} {o : Operands} {i : Instr} {b : Bank} {a : Nat}
    (h : ¬couldWrite s o i b a) : ((s.forgetOutputs o i).bank b).read a = (s.bank b).read a :=
  Option.ext fun _ => by rw [read_forgetOutputs_eq_some, and_iff_right h]

theorem writeReg_ctrl_softReset (s : State) {v : Word} (hv : v.getLsbD 0 = true) : s.writeReg .ctrl v = .ok s.softReset := by
  simp only [State.writeReg, State.writeCtrl, hv, if_true]

/-- Settles O55: the write is the soft reset, whose banks are those of the abort. -/
theorem softResetAborts : Obligations.SoftResetAborts := by
  intro s v hv
  refine ⟨_, performAccess_writeReg (r := .ctrl) (writeReg_ctrl_softReset s hv), readReg_softReset s, rfl,
    fun l i hr hd b a => ?_, fun hr b => ?_, fun l e hr hd b => ?_⟩
  all_goals rw [bank_softReset]
  · rw [abort_of_legal hr hd]
    exact ⟨read_forgetOutputs_of_couldWrite, read_forgetOutputs_of_not_couldWrite⟩
  · rw [abort_of_idle hr]
  · rw [abort_of_illegal hr hd]

end Sys2Proof.Machine
end
